-- ==== Sys2Proof/Word.lean ====
section
/-! DEFINITION. The word types of the block: 32-bit words, bytes, the 4-bit INST field, and the 32-bit encoding of a
binary32 value (00_scope.md R7, R8). Their arithmetic beyond BitVec's own stands in Machine/Float.lean. -/

namespace Sys2Proof

/-- A 32-bit register, table half-entry or command word (R8). -/
abbrev Word := BitVec 32

/-- A byte: an error code of STATUS (R231), or one byte of a word as a host's byte view splits it (R64). -/
abbrev Byte := BitVec 8

/-- The INST field of a command word, the instance number k (R80). -/
abbrev Inst := BitVec 4

/-- A word read as a binary32 encoding, `F(w)` (R8, R11). -/
abbrev F32 := Word

end Sys2Proof
end

