-- ==== Sys2Proof/Syntax.lean ====
section
/-! DEFINITION. The 49 commands of 30_encoding.md R87, one constructor per row of spec/opcode_table.json. An instanced
row carries its instance number k, the INST field; a block-wide row carries nothing (R82). Operands and results are in
ARG0..3 and RES0..3, so no command word holds one (R80). -/

namespace Sys2Proof

/-- The commands, in the order of R87. -/
inductive Instr where
  /-- PA_INIT (R124) -/
  | paInit (k : Inst)
  /-- PA_SET_RANGE (R125) -/
  | paSetRange (k : Inst)
  /-- PA_SET_FREQ (R126) -/
  | paSetFreq (k : Inst)
  /-- PA_PROCESS (R127) -/
  | paProcess (k : Inst)
  /-- PA_GET (R128) -/
  | paGet (k : Inst)
  /-- PA_GET_CFG (R129) -/
  | paGetCfg (k : Inst)
  /-- WT_INIT (R130) -/
  | wtInit (k : Inst)
  /-- WT_SET_FREQ (R131) -/
  | wtSetFreq (k : Inst)
  /-- WT_SET_AMP (R132) -/
  | wtSetAmp (k : Inst)
  /-- WT_SET_INTERP (R133) -/
  | wtSetInterp (k : Inst)
  /-- WT_PROCESS (R135) -/
  | wtProcess (k : Inst)
  /-- WT_TABLE_WRITE (R138) -/
  | wtTableWrite
  /-- WT_TABLE_READ (R139) -/
  | wtTableRead
  /-- WT_GET (R140) -/
  | wtGet (k : Inst)
  /-- WT_GET_CFG (R141) -/
  | wtGetCfg (k : Inst)
  /-- CR_INIT (R150) -/
  | crInit (k : Inst)
  /-- CR_SET_FREQ (R153) -/
  | crSetFreq (k : Inst)
  /-- CR_SET_AMP (R154) -/
  | crSetAmp (k : Inst)
  /-- CR_PROCESS (R155) -/
  | crProcess (k : Inst)
  /-- CR_GET (R158) -/
  | crGet (k : Inst)
  /-- CR_GET_CFG (R159) -/
  | crGetCfg (k : Inst)
  /-- CR_RENORM (R157) -/
  | crRenorm (k : Inst)
  /-- BQ_INIT (R170) -/
  | bqInit (k : Inst)
  /-- BQ_CALC (R172) -/
  | bqCalc (k : Inst)
  /-- BQ_SET_COEF (R173) -/
  | bqSetCoef (k : Inst)
  /-- BQ_PROCESS (R176) -/
  | bqProcess (k : Inst)
  /-- BQ_GET_COEF (R174) -/
  | bqGetCoef (k : Inst)
  /-- BQ_GET_HIST (R177) -/
  | bqGetHist (k : Inst)
  /-- QZ_INIT (R190) -/
  | qzInit (k : Inst)
  /-- QZ_SET_LEN (R191) -/
  | qzSetLen (k : Inst)
  /-- QZ_TABLE_WRITE (R192) -/
  | qzTableWrite (k : Inst)
  /-- QZ_TABLE_READ (R193) -/
  | qzTableRead (k : Inst)
  /-- QZ_SET_TRANSPOSE (R194) -/
  | qzSetTranspose (k : Inst)
  /-- QZ_INC_TRANSPOSE (R195) -/
  | qzIncTranspose (k : Inst)
  /-- QZ_QUANTIZE (R196) -/
  | qzQuantize (k : Inst)
  /-- QZ_CHROMATIC (R197) -/
  | qzChromatic (k : Inst)
  /-- QZ_GET (R198) -/
  | qzGet (k : Inst)
  /-- TT_INIT (R210) -/
  | ttInit (k : Inst)
  /-- TT_SET_PERIOD (R212) -/
  | ttSetPeriod (k : Inst)
  /-- TT_SET_BPM (R213) -/
  | ttSetBpm (k : Inst)
  /-- TT_SET_DURATION (R214) -/
  | ttSetDuration (k : Inst)
  /-- TT_SET_MODE (R215) -/
  | ttSetMode (k : Inst)
  /-- TT_PROCESS (R216) -/
  | ttProcess (k : Inst)
  /-- TT_GET_STATE (R218) -/
  | ttGetState (k : Inst)
  /-- TT_GET_CFG (R219) -/
  | ttGetCfg (k : Inst)
  /-- NOP (R110) -/
  | nop
  /-- CLR_ERR (R111) -/
  | clrErr
  /-- SOFT_RESET (R112) -/
  | softReset
  /-- DAC12 (R113) -/
  | dac12
deriving DecidableEq, Repr

/-- The six unit types and the CORE unit (R1). -/
inductive UnitKind where
  | pa
  | wt
  | cr
  | bq
  | qz
  | tt
  | core
deriving DecidableEq, Repr

/-- The unit a command belongs to and, for an instanced row, the instance it addresses (R82). -/
def Instr.address : Instr → UnitKind × Option Inst
  | .paInit k => (.pa, some k)
  | .paSetRange k => (.pa, some k)
  | .paSetFreq k => (.pa, some k)
  | .paProcess k => (.pa, some k)
  | .paGet k => (.pa, some k)
  | .paGetCfg k => (.pa, some k)
  | .wtInit k => (.wt, some k)
  | .wtSetFreq k => (.wt, some k)
  | .wtSetAmp k => (.wt, some k)
  | .wtSetInterp k => (.wt, some k)
  | .wtProcess k => (.wt, some k)
  | .wtTableWrite => (.wt, none)
  | .wtTableRead => (.wt, none)
  | .wtGet k => (.wt, some k)
  | .wtGetCfg k => (.wt, some k)
  | .crInit k => (.cr, some k)
  | .crSetFreq k => (.cr, some k)
  | .crSetAmp k => (.cr, some k)
  | .crProcess k => (.cr, some k)
  | .crGet k => (.cr, some k)
  | .crGetCfg k => (.cr, some k)
  | .crRenorm k => (.cr, some k)
  | .bqInit k => (.bq, some k)
  | .bqCalc k => (.bq, some k)
  | .bqSetCoef k => (.bq, some k)
  | .bqProcess k => (.bq, some k)
  | .bqGetCoef k => (.bq, some k)
  | .bqGetHist k => (.bq, some k)
  | .qzInit k => (.qz, some k)
  | .qzSetLen k => (.qz, some k)
  | .qzTableWrite k => (.qz, some k)
  | .qzTableRead k => (.qz, some k)
  | .qzSetTranspose k => (.qz, some k)
  | .qzIncTranspose k => (.qz, some k)
  | .qzQuantize k => (.qz, some k)
  | .qzChromatic k => (.qz, some k)
  | .qzGet k => (.qz, some k)
  | .ttInit k => (.tt, some k)
  | .ttSetPeriod k => (.tt, some k)
  | .ttSetBpm k => (.tt, some k)
  | .ttSetDuration k => (.tt, some k)
  | .ttSetMode k => (.tt, some k)
  | .ttProcess k => (.tt, some k)
  | .ttGetState k => (.tt, some k)
  | .ttGetCfg k => (.tt, some k)
  | .nop => (.core, none)
  | .clrErr => (.core, none)
  | .softReset => (.core, none)
  | .dac12 => (.core, none)

end Sys2Proof
end

