-- ==== Sys2Proof/Decode.lean ====
section
/-! DEFINITION. Command words to commands and back (30_encoding.md R80 to R88). `decode` is total on words and refuses
every reserved word by name; it looks at the word alone. The build is needed only for code INST, which the command's
own execution raises (R83, last check; Machine/Ops.lean `instanced`). -/

namespace Sys2Proof

/-- Why a word is no command (R88). Each of these is rejected with code ILLEGAL; `truncated` is a byte sequence too
short to hold a word, which no bus write is (R81). -/
inductive DecodeError where
  /-- bits [31:16] are not all 0 -/
  | reservedBits
  /-- UNIT is 6..14, or OPC is not listed for its UNIT -/
  | unlisted
  /-- INST is not 0 in a row whose INST must be 0 -/
  | instNotZero
  /-- fewer than four bytes -/
  | truncated
deriving DecidableEq, Repr

/-- Bits [7:0], OPC (R80). -/
def opcField (w : Word) : Nat := w.toNat % 256

/-- Bits [11:8], UNIT (R80). -/
def unitField (w : Word) : Nat := w.toNat / 256 % 16

/-- Bits [15:12], INST (R80). -/
def instField (w : Word) : Inst := BitVec.ofNat 4 (w.toNat / 4096)

/-- Bits [31:16], reserved (R80). -/
def reservedField (w : Word) : Nat := w.toNat / 65536

/-- A row of R87, by the role of its INST field (R82). -/
inductive Row where
  /-- INST column "k" -/
  | perInstance (command : Inst → Instr)
  /-- INST column "0" -/
  | blockWide (command : Instr)

/-- The PA rows of R87. -/
def paRow : Nat → Option Row
  | 0x00 => some (.perInstance .paInit)
  | 0x01 => some (.perInstance .paSetRange)
  | 0x02 => some (.perInstance .paSetFreq)
  | 0x03 => some (.perInstance .paProcess)
  | 0x04 => some (.perInstance .paGet)
  | 0x05 => some (.perInstance .paGetCfg)
  | _ => none

/-- The WT rows of R87. -/
def wtRow : Nat → Option Row
  | 0x00 => some (.perInstance .wtInit)
  | 0x01 => some (.perInstance .wtSetFreq)
  | 0x02 => some (.perInstance .wtSetAmp)
  | 0x03 => some (.perInstance .wtSetInterp)
  | 0x04 => some (.perInstance .wtProcess)
  | 0x05 => some (.perInstance .wtGet)
  | 0x06 => some (.perInstance .wtGetCfg)
  | 0x07 => some (.blockWide .wtTableWrite)
  | 0x08 => some (.blockWide .wtTableRead)
  | _ => none

/-- The CR rows of R87. -/
def crRow : Nat → Option Row
  | 0x00 => some (.perInstance .crInit)
  | 0x01 => some (.perInstance .crSetFreq)
  | 0x02 => some (.perInstance .crSetAmp)
  | 0x03 => some (.perInstance .crProcess)
  | 0x04 => some (.perInstance .crGet)
  | 0x05 => some (.perInstance .crGetCfg)
  | 0x06 => some (.perInstance .crRenorm)
  | _ => none

/-- The BQ rows of R87. -/
def bqRow : Nat → Option Row
  | 0x00 => some (.perInstance .bqInit)
  | 0x01 => some (.perInstance .bqCalc)
  | 0x02 => some (.perInstance .bqSetCoef)
  | 0x03 => some (.perInstance .bqProcess)
  | 0x04 => some (.perInstance .bqGetCoef)
  | 0x05 => some (.perInstance .bqGetHist)
  | _ => none

/-- The QZ rows of R87. -/
def qzRow : Nat → Option Row
  | 0x00 => some (.perInstance .qzInit)
  | 0x01 => some (.perInstance .qzSetLen)
  | 0x02 => some (.perInstance .qzTableWrite)
  | 0x03 => some (.perInstance .qzTableRead)
  | 0x04 => some (.perInstance .qzSetTranspose)
  | 0x05 => some (.perInstance .qzIncTranspose)
  | 0x06 => some (.perInstance .qzQuantize)
  | 0x07 => some (.perInstance .qzChromatic)
  | 0x08 => some (.perInstance .qzGet)
  | _ => none

/-- The TT rows of R87. -/
def ttRow : Nat → Option Row
  | 0x00 => some (.perInstance .ttInit)
  | 0x01 => some (.perInstance .ttSetPeriod)
  | 0x02 => some (.perInstance .ttSetBpm)
  | 0x03 => some (.perInstance .ttSetDuration)
  | 0x04 => some (.perInstance .ttSetMode)
  | 0x05 => some (.perInstance .ttProcess)
  | 0x06 => some (.perInstance .ttGetState)
  | 0x07 => some (.perInstance .ttGetCfg)
  | _ => none

/-- The CORE rows of R87. -/
def coreRow : Nat → Option Row
  | 0x00 => some (.blockWide .nop)
  | 0x01 => some (.blockWide .clrErr)
  | 0x02 => some (.blockWide .softReset)
  | 0x03 => some (.blockWide .dac12)
  | _ => none

/-- The row of R87 for a UNIT and an OPC, if there is one; UNIT 6..14 is reserved (R80). -/
def rowOf (unit opc : Nat) : Option Row :=
  match unit with
  | 0x0 => paRow opc
  | 0x1 => wtRow opc
  | 0x2 => crRow opc
  | 0x3 => bqRow opc
  | 0x4 => qzRow opc
  | 0x5 => ttRow opc
  | 0xF => coreRow opc
  | _ => none

/-- R83 up to its check of INST against the build: the command a word encodes. -/
def decode (w : Word) : Except DecodeError Instr :=
  if reservedField w ≠ 0 then .error .reservedBits
  else
    match rowOf (unitField w) (opcField w) with
    | none => .error .unlisted
    | some (.perInstance command) => .ok (command (instField w))
    | some (.blockWide command) => if instField w ≠ 0 then .error .instNotZero else .ok command

/-- The word `(k << 12) | (UNIT << 8) | OPC` of R86; the three fields do not overlap. -/
def commandWord (unit opc : Nat) (k : Inst) : Word := BitVec.ofNat 32 (k.toNat * 4096 + unit * 256 + opc)

/-- The command word of a command, from the UNIT, OPC and INST columns of R87. -/
def encode : Instr → Word
  | .paInit k => commandWord 0x0 0x00 k
  | .paSetRange k => commandWord 0x0 0x01 k
  | .paSetFreq k => commandWord 0x0 0x02 k
  | .paProcess k => commandWord 0x0 0x03 k
  | .paGet k => commandWord 0x0 0x04 k
  | .paGetCfg k => commandWord 0x0 0x05 k
  | .wtInit k => commandWord 0x1 0x00 k
  | .wtSetFreq k => commandWord 0x1 0x01 k
  | .wtSetAmp k => commandWord 0x1 0x02 k
  | .wtSetInterp k => commandWord 0x1 0x03 k
  | .wtProcess k => commandWord 0x1 0x04 k
  | .wtTableWrite => commandWord 0x1 0x07 0
  | .wtTableRead => commandWord 0x1 0x08 0
  | .wtGet k => commandWord 0x1 0x05 k
  | .wtGetCfg k => commandWord 0x1 0x06 k
  | .crInit k => commandWord 0x2 0x00 k
  | .crSetFreq k => commandWord 0x2 0x01 k
  | .crSetAmp k => commandWord 0x2 0x02 k
  | .crProcess k => commandWord 0x2 0x03 k
  | .crGet k => commandWord 0x2 0x04 k
  | .crGetCfg k => commandWord 0x2 0x05 k
  | .crRenorm k => commandWord 0x2 0x06 k
  | .bqInit k => commandWord 0x3 0x00 k
  | .bqCalc k => commandWord 0x3 0x01 k
  | .bqSetCoef k => commandWord 0x3 0x02 k
  | .bqProcess k => commandWord 0x3 0x03 k
  | .bqGetCoef k => commandWord 0x3 0x04 k
  | .bqGetHist k => commandWord 0x3 0x05 k
  | .qzInit k => commandWord 0x4 0x00 k
  | .qzSetLen k => commandWord 0x4 0x01 k
  | .qzTableWrite k => commandWord 0x4 0x02 k
  | .qzTableRead k => commandWord 0x4 0x03 k
  | .qzSetTranspose k => commandWord 0x4 0x04 k
  | .qzIncTranspose k => commandWord 0x4 0x05 k
  | .qzQuantize k => commandWord 0x4 0x06 k
  | .qzChromatic k => commandWord 0x4 0x07 k
  | .qzGet k => commandWord 0x4 0x08 k
  | .ttInit k => commandWord 0x5 0x00 k
  | .ttSetPeriod k => commandWord 0x5 0x01 k
  | .ttSetBpm k => commandWord 0x5 0x02 k
  | .ttSetDuration k => commandWord 0x5 0x03 k
  | .ttSetMode k => commandWord 0x5 0x04 k
  | .ttProcess k => commandWord 0x5 0x05 k
  | .ttGetState k => commandWord 0x5 0x06 k
  | .ttGetCfg k => commandWord 0x5 0x07 k
  | .nop => commandWord 0xF 0x00 0
  | .clrErr => commandWord 0xF 0x01 0
  | .softReset => commandWord 0xF 0x02 0
  | .dac12 => commandWord 0xF 0x03 0

/-- The four bytes of a word as a host's byte view splits it, lowest address first: the byte at the lowest address
holds bits [7:0] (20_memory.md R64). -/
def bytesOfWord (w : Word) : List Byte :=
  [BitVec.ofNat 8 w.toNat, BitVec.ofNat 8 (w.toNat / 256), BitVec.ofNat 8 (w.toNat / 65536),
   BitVec.ofNat 8 (w.toNat / 16777216)]

/-- The word whose bytes, lowest address first, are `b0`, `b1`, `b2`, `b3` (R64). -/
def wordOfBytes (b0 b1 b2 b3 : Byte) : Word :=
  BitVec.ofNat 32 (b0.toNat + b1.toNat * 256 + b2.toNat * 65536 + b3.toNat * 16777216)

/-- Decoding from bytes: every command is one word, four bytes (R81); what follows them is left over. -/
def decodeBytes : List Byte → Except DecodeError (Instr × List Byte)
  | b0 :: b1 :: b2 :: b3 :: rest =>
    match decode (wordOfBytes b0 b1 b2 b3) with
    | .ok i => .ok (i, rest)
    | .error e => .error e
  | _ => .error .truncated

/-- The command word whose low `nbits` bits are those of `w`, the rest 0. -/
def tableWord (nbits w : Nat) : Word := BitVec.ofNat 32 (w % 2 ^ nbits)

/-- What the decoder reads from a row's bits, laid out in bytes as R64 says. -/
def decodeTableWord (nbits w : Nat) : Option Instr :=
  match decodeBytes (bytesOfWord (tableWord nbits w)) with
  | .ok (i, _) => some i
  | .error _ => none

end Sys2Proof
end

