-- ==== Sys2Proof/Config.lean ====
section
/-! DEFINITION. What a build of the block fixes (00_scope.md R5): the sizes and the base address as plain data, and
the three functions TAN, SIN and COS, which nothing constrains (R17). -/

namespace Sys2Proof

/-- The build parameters of R5 that are numbers. One value of this type is one build; the state carries the build it
runs (log 2), and no step changes it. -/
structure Build where
  /-- N_PA, the number of PA instances. -/
  nPA : Nat
  /-- N_WT, the number of WT instances. -/
  nWT : Nat
  /-- N_CR, the number of CR instances. -/
  nCR : Nat
  /-- N_BQ, the number of BQ instances. -/
  nBQ : Nat
  /-- N_QZ, the number of QZ instances. -/
  nQZ : Nat
  /-- N_TT, the number of TT instances. -/
  nTT : Nat
  /-- WT_LEN, the number of entries of the shared wavetable. -/
  wtLen : Nat
  /-- QZ_MAX, the capacity of each scale table. -/
  qzMax : Nat
  /-- BASE, the bus byte address of the register window. -/
  base : Nat
deriving DecidableEq, Repr

/-- The build every vector of 95_test_vectors.md uses (R5: one instance of each unit, WT_LEN = 8, QZ_MAX = 16).
DESIGN CHOICE (log 2): the base address 0, which the spec leaves to the platform. -/
def Build.vectors : Build :=
  { nPA := 1, nWT := 1, nCR := 1, nBQ := 1, nQZ := 1, nTT := 1, wtLen := 8, qzMax := 16, base := 0 }

/-- The build parameters of R5 that are functions: the tangent, sine and cosine of the datapath, total functions of
their argument alone (R17). -/
structure Trig where
  /-- TAN. -/
  tan : F32 → F32
  /-- SIN. -/
  sin : F32 → F32
  /-- COS. -/
  cos : F32 → F32
deriving Inhabited

/-- The functions TAN, SIN and COS of the block (R17, log 3). No body: nothing can be proved of their values, so what
is proved of the model holds whatever they are. -/
opaque Config.trig : Trig

end Sys2Proof
end

