-- ==== Sys2Proof/Machine/Float.lean ====
section
/-! DEFINITION. IEEE 754 binary32 arithmetic on encodings (00_scope.md R11 to R16): exact integer arithmetic, then one
rounding to nearest, ties to even. Every finite binary32 value is an integer number of UNITS of 2^-149, so a finite
value is held as an integer (`valueOf`), a sum of two is an integer, and a product, a quotient or a square root is a
ratio of integers. What R12 takes from IEEE 754 by name (signed zeros, infinities) is the standard's (log 11). -/

namespace Sys2Proof.Machine

/-! ## Fields and classes -/

/-- The sign bit, bit 31. -/
def signOf (v : F32) : Bool := decide (2 ^ 31 ≤ v.toNat)

/-- The biased exponent, bits [30:23]. -/
def exponentOf (v : F32) : Nat := v.toNat / 2 ^ 23 % 256

/-- The fraction, bits [22:0]. -/
def fractionOf (v : F32) : Nat := v.toNat % 2 ^ 23

/-- The encodings of a NaN. -/
def isNaN (v : F32) : Bool := exponentOf v == 255 && fractionOf v != 0

/-- The two infinities. -/
def isInf (v : F32) : Bool := exponentOf v == 255 && fractionOf v == 0

/-- Neither an infinity nor a NaN (R14). -/
def isFinite (v : F32) : Bool := exponentOf v != 255

/-- The magnitude in units of 2^-149. Exact for a finite value; an infinity gives 2^277, above every finite value. -/
def magnitude (v : F32) : Nat :=
  if exponentOf v = 0 then fractionOf v else (fractionOf v + 2 ^ 23) * 2 ^ (exponentOf v - 1)

/-- The value in units of 2^-149; both zeros give 0. -/
def valueOf (v : F32) : Int := if signOf v then -(magnitude v : Int) else (magnitude v : Int)

/-! ## Constants (R13, R16) -/

/-- The one NaN the block produces and stores (R13). -/
def canonicalNaN : F32 := 0x7FC00000#32
/-- The magnitude bits of an infinity. -/
def infinityBits : Nat := 0x7F800000
/-- ZERO, +0.0. -/
def fZERO : F32 := 0x00000000#32
/-- HALF, 0.5. -/
def fHALF : F32 := 0x3F000000#32
/-- ONE, 1.0. -/
def fONE : F32 := 0x3F800000#32
/-- TWO, 2.0. -/
def fTWO : F32 := 0x40000000#32
/-- FIVE, 5.0. -/
def fFIVE : F32 := 0x40A00000#32
/-- SIXTY, 60.0. -/
def fSIXTY : F32 := 0x42700000#32
/-- K819, 819.0. -/
def fK819 : F32 := 0x444CC000#32
/-- K4095, 4095.0. -/
def fK4095 : F32 := 0x457FF000#32
/-- FS_RESET, 48000.0. -/
def fFS_RESET : F32 := 0x473B8000#32
/-- RANGE_MAX, 2^24. -/
def fRANGE_MAX : F32 := 0x4B800000#32
/-- TWO32, 2^32. -/
def fTWO32 : F32 := 0x4F800000#32
/-- PI_F, the binary32 value nearest pi. -/
def fPI : F32 := 0x40490FDB#32
/-- TWO_PI_F, the binary32 value nearest 2 pi. -/
def fTWO_PI : F32 := 0x40C90FDB#32

/-! ## Rounding -/

/-- The encoding with the given sign whose other 31 bits are `bits`. -/
def pack (negative : Bool) (bits : Nat) : F32 := BitVec.ofNat 32 (bits + if negative then 2 ^ 31 else 0)

/-- The integer nearest `num / den`, ties to even. -/
def nearestEven (num den : Nat) : Nat :=
  if den < 2 * (num % den) ∨ (2 * (num % den) = den ∧ num / den % 2 = 1) then num / den + 1 else num / den

/-- The magnitude bits of the non-negative value `num / den` units rounded to binary32, to nearest, ties to even
(R12). With `e = log2 (num/den) - 23` (0 for a subnormal result) the significand is `num / (den * 2^e)` rounded to an
integer `m`, and `e * 2^23 + m` is the encoding, also when `m` rounds up to the next power of two; a result too large
is the infinity. -/
def roundBits (num den : Nat) : Nat :=
  let e := Nat.log2 (num / den) - 23
  min (e * 2 ^ 23 + nearestEven num (den * 2 ^ e)) infinityBits

/-- `num / den` units, with a sign, rounded to binary32. -/
def roundTo (negative : Bool) (num den : Nat) : F32 := pack negative (roundBits num den)

/-- The infinity of the given sign. -/
def infinity (negative : Bool) : F32 := pack negative infinityBits

/-! ## Operations (R12) -/

/-- The value with its sign flipped. -/
def fneg (a : F32) : F32 := pack (!signOf a) (a.toNat % 2 ^ 31)

/-- Addition of finite values: an exact zero is +0.0 unless both operands are -0.0. -/
def faddFinite (a b : F32) : F32 :=
  if valueOf a + valueOf b = 0 then pack (signOf a && signOf b) 0
  else roundTo (decide (valueOf a + valueOf b < 0)) (valueOf a + valueOf b).natAbs 1

/-- `fadd(a,b)` (R12). -/
def fadd (a b : F32) : F32 :=
  if isNaN a || isNaN b then canonicalNaN
  else if isInf a then (if isInf b && (signOf a != signOf b) then canonicalNaN else a)
  else if isInf b then b
  else faddFinite a b

/-- `fsub(a,b)` (R12). -/
def fsub (a b : F32) : F32 := fadd a (fneg b)

/-- `fmul(a,b)` (R12). -/
def fmul (a b : F32) : F32 :=
  if isNaN a || isNaN b then canonicalNaN
  else if isInf a || isInf b then
    (if magnitude a = 0 ∨ magnitude b = 0 then canonicalNaN else infinity (signOf a != signOf b))
  else roundTo (signOf a != signOf b) (magnitude a * magnitude b) (2 ^ 149)

/-- `fdiv(a,b)` (R12). -/
def fdiv (a b : F32) : F32 :=
  if isNaN a || isNaN b then canonicalNaN
  else if isInf a then (if isInf b then canonicalNaN else infinity (signOf a != signOf b))
  else if isInf b then pack (signOf a != signOf b) 0
  else if magnitude b = 0 then (if magnitude a = 0 then canonicalNaN else infinity (signOf a != signOf b))
  else roundTo (signOf a != signOf b) (magnitude a * 2 ^ 149) (magnitude b)

/-- The largest `r` with `r * r ≤ n` among those that add bits below `bits` to `r0`: with `r0 = 0` and
`n < 4 ^ bits`, the integer square root. -/
def sqrtFrom : Nat → Nat → Nat → Nat
  | 0, _, r0 => r0
  | bits + 1, n, r0 =>
    if (r0 + 2 ^ bits) * (r0 + 2 ^ bits) ≤ n then sqrtFrom bits n (r0 + 2 ^ bits) else sqrtFrom bits n r0

/-- The integer square root of a number below 2^426. -/
def integerSqrt (n : Nat) : Nat := sqrtFrom 213 n 0

/-- `fsqrt(a)` (R12, D12): `sqrt (m * 2^-149)` is `sqrt (m * 2^149)` units. The integer root with one more bit that
says whether it is exact rounds as the real root does, since the root has at least 75 bits and 24 are kept. -/
def fsqrt (a : F32) : F32 :=
  if isNaN a then canonicalNaN
  else if magnitude a = 0 then a
  else if signOf a then canonicalNaN
  else if isInf a then a
  else
    let n := magnitude a * 2 ^ 149
    let r := integerSqrt n
    roundTo false (2 * r + if r * r = n then 0 else 1) 2

/-! ## Comparisons (R14) -/

/-- `flt(a,b)`: a < b, false when either is a NaN. -/
def flt (a b : F32) : Bool := !isNaN a && !isNaN b && decide (valueOf a < valueOf b)

/-- `fle(a,b)`. -/
def fle (a b : F32) : Bool := !isNaN a && !isNaN b && decide (valueOf a ≤ valueOf b)

/-- `fgt(a,b)`. -/
def fgt (a b : F32) : Bool := flt b a

/-- `fge(a,b)`. -/
def fge (a b : F32) : Bool := fle b a

/-- `feq(a,b)`: +0.0 equals -0.0. -/
def feq (a b : F32) : Bool := !isNaN a && !isNaN b && decide (valueOf a = valueOf b)

/-- `fmin(a,b)` (R14). -/
def fmin (a b : F32) : F32 := if flt a b then a else b

/-- `fmax(a,b)` (R14). -/
def fmax (a b : F32) : F32 := if fgt a b then a else b

/-! ## Conversions (R15, R8) -/

/-- `toF(n)`: the integer rounded to binary32, ties to even. -/
def toF (n : Nat) : F32 := roundTo false (n * 2 ^ 149) 1

/-- `floorI(v)`, for finite v >= 0: the largest integer not above v. Outside that domain, which no rule reaches
(log 12), the integer part of the magnitude. -/
def floorI (v : F32) : Nat := magnitude v / 2 ^ 149

/-- `truncI(v)`, for finite v >= 0: the integer part of v, equal to `floorI` there (R15). -/
def truncI (v : F32) : Nat := floorI v

/-- `roundF(v)`, for finite v: the nearest integral value, ties away from zero; the sign is kept, also on a zero, as
the C library's `round` does (log 10). -/
def roundF (v : F32) : F32 :=
  if isNaN v then canonicalNaN
  else if isInf v then v
  else roundTo (signOf v) ((2 * magnitude v + 2 ^ 149) / 2 ^ 150 * 2 ^ 149) 1

/-- `W(v)`: the encoding of a value, a NaN always as the canonical one (R8). -/
def canonical (v : F32) : Word := if isNaN v then canonicalNaN else v

/-- The binary32 value nearest the decimal literal `num / den` of the assembly notation (R89). -/
def literalF (negative : Bool) (num den : Nat) : F32 := roundTo negative (num * 2 ^ 149) den

end Sys2Proof.Machine
end

