-- ==== Sys2Proof/Machine/Units.lean ====
section
/-! DEFINITION. The fields of one instance of each unit (10_state.md R40 to R45), the entry of a scale table
(20_memory.md R69), and their reset values (70_reset_and_hazards.md R250). -/

namespace Sys2Proof.Machine

/-- WT[k].interp (R41): 0 = linear, 1 = cubic Hermite. -/
inductive Interp where
  | linear
  | cubic
deriving DecidableEq, Repr

/-- TT[k].mode (R45): 0 = basic periodic pulse, 1 = ramped trigger. -/
inductive TtMode where
  | basic
  | ramped
deriving DecidableEq, Repr

/-- TT[k].state (R45): 0 = Idle, 1 = Triggered. -/
inductive TtState where
  | idle
  | triggered
deriving DecidableEq, Repr

/-- The bit of R41 as a word, `zext_32(interp)`. -/
def interpWord : Interp → Word
  | .linear => 0
  | .cubic => 1

/-- The bit of R45 as a word, `zext_32(mode)`. -/
def modeWord : TtMode → Word
  | .basic => 0
  | .ramped => 1

/-- The bit of R45 as a word, `zext_32(state)`. -/
def stateWord : TtState → Word
  | .idle => 0
  | .triggered => 1

/-- The fields of a PA instance (R40). -/
structure PaInst where
  fs : F32
  range : F32
  freq : F32
  inc : F32
  phase : F32
deriving DecidableEq, Repr

/-- The reset values of R40. -/
def paReset : PaInst := { fs := fFS_RESET, range := fONE, freq := fZERO, inc := fZERO, phase := fZERO }

/-- The fields of a WT instance (R41). -/
structure WtInst where
  fs : F32
  freq : F32
  inc : F32
  phase : F32
  amp : F32
  interp : Interp
deriving DecidableEq, Repr

/-- The reset values of R41. -/
def wtReset : WtInst :=
  { fs := fFS_RESET, freq := fZERO, inc := fZERO, phase := fZERO, amp := fZERO, interp := .linear }

/-- The fields of a CR instance (R42): multiplier (mre, mim), value (vre, vim). -/
structure CrInst where
  fs : F32
  freq : F32
  mre : F32
  mim : F32
  vre : F32
  vim : F32
  amp : F32
deriving DecidableEq, Repr

/-- The reset values of R42. -/
def crReset : CrInst :=
  { fs := fFS_RESET, freq := fZERO, mre := fONE, mim := fZERO, vre := fONE, vim := fZERO, amp := fZERO }

/-- The fields of a BQ instance (R43): five coefficients, two-sample input and output histories. -/
structure BqInst where
  b0 : F32
  b1 : F32
  b2 : F32
  a1 : F32
  a2 : F32
  x1 : F32
  x2 : F32
  y1 : F32
  y2 : F32
deriving DecidableEq, Repr

/-- The reset values of R43. -/
def bqReset : BqInst :=
  { b0 := fZERO, b1 := fZERO, b2 := fZERO, a1 := fZERO, a2 := fZERO,
    x1 := fZERO, x2 := fZERO, y1 := fZERO, y2 := fZERO }

/-- The fields of a QZ instance (R44): n, the entries in use, and T, the transpose index. Its table is QT[k]. -/
structure QzInst where
  n : Word
  transpose : Word
deriving DecidableEq, Repr

/-- The reset values of R44. -/
def qzReset : QzInst := { n := 0, transpose := 0 }

/-- An entry of a scale table, the pair (bound, q) of R69. -/
structure QtEntry where
  bound : F32
  q : F32
deriving DecidableEq, Repr

/-- What an entry of a scale table that no list mentions reads as: the reset contents of R69. -/
def qtDefault : QtEntry := { bound := fZERO, q := fZERO }

/-- What an entry of the wavetable that no list mentions reads as: the reset contents of R68. -/
def wtabDefault : F32 := fZERO

/-- The fields of a TT instance (R45). -/
structure TtInst where
  fs : F32
  interval : Word
  duration : Word
  step : F32
  mode : TtMode
  counter : Word
  state : TtState
  ramp : F32
deriving DecidableEq, Repr

/-- The reset values of R45. -/
def ttReset : TtInst :=
  { fs := fFS_RESET, interval := 0, duration := 0, step := fZERO, mode := .basic, counter := 0, state := .idle,
    ramp := fZERO }

end Sys2Proof.Machine
end

