-- ==== Sys2Proof/Machine/State.lean ====
section
/-! DEFINITION. The state of the block, as plain data (10_state.md R30; INVENTORY.md lists every field with its rule),
what a step can end in, and the state after reset (70_reset_and_hazards.md R250). -/

namespace Sys2Proof.Machine

/-- Why a command is rejected (60_exceptions.md R231). The reserved codes are never raised, so no name stands for
one. -/
inductive Code where
  | illegal
  | inst
  | index
  | config
  | operand
  | noMatch
deriving DecidableEq, Repr

/-- STATUS (R33) by its fields; bits [7:2] and [31:24] are reserved, read as 0 and hold nothing, so they are no field
here. The word a host reads is `statusWord` of Machine/Flags.lean. -/
structure Status where
  err : Bool
  lastRej : Bool
  firstCode : Byte
  lastCode : Byte
deriving DecidableEq, Repr

/-- What reaches the block's port (00_scope.md R6, R9): a read or write of `size` bytes at a byte address by some
host, or the platform asserting the reset input (R251). -/
inductive PortEvent where
  | read (addr size : Nat)
  | write (addr size : Nat) (data : Word)
  | reset
deriving DecidableEq, Repr

/-- One entry for each value of the 4-bit INST field. A build has the first N_u of them (R5); the others are never
reached, since a command that names one is rejected with INST (R83, log 6). -/
abbrev Bank (α : Type) := Vector α 16

/-- A table by index, listing in rising order the entries that differ from what an unlisted entry reads as
(Machine/Memory.lean). -/
abbrev Memory (α : Type) := List (Nat × α)

/-- The state of the block (R30), with the model's own fields `build`, `pending` and `readData`. -/
structure State where
  /-- The model's: the build parameters (R5), which no step changes (log 2). -/
  build : Build
  /-- STATUS (R33). -/
  status : Status
  /-- ARG0..ARG3 (R35). -/
  args : Vector Word 4
  /-- RES0..RES3 (R36). -/
  res : Vector Word 4
  /-- PA[k] (R40). -/
  pa : Bank PaInst
  /-- WT[k] (R41). -/
  wt : Bank WtInst
  /-- CR[k] (R42). -/
  cr : Bank CrInst
  /-- BQ[k] (R43). -/
  bq : Bank BqInst
  /-- QZ[k] (R44). -/
  qz : Bank QzInst
  /-- TT[k] (R45). -/
  tt : Bank TtInst
  /-- WTAB, the shared wavetable (R68). -/
  wtab : Memory F32
  /-- QT[k], the scale tables (R69). -/
  qt : Bank (Memory QtEntry)
  /-- The model's: what has reached the port and is not yet performed, in arrival order (R65, log 1). -/
  pending : List PortEvent
  /-- The model's: the word the access just performed returned, if it was a read (R246, log 8). -/
  readData : Option Word
deriving DecidableEq, Repr

/-- How a step stops. Both are errors of the host that issued the access, and the state of the block stays as it is. -/
inductive Fault where
  /-- A bus error: an access inside the window that R62 does not admit (a width other than 4 bytes, or a misaligned
  address). Raised by the port (R237). Safe: the run stops where the block would wait for the next access (log 4). -/
  | busError (addr size : Nat)
  /-- An access to an address outside the window, which the block does not decode (R60); what it does is the
  platform's (R77). Raised by the port. Safe (log 5). -/
  | outsideWindow (addr : Nat)
deriving DecidableEq, Repr

/-- Why the model gives no meaning. -/
inductive Refusal where
  /-- An instruction whose arm of `exec` has no meaning yet; every arm has one, so nothing raises it. Safe. -/
  | notModelled (mnemonic : String)
deriving DecidableEq, Repr

/-- STATUS after reset (R33). -/
def Status.reset : Status := { err := false, lastRej := false, firstCode := 0, lastCode := 0 }

/-- The state after reset of a given build (R250), with nothing pending at the port. -/
def State.resetOf (b : Build) : State :=
  { build := b
    status := Status.reset
    args := Vector.replicate 4 0
    res := Vector.replicate 4 0
    pa := Vector.replicate 16 paReset
    wt := Vector.replicate 16 wtReset
    cr := Vector.replicate 16 crReset
    bq := Vector.replicate 16 bqReset
    qz := Vector.replicate 16 qzReset
    tt := Vector.replicate 16 ttReset
    wtab := []
    qt := Vector.replicate 16 []
    pending := []
    readData := none }

/-- The state after reset, of the build 95_test_vectors.md uses (log 2). Statements about reset are made of
`State.resetOf b` for every build. -/
def State.reset : State := State.resetOf Build.vectors

end Sys2Proof.Machine
end

