-- ==== Sys2Proof/Machine/Flags.lean ====
section
/-! DEFINITION. STATUS, the block's only flags beside the per-instance bits (10_state.md R33, R38), and its updates:
by an accepted command (40_command_core.md R100), by a rejected one (R101), and by CLR_ERR (R111). -/

namespace Sys2Proof.Machine

/-- The 8-bit value of a rejection code (60_exceptions.md R231). -/
def codeByte : Code → Byte
  | .illegal => 0x01
  | .inst => 0x02
  | .index => 0x03
  | .config => 0x04
  | .operand => 0x05
  | .noMatch => 0x06

/-- The word a host reads at STATUS (R33): ERR in bit 0, LAST_REJ in bit 1, FIRST_CODE in [15:8], LAST_CODE in
[23:16], zeros elsewhere. -/
def statusWord (st : Status) : Word :=
  BitVec.ofNat 32
    ((if st.err then 1 else 0) + (if st.lastRej then 2 else 0) + st.firstCode.toNat * 256 + st.lastCode.toNat * 65536)

/-- STATUS after an accepted command: LAST_REJ and LAST_CODE become 0 (R100). -/
def statusAccept (st : Status) : Status := { st with lastRej := false, lastCode := 0 }

/-- STATUS after a rejection with a code: LAST_REJ and LAST_CODE record it, and ERR and FIRST_CODE if ERR was 0
(R101). -/
def statusReject (c : Code) (st : Status) : Status :=
  { err := true
    lastRej := true
    firstCode := if st.err then st.firstCode else codeByte c
    lastCode := codeByte c }

/-- The effect of CLR_ERR on STATUS (R111). -/
def statusClear (st : Status) : Status := { st with err := false, firstCode := 0 }

end Sys2Proof.Machine
end

