-- ==== Sys2Proof/Machine/Memory.lean ====
section
/-! DEFINITION. The tables WTAB and QT[k] (20_memory.md R68 to R70) as lists of (index, entry) pairs in one canonical
form: indices strictly rising, and no entry equal to what an unlisted index reads as (`d`, the reset contents). Equal
tables are then equal lists. The block's smallest addressable unit is a table entry: it has no byte memory (R70). -/

namespace Sys2Proof.Machine

/-- Entry `i` of a table whose unlisted entries read as `d`. -/
def Memory.read {α : Type} (d : α) : Memory α → Nat → α
  | [], _ => d
  | (j, x) :: rest, i => if i = j then x else Memory.read d rest i

/-- The table with entry `i` set to `v`; writing `d` removes the entry. -/
def Memory.write {α : Type} [DecidableEq α] (d : α) : Memory α → Nat → α → Memory α
  | [], i, v => if v = d then [] else [(i, v)]
  | (j, x) :: rest, i, v =>
    if i < j then (if v = d then (j, x) :: rest else (i, v) :: (j, x) :: rest)
    else if i = j then (if v = d then rest else (i, v) :: rest)
    else (j, x) :: Memory.write d rest i v

/-- The canonical form, for entries at indices from `lo` on. -/
def Memory.wfFrom {α : Type} [DecidableEq α] (d : α) : Nat → Memory α → Bool
  | _, [] => true
  | lo, (j, x) :: rest => decide (lo ≤ j) && decide (x ≠ d) && Memory.wfFrom d (j + 1) rest

/-- The canonical form: indices strictly rising, no entry equal to `d`. -/
def Memory.wf {α : Type} [DecidableEq α] (d : α) (m : Memory α) : Bool := Memory.wfFrom d 0 m

/-- Every listed index is below the table's length `n` (R68, R69). -/
def Memory.below {α : Type} (n : Nat) (m : Memory α) : Bool := m.all fun entry => decide (entry.1 < n)

end Sys2Proof.Machine
end

