-- ==== Sys2Proof/Machine/Ops.lean ====
section
/-! DEFINITION. The named operations every command is built from: reading ARG and writing RES registers, reading and
writing instance fields and table entries, and how a command ends, accepted (40_command_core.md R100) or rejected
(R101, the block's one exception mechanism, 60_exceptions.md R230). There is no return from a rejection (R236). -/

namespace Sys2Proof.Machine

/-! ## Registers and instances -/

/-- The word in ARGn (R35). -/
def argWord (s : State) (n : Fin 4) : Word := s.args[n.val]

/-- A host's write of ARGn (R35). -/
def setArg (s : State) (n : Fin 4) (w : Word) : State := { s with args := s.args.set n.val w }

/-- The word in RESn (R36). -/
def resWord (s : State) (n : Fin 4) : Word := s.res[n.val]

/-- `RES[n] <- w` (R9). -/
def setRes (s : State) (n : Fin 4) (w : Word) : State := { s with res := s.res.set n.val w }

/-- Instance k of a bank. -/
def bankGet {α : Type} (v : Bank α) (k : Inst) : α := v[k.toNat]'k.isLt

/-- A bank with instance k replaced; every other instance is kept (R46). -/
def bankSet {α : Type} (v : Bank α) (k : Inst) (x : α) : Bank α := v.set k.toNat x k.isLt

/-- The fields of PA[k]. -/
def paAt (s : State) (k : Inst) : PaInst := bankGet s.pa k
/-- The fields of WT[k]. -/
def wtAt (s : State) (k : Inst) : WtInst := bankGet s.wt k
/-- The fields of CR[k]. -/
def crAt (s : State) (k : Inst) : CrInst := bankGet s.cr k
/-- The fields of BQ[k]. -/
def bqAt (s : State) (k : Inst) : BqInst := bankGet s.bq k
/-- The fields of QZ[k]. -/
def qzAt (s : State) (k : Inst) : QzInst := bankGet s.qz k
/-- The fields of TT[k]. -/
def ttAt (s : State) (k : Inst) : TtInst := bankGet s.tt k

/-- `PA[k] <- u`. -/
def setPa (s : State) (k : Inst) (u : PaInst) : State := { s with pa := bankSet s.pa k u }
/-- `WT[k] <- u`. -/
def setWt (s : State) (k : Inst) (u : WtInst) : State := { s with wt := bankSet s.wt k u }
/-- `CR[k] <- u`. -/
def setCr (s : State) (k : Inst) (u : CrInst) : State := { s with cr := bankSet s.cr k u }
/-- `BQ[k] <- u`. -/
def setBq (s : State) (k : Inst) (u : BqInst) : State := { s with bq := bankSet s.bq k u }
/-- `QZ[k] <- u`. -/
def setQz (s : State) (k : Inst) (u : QzInst) : State := { s with qz := bankSet s.qz k u }
/-- `TT[k] <- u`. -/
def setTt (s : State) (k : Inst) (u : TtInst) : State := { s with tt := bankSet s.tt k u }

/-! ## Tables -/

/-- `WTAB[i]` (R68). -/
def wtabAt (s : State) (i : Nat) : F32 := Memory.read wtabDefault s.wtab i

/-- `WTAB[i] <- v` (R68). -/
def setWtab (s : State) (i : Nat) (v : F32) : State := { s with wtab := Memory.write wtabDefault s.wtab i v }

/-- `QT[k][i]` (R69). -/
def qtAt (s : State) (k : Inst) (i : Nat) : QtEntry := Memory.read qtDefault (bankGet s.qt k) i

/-- `QT[k][i] <- e` (R69). -/
def setQt (s : State) (k : Inst) (i : Nat) (e : QtEntry) : State :=
  { s with qt := bankSet s.qt k (Memory.write qtDefault (bankGet s.qt k) i e) }

/-- Every entry of QT[k] takes its reset value (R190). -/
def clearQt (s : State) (k : Inst) : State := { s with qt := bankSet s.qt k [] }

/-! ## How a command ends -/

/-- The end of an accepted command (R100). -/
def accept (s : State) : State := { s with status := statusAccept s.status }

/-- A rejection, the block's exception: nothing of the command is committed, STATUS records the code, and control
goes nowhere (R101, R230, R235). -/
def reject (c : Code) (s : State) : State := { s with status := statusReject c s.status }

/-- How a command that started in `s` ends: with the assignments its checks let it commit, or with a rejection that
leaves the state before it (R100, R101). -/
def finish (s : State) : Except Code State → Host.Outcome State Fault Refusal
  | .ok t => .next (accept t)
  | .error c => .next (reject c s)

/-- The last check of R83: an instanced command names one of the unit's `count` instances, or is rejected with INST. -/
def instanced (count : Nat) (k : Inst) (body : Except Code State) : Except Code State :=
  if k.toNat < count then body else .error .inst

/-- Every field of every instance, every table entry, ARG, RES and STATUS at their reset values (R250, R112); the
build and what waits at the port are no state of the block and are kept. -/
def resetBlock (s : State) : State :=
  { State.resetOf s.build with pending := s.pending, readData := s.readData }

end Sys2Proof.Machine
end

