-- ==== Sys2Proof/Machine/Operands.lean ====
section
/-! DEFINITION. How a command reads its operands (30_encoding.md R84: an unsigned integer or a binary32 value), the
checks it makes on them (40_command_core.md R103), and how results are put into words (R85). -/

namespace Sys2Proof.Machine

/-- `U(ARG[n])` (R84). -/
def argU (s : State) (n : Fin 4) : Nat := (argWord s n).toNat

/-- `F(ARG[n])` (R84). -/
def argF (s : State) (n : Fin 4) : F32 := argWord s n

/-- `zext_32(n)` (R7). -/
def zext (n : Nat) : Word := BitVec.ofNat 32 n

/-- A boolean result in bit 0 of a word (R85). -/
def boolWord (b : Bool) : Word := if b then 1 else 0

/-- A check that raises a code when its condition is false (R103). -/
def need (c : Code) (condition : Bool) : Except Code Unit := if condition then .ok () else .error c

/-- `needOperand(cond)` (R103). -/
def needOperand (condition : Bool) : Except Code Unit := need .operand condition

/-- `needFinite(v)` (R103). -/
def needFinite (v : F32) : Except Code Unit := need .operand (isFinite v)

/-- `needFs(v)` (R103): finite and above 0. -/
def needFs (v : F32) : Except Code Unit := need .operand (isFinite v && fgt v fZERO)

/-- `needIndex(i, n)` (R103). -/
def needIndex (i n : Nat) : Except Code Unit := need .index (decide (i < n))

/-- `needConfig(cond)` (R103). -/
def needConfig (condition : Bool) : Except Code Unit := need .config condition

end Sys2Proof.Machine
end

