-- ==== Sys2Proof/Machine/Bq.lean ====
section
/-! DEFINITION. The BQ unit: the biquad IIR filter (44_biquad.md R170 to R178). -/

namespace Sys2Proof.Machine

/-- The five coefficients of a biquad (R43). -/
structure Coefs where
  b0 : F32
  b1 : F32
  b2 : F32
  a1 : F32
  a2 : F32
deriving DecidableEq, Repr

/-- `Design(fs, f, Q)` (R171) with the tangent `tan`. -/
def designWith (tan : F32 → F32) (fs f q : F32) : Coefs :=
  let k := tan (fdiv (fmul fPI f) fs)
  let kk := fmul k k
  let kq := fdiv k q
  let norm := fdiv fONE (fadd (fadd fONE kq) kk)
  let b0 := fmul kk norm
  { b0 := b0
    b1 := fmul fTWO b0
    b2 := b0
    a1 := fmul (fmul fTWO (fsub kk fONE)) norm
    a2 := fmul (fadd (fsub fONE kq) kk) norm }

/-- All five coefficients are finite (R172). -/
def coefsFinite (c : Coefs) : Bool :=
  isFinite c.b0 && isFinite c.b1 && isFinite c.b2 && isFinite c.a1 && isFinite c.a2

/-- The coefficient a selector names (R43, R173): b0 = 0, b1 = 1, b2 = 2, a1 = 3, a2 = 4. -/
def coefAt (u : BqInst) (sel : Nat) : F32 :=
  match sel with
  | 0 => u.b0
  | 1 => u.b1
  | 2 => u.b2
  | 3 => u.a1
  | _ => u.a2

/-- The instance with the coefficient a selector names replaced (R173). -/
def setCoef (u : BqInst) (sel : Nat) (v : F32) : BqInst :=
  match sel with
  | 0 => { u with b0 := v }
  | 1 => { u with b1 := v }
  | 2 => { u with b2 := v }
  | 3 => { u with a1 := v }
  | _ => { u with a2 := v }

/-- `Diff` (R175), the difference equation, left to right. DEDUCED (log 14): with all coefficients +0.0 the equation
gives -0.0 where the input and the two before it have the sign bit set and neither output before it has, as R176
allows; R170 and R254 say +0.0 for every input. -/
def difference (u : BqInst) (x : F32) : F32 :=
  fsub (fsub (fadd (fadd (fmul u.b0 x) (fmul u.b1 u.x1)) (fmul u.b2 u.x2)) (fmul u.a1 u.y1)) (fmul u.a2 u.y2)

/-- BQ_INIT (R170). -/
def execBqInit (k : Inst) (s : State) : Host.Outcome State Fault Refusal :=
  finish s <| instanced s.build.nBQ k do
    return setBq s k bqReset

/-- BQ_CALC (R172) of a block whose TAN is that of `m`; the history is kept. -/
def bqCalcWith (m : Trig) (k : Inst) (s : State) : Host.Outcome State Fault Refusal :=
  finish s <| instanced s.build.nBQ k do
    let fs := argF s 0
    let f := argF s 1
    let q := argF s 2
    needFs fs
    needFinite f
    needOperand (fgt f fZERO)
    needOperand (flt f (fmul fs fHALF))
    needFinite q
    needOperand (fgt q fZERO)
    let c := designWith m.tan fs f q
    needOperand (coefsFinite c)
    return setBq s k { bqAt s k with b0 := c.b0, b1 := c.b1, b2 := c.b2, a1 := c.a1, a2 := c.a2 }

/-- BQ_CALC (R172). -/
def execBqCalc (k : Inst) (s : State) : Host.Outcome State Fault Refusal :=
  bqCalcWith Config.trig k s

/-- BQ_SET_COEF (R173). -/
def execBqSetCoef (k : Inst) (s : State) : Host.Outcome State Fault Refusal :=
  finish s <| instanced s.build.nBQ k do
    let sel := argU s 0
    let val := argF s 1
    needIndex sel 5
    needFinite val
    return setBq s k (setCoef (bqAt s k) sel val)

/-- BQ_PROCESS (R176): compute, then shift the histories. With all coefficients +0.0 the output is a zero whose sign is
the equation's, not always +0.0 as R170 and R254 say (DEDUCED, log 14). -/
def execBqProcess (k : Inst) (s : State) : Host.Outcome State Fault Refusal :=
  finish s <| instanced s.build.nBQ k do
    let u := bqAt s k
    let x := argF s 0
    needFinite x
    let y := difference u x
    return setRes (setBq s k { u with x1 := x, x2 := u.x1, y1 := y, y2 := u.y1 }) 0 (canonical y)

/-- BQ_GET_COEF (R174). -/
def execBqGetCoef (k : Inst) (s : State) : Host.Outcome State Fault Refusal :=
  finish s <| instanced s.build.nBQ k do
    let sel := argU s 0
    needIndex sel 5
    return setRes s 0 (canonical (coefAt (bqAt s k) sel))

/-- BQ_GET_HIST (R177). -/
def execBqGetHist (k : Inst) (s : State) : Host.Outcome State Fault Refusal :=
  finish s <| instanced s.build.nBQ k do
    let u := bqAt s k
    return setRes (setRes (setRes (setRes s 0 (canonical u.x1)) 1 (canonical u.x2)) 2 (canonical u.y1)) 3
      (canonical u.y2)

end Sys2Proof.Machine
end

