-- ==== Sys2Proof/Machine/CoreUnit.lean ====
section
/-! DEFINITION. The CORE commands (40_command_core.md R110 to R113). -/

namespace Sys2Proof.Machine

/-- NOP (R110). -/
def execNop (s : State) : Host.Outcome State Fault Refusal :=
  finish s (.ok s)

/-- CLR_ERR (R111). -/
def execClrErr (s : State) : Host.Outcome State Fault Refusal :=
  finish s (.ok { s with status := statusClear s.status })

/-- SOFT_RESET (R112). -/
def execSoftReset (s : State) : Host.Outcome State Fault Refusal :=
  finish s (.ok (resetBlock s))

/-- The code of DAC12 in mode 0 (R113), `round(value * 4095)`. -/
def dacUnit (value : F32) : Nat := floorI (roundF (fmul value fK4095))

/-- The code of DAC12 in mode 1 (R113), `clamp(value*819, 0, 4095)` truncated; the product may be infinite. -/
def dacVolts (value : F32) : Nat :=
  let x := fmul value fK819
  truncI (if flt x fZERO then fZERO else if fgt x fK4095 then fK4095 else x)

/-- DAC12 (R113). -/
def execDac12 (s : State) : Host.Outcome State Fault Refusal :=
  finish s do
    let value := argF s 0
    let mode := argU s 1
    needOperand (mode == 0 || mode == 1)
    needFinite value
    needOperand (mode != 0 || (fge value fZERO && fle value fONE))
    return setRes s 0 (zext (if mode = 0 then dacUnit value else dacVolts value))

end Sys2Proof.Machine
end

