-- ==== Sys2Proof/Machine/Cr.lean ====
section
/-! DEFINITION. The CR unit: the complex rotation phasor oscillator (43_complex_rotation.md R150 to R159). -/

namespace Sys2Proof.Machine

/-- `CMul((ar, ai), (br, bi))` (R151): each product rounded, then the sum. -/
def complexMul (a b : F32 × F32) : F32 × F32 :=
  (fsub (fmul a.1 b.1) (fmul a.2 b.2), fadd (fmul a.1 b.2) (fmul a.2 b.1))

/-- `DPhi(hz, fs)` (R152). -/
def phaseDelta (hz fs : F32) : F32 := fdiv (fmul fTWO_PI hz) fs

/-- The magnitude CR_RENORM divides by (R157). -/
def phasorMagnitude (u : CrInst) : F32 := fsqrt (fadd (fmul u.vre u.vre) (fmul u.vim u.vim))

/-- CR_INIT (R150): the multiplier is the constant (1.0, +0.0), not computed. -/
def execCrInit (k : Inst) (s : State) : Host.Outcome State Fault Refusal :=
  finish s <| instanced s.build.nCR k do
    let fs := argF s 0
    needFs fs
    return setCr s k { crReset with fs := fs }

/-- CR_SET_FREQ (R153) of a block whose COS and SIN are those of `m`. -/
def crSetFreqWith (m : Trig) (k : Inst) (s : State) : Host.Outcome State Fault Refusal :=
  finish s <| instanced s.build.nCR k do
    let u := crAt s k
    let hz := argF s 0
    needFinite hz
    let d := phaseDelta hz u.fs
    needOperand (isFinite d)
    needOperand (isFinite (m.cos d) && isFinite (m.sin d))
    return setCr s k { u with freq := hz, mre := m.cos d, mim := m.sin d }

/-- CR_SET_FREQ (R153). -/
def execCrSetFreq (k : Inst) (s : State) : Host.Outcome State Fault Refusal :=
  crSetFreqWith Config.trig k s

/-- CR_SET_AMP (R154). -/
def execCrSetAmp (k : Inst) (s : State) : Host.Outcome State Fault Refusal :=
  finish s <| instanced s.build.nCR k do
    let g := argF s 0
    needFinite g
    return setCr s k { crAt s k with amp := g }

/-- CR_PROCESS (R155). -/
def execCrProcess (k : Inst) (s : State) : Host.Outcome State Fault Refusal :=
  finish s <| instanced s.build.nCR k do
    let u := crAt s k
    let n := complexMul (u.vre, u.vim) (u.mre, u.mim)
    let y := fmul u.amp n.2
    return setRes (setRes (setRes (setCr s k { u with vre := n.1, vim := n.2 }) 0 (canonical y)) 1 (canonical n.1)) 2
      (canonical n.2)

/-- CR_GET (R158). -/
def execCrGet (k : Inst) (s : State) : Host.Outcome State Fault Refusal :=
  finish s <| instanced s.build.nCR k do
    let u := crAt s k
    return setRes (setRes (setRes (setRes s 0 (canonical u.vre)) 1 (canonical u.vim)) 2 (canonical u.mre)) 3
      (canonical u.mim)

/-- CR_GET_CFG (R159). -/
def execCrGetCfg (k : Inst) (s : State) : Host.Outcome State Fault Refusal :=
  finish s <| instanced s.build.nCR k do
    let u := crAt s k
    return setRes (setRes (setRes s 0 (canonical u.fs)) 1 (canonical u.freq)) 2 (canonical u.amp)

/-- CR_RENORM (R157). -/
def execCrRenorm (k : Inst) (s : State) : Host.Outcome State Fault Refusal :=
  finish s <| instanced s.build.nCR k do
    let u := crAt s k
    let mag := phasorMagnitude u
    needConfig (isFinite mag && fgt mag fZERO)
    return setCr s k { u with vre := fdiv u.vre mag, vim := fdiv u.vim mag }

end Sys2Proof.Machine
end

