-- ==== Sys2Proof/Machine/Pa.lean ====
section
/-! DEFINITION. The phase-accumulator primitive and the PA commands (41_phase_accumulator.md R120 to R129). -/

namespace Sys2Proof.Machine

/-- `IncOf(r, hz, fs)` (R120). -/
def incOf (r hz fs : F32) : F32 := fdiv (fmul r hz) fs

/-- `AdmitFreq(r, hz, fs)` (R121): the increment, if the frequency is admitted. -/
def admitFreq (r hz fs : F32) : Except Code F32 := do
  needFinite hz
  needOperand (fge hz fZERO)
  needOperand (flt hz fs)
  let inc := incOf r hz fs
  needOperand (flt inc r)
  return inc

/-- `Step(phase, inc, r)` (R122): the new phase, and whether it wrapped. -/
def phaseStep (phase inc r : F32) : F32 × Bool :=
  let p := fadd phase inc
  if fge p r then (fsub p r, true) else (p, false)

/-- PA_INIT (R124). -/
def execPaInit (k : Inst) (s : State) : Host.Outcome State Fault Refusal :=
  finish s <| instanced s.build.nPA k do
    let fs := argF s 0
    needFs fs
    return setPa s k { paReset with fs := fs }

/-- PA_SET_RANGE (R125). -/
def execPaSetRange (k : Inst) (s : State) : Host.Outcome State Fault Refusal :=
  finish s <| instanced s.build.nPA k do
    let u := paAt s k
    let r := argF s 0
    needFinite r
    needOperand (fgt r fZERO)
    needOperand (fle r fRANGE_MAX)
    let inc := incOf r u.freq u.fs
    needOperand (flt inc r)
    return setPa s k { u with range := r, inc := inc, phase := fZERO }

/-- PA_SET_FREQ (R126). -/
def execPaSetFreq (k : Inst) (s : State) : Host.Outcome State Fault Refusal :=
  finish s <| instanced s.build.nPA k do
    let u := paAt s k
    let hz := argF s 0
    let inc ← admitFreq u.range hz u.fs
    return setPa s k { u with freq := hz, inc := inc }

/-- PA_PROCESS (R127). -/
def execPaProcess (k : Inst) (s : State) : Host.Outcome State Fault Refusal :=
  finish s <| instanced s.build.nPA k do
    let u := paAt s k
    let p := phaseStep u.phase u.inc u.range
    return setRes (setRes (setPa s k { u with phase := p.1 }) 0 (canonical p.1)) 1 (boolWord p.2)

/-- PA_GET (R128). -/
def execPaGet (k : Inst) (s : State) : Host.Outcome State Fault Refusal :=
  finish s <| instanced s.build.nPA k do
    let u := paAt s k
    return setRes (setRes (setRes (setRes s 0 (canonical u.phase)) 1 (canonical u.inc)) 2 (canonical u.freq)) 3
      (canonical u.range)

/-- PA_GET_CFG (R129). -/
def execPaGetCfg (k : Inst) (s : State) : Host.Outcome State Fault Refusal :=
  finish s <| instanced s.build.nPA k do
    return setRes s 0 (canonical (paAt s k).fs)

end Sys2Proof.Machine
end

