-- ==== Sys2Proof/Machine/Qz.lean ====
section
/-! DEFINITION. The QZ unit: the pitch quantizer (45_quantizer.md R190 to R200). The known defect of its transposition
(R199) is the literal rule, reproduced. -/

namespace Sys2Proof.Machine

/-- The least index from `i` on, within `fuel` entries, whose bound exceeds `frac` (R196). -/
def scanFrom (table : Memory QtEntry) (frac : F32) : Nat → Nat → Option Nat
  | 0, _ => none
  | fuel + 1, i =>
    if fgt (Memory.read qtDefault table i).bound frac then some i else scanFrom table frac fuel (i + 1)

/-- The least index below `n` whose bound exceeds `frac` (R196). -/
def scan (table : Memory QtEntry) (frac : F32) (n : Nat) : Option Nat := scanFrom table frac n 0

/-- The result of the scan, or the rejection NOMATCH (R196). -/
def needMatch : Option Nat → Except Code Nat
  | some j => .ok j
  | none => .error .noMatch

/-- The four results of a quantization (R196): v, the gates, jt and j. -/
structure Quantized where
  v : F32
  gates : Nat
  jt : Nat
  j : Nat
deriving DecidableEq, Repr

/-- A root gate (R196): the index is that of the first or the last entry in use. -/
def rootGate (i n : Nat) : Nat := if i = 0 ∨ i + 1 = n then 1 else 0

/-- The part of R196 after the scan: the rotation by `off`, the octave rule, the output and the gates. -/
def quantizeAt (table : Memory QtEntry) (n t oct j : Nat) : Quantized :=
  let off := t % (n - 1)
  let jt := (j + off) % n
  let octq := if j < off then oct + 1 else oct
  { v := fdiv (fadd (toF octq) (Memory.read qtDefault table jt).q) fFIVE
    gates := rootGate jt n * 2 + rootGate j n
    jt := jt
    j := j }

/-- QZ_INIT (R190). -/
def execQzInit (k : Inst) (s : State) : Host.Outcome State Fault Refusal :=
  finish s <| instanced s.build.nQZ k do
    return clearQt (setQz s k qzReset) k

/-- QZ_SET_LEN (R191). -/
def execQzSetLen (k : Inst) (s : State) : Host.Outcome State Fault Refusal :=
  finish s <| instanced s.build.nQZ k do
    let m := argU s 0
    needOperand (decide (2 ≤ m) && decide (m ≤ s.build.qzMax))
    return setQz s k { qzAt s k with n := zext m }

/-- QZ_TABLE_WRITE (R192). -/
def execQzTableWrite (k : Inst) (s : State) : Host.Outcome State Fault Refusal :=
  finish s <| instanced s.build.nQZ k do
    let i := argU s 0
    let bnd := argF s 1
    let qv := argF s 2
    needIndex i s.build.qzMax
    needFinite bnd
    needFinite qv
    return setQt s k i { bound := bnd, q := qv }

/-- QZ_TABLE_READ (R193). -/
def execQzTableRead (k : Inst) (s : State) : Host.Outcome State Fault Refusal :=
  finish s <| instanced s.build.nQZ k do
    let i := argU s 0
    needIndex i s.build.qzMax
    let e := qtAt s k i
    return setRes (setRes s 0 (canonical e.bound)) 1 (canonical e.q)

/-- QZ_SET_TRANSPOSE (R194). -/
def execQzSetTranspose (k : Inst) (s : State) : Host.Outcome State Fault Refusal :=
  finish s <| instanced s.build.nQZ k do
    return setQz s k { qzAt s k with transpose := argWord s 0 }

/-- QZ_INC_TRANSPOSE (R195): the sum wraps modulo 2^32. -/
def execQzIncTranspose (k : Inst) (s : State) : Host.Outcome State Fault Refusal :=
  finish s <| instanced s.build.nQZ k do
    return setQz s k { qzAt s k with transpose := (qzAt s k).transpose + 1 }

/-- QZ_QUANTIZE (R196). -/
def execQzQuantize (k : Inst) (s : State) : Host.Outcome State Fault Refusal :=
  finish s <| instanced s.build.nQZ k do
    let u := qzAt s k
    let table := bankGet s.qt k
    let n := u.n.toNat
    let cv := argF s 0
    needConfig (decide (2 ≤ n))
    needFinite cv
    needOperand (fge cv fZERO && fle cv fONE)
    let vin := fmul cv fFIVE
    let oct := floorI vin
    let frac := fsub vin (toF oct)
    let j ← needMatch (scan table frac n)
    let r := quantizeAt table n u.transpose.toNat oct j
    return setRes (setRes (setRes (setRes s 0 (canonical r.v)) 1 (zext r.gates)) 2 (zext r.jt)) 3 (zext r.j)

/-- QZ_CHROMATIC (R197). -/
def execQzChromatic (k : Inst) (s : State) : Host.Outcome State Fault Refusal :=
  finish s <| instanced s.build.nQZ k do
    let cv := argF s 0
    needFinite cv
    needOperand (fge cv fZERO && fle cv fONE)
    return setRes s 0 (canonical (fdiv (roundF (fmul cv fSIXTY)) fSIXTY))

/-- QZ_GET (R198). -/
def execQzGet (k : Inst) (s : State) : Host.Outcome State Fault Refusal :=
  finish s <| instanced s.build.nQZ k do
    let u := qzAt s k
    return setRes (setRes s 0 u.n) 1 u.transpose

end Sys2Proof.Machine
end

