-- ==== Sys2Proof/Machine/Tt.lean ====
section
/-! DEFINITION. The TT unit: the sample-counting trigger timer (46_trigger_timer.md R210 to R220). -/

namespace Sys2Proof.Machine

/-- `ToInterval(x)` (R211). -/
def toInterval (x : F32) : Except Code Nat := do
  needOperand (isFinite x)
  needOperand (fge x fONE)
  needOperand (flt x fTWO32)
  return truncI x

/-- `Track(ramp, target, step)` (R217). -/
def track (ramp target step : F32) : F32 :=
  if flt ramp target then fmin (fadd ramp step) target
  else if fgt ramp target then fmax (fsub ramp step) target
  else ramp

/-- The sample counter after one sample, and whether the timer fires (R216): the advanced count is a mathematical
integer, which "reaches" the interval (90_conflicts.md C2). -/
def advance (u : TtInst) : Nat × Bool :=
  let c := u.counter.toNat + 1
  if u.interval.toNat ≤ c then (0, true) else (c, false)

/-- The instance after one sample in mode 0 (R216): the ramp is kept. -/
def basicSample (u : TtInst) : TtInst :=
  let a := advance u
  { u with counter := zext a.1, state := if a.2 then .triggered else .idle }

/-- The state of the ramped variant after one sample (R216). -/
def rampedState (u : TtInst) : TtState :=
  let a := advance u
  if a.2 then .triggered
  else if u.state = .triggered ∧ u.duration.toNat ≤ a.1 then .idle
  else u.state

/-- The instance after one sample in mode 1 (R216). -/
def rampedSample (u : TtInst) : TtInst :=
  let st := rampedState u
  { u with
    counter := zext (advance u).1
    state := st
    ramp := track u.ramp (if st = .triggered then fONE else fZERO) u.step }

/-- TT_INIT (R210). -/
def execTtInit (k : Inst) (s : State) : Host.Outcome State Fault Refusal :=
  finish s <| instanced s.build.nTT k do
    let fs := argF s 0
    needFs fs
    return setTt s k { ttReset with fs := fs }

/-- TT_SET_PERIOD (R212). -/
def execTtSetPeriod (k : Inst) (s : State) : Host.Outcome State Fault Refusal :=
  finish s <| instanced s.build.nTT k do
    let u := ttAt s k
    let sec := argF s 0
    needFinite sec
    needOperand (fgt sec fZERO)
    let n ← toInterval (fmul u.fs sec)
    return setTt s k { u with interval := zext n }

/-- TT_SET_BPM (R213). -/
def execTtSetBpm (k : Inst) (s : State) : Host.Outcome State Fault Refusal :=
  finish s <| instanced s.build.nTT k do
    let u := ttAt s k
    let bpm := argF s 0
    needFinite bpm
    needOperand (fgt bpm fZERO)
    let n ← toInterval (fdiv (fmul u.fs fSIXTY) bpm)
    return setTt s k { u with interval := zext n }

/-- TT_SET_DURATION (R214). -/
def execTtSetDuration (k : Inst) (s : State) : Host.Outcome State Fault Refusal :=
  finish s <| instanced s.build.nTT k do
    let d := argU s 0
    needOperand (decide (1 ≤ d))
    return setTt s k { ttAt s k with duration := zext d, step := fdiv fTWO (toF d) }

/-- TT_SET_MODE (R215). -/
def execTtSetMode (k : Inst) (s : State) : Host.Outcome State Fault Refusal :=
  finish s <| instanced s.build.nTT k do
    let m := argU s 0
    needOperand (decide (m ≤ 1))
    return setTt s k { ttAt s k with mode := if m = 0 then .basic else .ramped, state := .idle, ramp := fZERO }

/-- TT_PROCESS (R216). -/
def execTtProcess (k : Inst) (s : State) : Host.Outcome State Fault Refusal :=
  finish s <| instanced s.build.nTT k do
    let u := ttAt s k
    needConfig (decide (1 ≤ u.interval.toNat))
    needConfig (decide (u.mode = .basic) || decide (1 ≤ u.duration.toNat))
    match u.mode with
    | .basic =>
      let t := basicSample u
      return setRes (setRes (setTt s k t) 0 (if (advance u).2 then fONE else fZERO)) 1 (boolWord (advance u).2)
    | .ramped =>
      let t := rampedSample u
      return setRes (setRes (setTt s k t) 0 (canonical t.ramp)) 1 (stateWord t.state)

/-- TT_GET_STATE (R218). -/
def execTtGetState (k : Inst) (s : State) : Host.Outcome State Fault Refusal :=
  finish s <| instanced s.build.nTT k do
    let u := ttAt s k
    return setRes (setRes (setRes (setRes s 0 u.counter) 1 (stateWord u.state)) 2 (canonical u.ramp)) 3
      (canonical u.step)

/-- TT_GET_CFG (R219). -/
def execTtGetCfg (k : Inst) (s : State) : Host.Outcome State Fault Refusal :=
  finish s <| instanced s.build.nTT k do
    let u := ttAt s k
    return setRes (setRes (setRes (setRes s 0 (canonical u.fs)) 1 u.interval) 2 u.duration) 3 (modeWord u.mode)

end Sys2Proof.Machine
end

