-- ==== Sys2Proof/Machine/Wt.lean ====
section
/-! DEFINITION. The WT unit: the wavetable oscillator with its two interpolations (42_wavetable_oscillator.md R130 to
R142). -/

namespace Sys2Proof.Machine

/-- LEN_F, the phase range of every WT instance (R41). -/
def lenF (b : Build) : F32 := toF b.wtLen

/-- `Split(ph)` (R134): the index of the lower bracketing entry, and the fraction. -/
def splitPhase (ph : F32) : Nat × F32 := (floorI ph, fsub ph (toF (floorI ph)))

/-- `Lin(i, t)` (R136). -/
def linear (s : State) (i : Nat) (t : F32) : F32 :=
  let p1 := wtabAt s i
  let p2 := wtabAt s ((i + 1) % s.build.wtLen)
  fadd p1 (fmul t (fsub p2 p1))

/-- The polynomial of `Cubic(i, t)` (R137) in its four samples. -/
def hermite (p0 p1 p2 p3 t : F32) : F32 :=
  let slope0 := fdiv (fsub p2 p0) fTWO
  let slope1 := fdiv (fsub p3 p1) fTWO
  let v := fsub p1 p2
  let w := fadd slope0 v
  let a := fadd (fadd w v) slope1
  fadd (fmul (fadd (fmul (fsub (fmul a t) (fadd w a)) t) slope0) t) p1

/-- `Cubic(i, t)` (R137); index i - 1 modulo WT_LEN is written i + WT_LEN - 1, so that i = 0 gives WT_LEN - 1. -/
def cubic (s : State) (i : Nat) (t : F32) : F32 :=
  hermite (wtabAt s ((i + s.build.wtLen - 1) % s.build.wtLen)) (wtabAt s i) (wtabAt s ((i + 1) % s.build.wtLen))
    (wtabAt s ((i + 2) % s.build.wtLen)) t

/-- The interpolated value at a phase, by the instance's mode (R135). -/
def interpolate (s : State) (mode : Interp) (ph : F32) : F32 :=
  let it := splitPhase ph
  match mode with
  | .linear => linear s it.1 it.2
  | .cubic => cubic s it.1 it.2

/-- WT_INIT (R130). -/
def execWtInit (k : Inst) (s : State) : Host.Outcome State Fault Refusal :=
  finish s <| instanced s.build.nWT k do
    let fs := argF s 0
    needFs fs
    return setWt s k { wtReset with fs := fs }

/-- WT_SET_FREQ (R131). -/
def execWtSetFreq (k : Inst) (s : State) : Host.Outcome State Fault Refusal :=
  finish s <| instanced s.build.nWT k do
    let u := wtAt s k
    let hz := argF s 0
    let inc ← admitFreq (lenF s.build) hz u.fs
    return setWt s k { u with freq := hz, inc := inc }

/-- WT_SET_AMP (R132). -/
def execWtSetAmp (k : Inst) (s : State) : Host.Outcome State Fault Refusal :=
  finish s <| instanced s.build.nWT k do
    let g := argF s 0
    needFinite g
    return setWt s k { wtAt s k with amp := g }

/-- WT_SET_INTERP (R133). -/
def execWtSetInterp (k : Inst) (s : State) : Host.Outcome State Fault Refusal :=
  finish s <| instanced s.build.nWT k do
    let m := argU s 0
    needOperand (m == 0 || m == 1)
    return setWt s k { wtAt s k with interp := if m = 0 then .linear else .cubic }

/-- WT_PROCESS (R135): advance, wrap once, interpolate at the new phase, scale. -/
def execWtProcess (k : Inst) (s : State) : Host.Outcome State Fault Refusal :=
  finish s <| instanced s.build.nWT k do
    let u := wtAt s k
    let p := phaseStep u.phase u.inc (lenF s.build)
    let y := fmul u.amp (interpolate s u.interp p.1)
    return setRes (setRes (setWt s k { u with phase := p.1 }) 0 (canonical y)) 1 (boolWord p.2)

/-- WT_TABLE_WRITE (R138). -/
def execWtTableWrite (s : State) : Host.Outcome State Fault Refusal :=
  finish s do
    let idx := argU s 0
    let val := argF s 1
    needIndex idx s.build.wtLen
    needFinite val
    return setWtab s idx val

/-- WT_TABLE_READ (R139). -/
def execWtTableRead (s : State) : Host.Outcome State Fault Refusal :=
  finish s do
    let idx := argU s 0
    needIndex idx s.build.wtLen
    return setRes s 0 (canonical (wtabAt s idx))

/-- WT_GET (R140). -/
def execWtGet (k : Inst) (s : State) : Host.Outcome State Fault Refusal :=
  finish s <| instanced s.build.nWT k do
    let u := wtAt s k
    return setRes (setRes (setRes (setRes s 0 (canonical u.phase)) 1 (canonical u.inc)) 2 (canonical u.freq)) 3
      (canonical u.amp)

/-- WT_GET_CFG (R141). -/
def execWtGetCfg (k : Inst) (s : State) : Host.Outcome State Fault Refusal :=
  finish s <| instanced s.build.nWT k do
    let u := wtAt s k
    return setRes (setRes s 0 (canonical u.fs)) 1 (interpWord u.interp)

end Sys2Proof.Machine
end

