-- ==== Sys2Proof/Machine/Dispatch.lean ====
section
/-! DEFINITION. One arm per command: the call of its meaning. -/

namespace Sys2Proof.Machine

-- The execution of one decoded command (40_command_core.md R100), accepted or rejected.
def exec (i : Instr) (s : State) : Host.Outcome State Fault Refusal :=
  match i with
  | .paInit k => Sys2Proof.Machine.execPaInit k s
  | .paSetRange k => Sys2Proof.Machine.execPaSetRange k s
  | .paSetFreq k => Sys2Proof.Machine.execPaSetFreq k s
  | .paProcess k => Sys2Proof.Machine.execPaProcess k s
  | .paGet k => Sys2Proof.Machine.execPaGet k s
  | .paGetCfg k => Sys2Proof.Machine.execPaGetCfg k s
  | .wtInit k => Sys2Proof.Machine.execWtInit k s
  | .wtSetFreq k => Sys2Proof.Machine.execWtSetFreq k s
  | .wtSetAmp k => Sys2Proof.Machine.execWtSetAmp k s
  | .wtSetInterp k => Sys2Proof.Machine.execWtSetInterp k s
  | .wtProcess k => Sys2Proof.Machine.execWtProcess k s
  | .wtTableWrite => Sys2Proof.Machine.execWtTableWrite s
  | .wtTableRead => Sys2Proof.Machine.execWtTableRead s
  | .wtGet k => Sys2Proof.Machine.execWtGet k s
  | .wtGetCfg k => Sys2Proof.Machine.execWtGetCfg k s
  | .crInit k => Sys2Proof.Machine.execCrInit k s
  | .crSetFreq k => Sys2Proof.Machine.execCrSetFreq k s
  | .crSetAmp k => Sys2Proof.Machine.execCrSetAmp k s
  | .crProcess k => Sys2Proof.Machine.execCrProcess k s
  | .crGet k => Sys2Proof.Machine.execCrGet k s
  | .crGetCfg k => Sys2Proof.Machine.execCrGetCfg k s
  | .crRenorm k => Sys2Proof.Machine.execCrRenorm k s
  | .bqInit k => Sys2Proof.Machine.execBqInit k s
  | .bqCalc k => Sys2Proof.Machine.execBqCalc k s
  | .bqSetCoef k => Sys2Proof.Machine.execBqSetCoef k s
  | .bqProcess k => Sys2Proof.Machine.execBqProcess k s
  | .bqGetCoef k => Sys2Proof.Machine.execBqGetCoef k s
  | .bqGetHist k => Sys2Proof.Machine.execBqGetHist k s
  | .qzInit k => Sys2Proof.Machine.execQzInit k s
  | .qzSetLen k => Sys2Proof.Machine.execQzSetLen k s
  | .qzTableWrite k => Sys2Proof.Machine.execQzTableWrite k s
  | .qzTableRead k => Sys2Proof.Machine.execQzTableRead k s
  | .qzSetTranspose k => Sys2Proof.Machine.execQzSetTranspose k s
  | .qzIncTranspose k => Sys2Proof.Machine.execQzIncTranspose k s
  | .qzQuantize k => Sys2Proof.Machine.execQzQuantize k s
  | .qzChromatic k => Sys2Proof.Machine.execQzChromatic k s
  | .qzGet k => Sys2Proof.Machine.execQzGet k s
  | .ttInit k => Sys2Proof.Machine.execTtInit k s
  | .ttSetPeriod k => Sys2Proof.Machine.execTtSetPeriod k s
  | .ttSetBpm k => Sys2Proof.Machine.execTtSetBpm k s
  | .ttSetDuration k => Sys2Proof.Machine.execTtSetDuration k s
  | .ttSetMode k => Sys2Proof.Machine.execTtSetMode k s
  | .ttProcess k => Sys2Proof.Machine.execTtProcess k s
  | .ttGetState k => Sys2Proof.Machine.execTtGetState k s
  | .ttGetCfg k => Sys2Proof.Machine.execTtGetCfg k s
  | .nop => Sys2Proof.Machine.execNop s
  | .clrErr => Sys2Proof.Machine.execClrErr s
  | .softReset => Sys2Proof.Machine.execSoftReset s
  | .dac12 => Sys2Proof.Machine.execDac12 s

end Sys2Proof.Machine
end

