-- ==== Sys2Proof/Machine/Bus.lean ====
section
/-! DEFINITION. The block's one port (20_memory.md R60 to R67): the register window, what a read of each offset
returns, what a write of each does (a write of CMD executes a command), and how the next event at the port is
performed. -/

namespace Sys2Proof.Machine

/-- The registers of the window (R61). -/
inductive WindowReg where
  | id
  | cfg
  | wtlen
  | qzmax
  | status
  | cmd
  | reserved18
  | reserved1C
  | arg (n : Fin 4)
  | res (n : Fin 4)
deriving DecidableEq, Repr

/-- The offset of a register from BASE (R61). -/
def regOffset : WindowReg → Nat
  | .id => 0x00
  | .cfg => 0x04
  | .wtlen => 0x08
  | .qzmax => 0x0C
  | .status => 0x10
  | .cmd => 0x14
  | .reserved18 => 0x18
  | .reserved1C => 0x1C
  | .arg n => 0x20 + 4 * n.val
  | .res n => 0x30 + 4 * n.val

/-- The register at an offset (R61); the 16 aligned offsets of the window have one each. -/
def regAt (offset : Nat) : Option WindowReg :=
  match offset with
  | 0x00 => some .id
  | 0x04 => some .cfg
  | 0x08 => some .wtlen
  | 0x0C => some .qzmax
  | 0x10 => some .status
  | 0x14 => some .cmd
  | 0x18 => some .reserved18
  | 0x1C => some .reserved1C
  | 0x20 => some (.arg 0)
  | 0x24 => some (.arg 1)
  | 0x28 => some (.arg 2)
  | 0x2C => some (.arg 3)
  | 0x30 => some (.res 0)
  | 0x34 => some (.res 1)
  | 0x38 => some (.res 2)
  | 0x3C => some (.res 3)
  | _ => none

/-- The bus byte address of a register (R61). -/
def regAddress (b : Build) (r : WindowReg) : Nat := b.base + regOffset r

/-- The word read at ID (R31). -/
def idWord : Word := 0x50410007#32

/-- The word read at CFG (R32): N_u - 1 in 4-bit fields, bits [31:24] zero. -/
def cfgWord (b : Build) : Word :=
  BitVec.ofNat 32
    ((b.nPA - 1) + (b.nWT - 1) * 2 ^ 4 + (b.nCR - 1) * 2 ^ 8 + (b.nBQ - 1) * 2 ^ 12 + (b.nQZ - 1) * 2 ^ 16
      + (b.nTT - 1) * 2 ^ 20)

/-- What a read of a register returns (R31 to R36, R63). -/
def readReg (s : State) : WindowReg → Word
  | .id => idWord
  | .cfg => cfgWord s.build
  | .wtlen => BitVec.ofNat 32 s.build.wtLen
  | .qzmax => BitVec.ofNat 32 s.build.qzMax
  | .status => statusWord s.status
  | .cmd => 0
  | .reserved18 => 0
  | .reserved1C => 0
  | .arg n => argWord s n
  | .res n => resWord s n

/-- `execute(w)` (R100): decode, then the command; a word that is no command is rejected with ILLEGAL (R88). -/
def executeWord (w : Word) (s : State) : Host.Outcome State Fault Refusal :=
  match decode w with
  | .ok i => exec i s
  | .error _ => .next (reject .illegal s)

/-- What a write of a word to a register does (R34, R35, R63): only ARG0..3 hold what is written, CMD executes it, and
every other write is ignored. -/
def writeReg (s : State) (w : Word) : WindowReg → Host.Outcome State Fault Refusal
  | .id => .next s
  | .cfg => .next s
  | .wtlen => .next s
  | .qzmax => .next s
  | .status => .next s
  | .cmd => executeWord w s
  | .reserved18 => .next s
  | .reserved1C => .next s
  | .arg n => .next (setArg s n w)
  | .res _ => .next s

/-- The register an access reaches, if the block admits it (R60, R62): the block decodes no address outside its
window, and inside it admits only 4-byte accesses at multiples of 4. -/
def admitAccess (b : Build) (addr size : Nat) : Except Fault WindowReg :=
  if addr < b.base ∨ b.base + 64 ≤ addr then .error (.outsideWindow addr)
  else if size ≠ 4 ∨ addr % 4 ≠ 0 then .error (.busError addr size)
  else
    match regAt (addr - b.base) with
    | some r => .ok r
    | none => .error (.busError addr size)

/-- `BusRead(addr, n)` (R9): the data returned stands in `readData`; nothing else changes (R67). -/
def busRead (addr size : Nat) (s : State) : Host.Outcome State Fault Refusal :=
  match admitAccess s.build addr size with
  | .ok r => .next { s with readData := some (readReg s r) }
  | .error f => .fault f

/-- `BusWrite(addr, n, w)` (R9). -/
def busWrite (addr size : Nat) (w : Word) (s : State) : Host.Outcome State Fault Refusal :=
  match admitAccess s.build addr size with
  | .ok r => writeReg s w r
  | .error f => .fault f

/-- The next event at the port is taken off the list and performed, whole, before any other (R65, R66). With nothing
pending the block does nothing (R6, R252). The reset input resets all state of the block (R251). -/
def portStep (s : State) : Host.Outcome State Fault Refusal :=
  match s.pending with
  | [] => .next s
  | .read addr size :: rest => busRead addr size { s with pending := rest, readData := none }
  | .write addr size w :: rest => busWrite addr size w { s with pending := rest, readData := none }
  | .reset :: rest => .next (resetBlock { s with pending := rest, readData := none })

/-! ## The host's assembly notation (30_encoding.md R89, R90) -/

/-- An operand of a command line (R89): a word literal, an integer literal of a U operand, or the decimal literal
`±num/den` of an F operand. -/
inductive AsmOperand where
  | word (w : Word)
  | integer (n : Nat)
  | decimal (negative : Bool) (num den : Nat)
deriving DecidableEq, Repr

/-- The ARG word an operand stands for (R89). -/
def operandWord : AsmOperand → Word
  | .word w => w
  | .integer n => BitVec.ofNat 32 n
  | .decimal negative num den => literalF negative num den

/-- A line of the notation (R89): `sw`, `lw`, or a command with up to three operands in ARG order. -/
inductive AsmLine where
  | sw (r : WindowReg) (w : Word)
  | lw (r : WindowReg)
  | command (i : Instr) (operands : List AsmOperand)
deriving DecidableEq, Repr

/-- A 32-bit host write of a register. -/
def swEvent (b : Build) (r : WindowReg) (w : Word) : PortEvent := .write (regAddress b r) 4 w

/-- The `sw ARG<n>` lines of a command's operands, n = 0, 1, 2 in order (R90). -/
def operandEvents (b : Build) : List (Fin 4) → List AsmOperand → List PortEvent
  | n :: ns, o :: os => swEvent b (.arg n) (operandWord o) :: operandEvents b ns os
  | _, _ => []

/-- The host accesses a line expands to (R89, R90). -/
def expandLine (b : Build) : AsmLine → List PortEvent
  | .sw r w => [swEvent b r w]
  | .lw r => [.read (regAddress b r) 4]
  | .command i operands => operandEvents b [0, 1, 2] operands ++ [swEvent b .cmd (encode i)]

end Sys2Proof.Machine
end

