-- ==== Sys2Proof/Machine/Step.lean ====
section
/-! DEFINITION. One step of the block: the next event at its port, performed whole (20_memory.md R65, R246). The block
fetches no instructions (R75): a command comes to run by a host's write of its word to CMD. -/

namespace Sys2Proof.Machine

/-- One step: the next pending port event. -/
def step (s : State) : Host.Outcome State Fault Refusal := portStep s

/-- The state in which the next step writes the word with the low `nbits` bits of `w` to CMD: that write is put before
everything pending. This stands for the host that issues the command (log 1). -/
def State.withFetchWord (s : State) (nbits w : Nat) : State :=
  { s with pending := swEvent s.build .cmd (tableWord nbits w) :: s.pending }

end Sys2Proof.Machine
end

