-- ==== Sys2Proof/WellFormed.lean ====
section
/-! DEFINITION. What is well formed: a build (the legal values of 00_scope.md R5) and, for a build, a command (an
instanced command names an instance the build has, 30_encoding.md R82). A command that is not well formed is still
decoded and executed: it is rejected with code INST (R83). -/

namespace Sys2Proof

/-- The number of instances of a unit (R5); the CORE unit has none to select. -/
def Build.count (b : Build) : UnitKind → Nat
  | .pa => b.nPA
  | .wt => b.nWT
  | .cr => b.nCR
  | .bq => b.nBQ
  | .qz => b.nQZ
  | .tt => b.nTT
  | .core => 0

/-- `n` is a legal number of instances (R5: 1..16). -/
def legalCount (n : Nat) : Bool :=
  decide (1 ≤ n) && decide (n ≤ 16)

/-- The legal values of R5. -/
def Build.legal (b : Build) : Bool :=
  legalCount b.nPA && legalCount b.nWT && legalCount b.nCR && legalCount b.nBQ && legalCount b.nQZ && legalCount b.nTT
    && (decide (4 ≤ b.wtLen) && decide (b.wtLen ≤ 65536)) && (decide (2 ≤ b.qzMax) && decide (b.qzMax ≤ 256))
    && decide (b.base % 64 = 0)

/-- An instanced command names an instance the build has (R82). -/
def Instr.wellFormed (b : Build) (i : Instr) : Bool :=
  match i.address.2 with
  | some k => decide (k.toNat < b.count i.address.1)
  | none => true

end Sys2Proof
end

