-- ==== Sys2Proof/Safety.lean ====
section
/-! DEFINITION. The terms claims are made in: the invariants the spec states of every reachable state (10_state.md R33,
R40 to R45), what each command may touch (R36, R46) and which codes it may raise (60_exceptions.md R232), and running
one command several times (one PROCESS command is one sample, R259). A run is safe while the invariants hold; the
block itself has no bad state it stops in (R230). -/

namespace Sys2Proof.Machine

/-! ## Invariants -/

/-- `0 <= x` and `x < bound`, of floats. -/
def inHalfOpen (x bound : F32) : Prop := fge x fZERO = true ∧ flt x bound = true

/-- A sample rate: finite and above 0 (R40 to R42, R45). -/
def rateOk (fs : F32) : Prop := isFinite fs = true ∧ fgt fs fZERO = true

/-- The invariants of STATUS (R33): ERR = 0 implies FIRST_CODE = 0, and LAST_REJ = 0 iff LAST_CODE = 0. -/
def statusInv (st : Status) : Prop :=
  (st.err = false → st.firstCode = 0) ∧ (st.lastRej = false ↔ st.lastCode = 0)

/-- The invariants of a PA instance (R40). -/
def paInv (u : PaInst) : Prop :=
  rateOk u.fs
    ∧ (isFinite u.range = true ∧ fgt u.range fZERO = true ∧ fle u.range fRANGE_MAX = true)
    ∧ (isFinite u.freq = true ∧ inHalfOpen u.freq u.fs)
    ∧ (u.inc = fdiv (fmul u.range u.freq) u.fs ∧ inHalfOpen u.inc u.range)
    ∧ inHalfOpen u.phase u.range

/-- The invariants of a WT instance (R41) of a build. -/
def wtInv (b : Build) (u : WtInst) : Prop :=
  rateOk u.fs
    ∧ (isFinite u.freq = true ∧ inHalfOpen u.freq u.fs)
    ∧ (u.inc = fdiv (fmul (lenF b) u.freq) u.fs ∧ inHalfOpen u.inc (lenF b))
    ∧ inHalfOpen u.phase (lenF b)
    ∧ isFinite u.amp = true

/-- A stored value that is a NaN is the canonical one (R13). -/
def nanIsCanonical (v : F32) : Prop := isNaN v = true → v = canonicalNaN

/-- The invariants of a CR instance (R42): there is none on the magnitude of multiplier or value, but the multiplier is
finite whenever written (R153) and the value holds no NaN but the canonical one (R13). -/
def crInv (u : CrInst) : Prop :=
  rateOk u.fs ∧ isFinite u.freq = true ∧ isFinite u.amp = true ∧ (isFinite u.mre = true ∧ isFinite u.mim = true)
    ∧ nanIsCanonical u.vre ∧ nanIsCanonical u.vim

/-- The invariants of a BQ instance (R43): the coefficients are finite, the inputs too (R176 checks them), and the
outputs may be anything but a NaN other than the canonical one (R13, R176). -/
def bqInv (u : BqInst) : Prop :=
  (isFinite u.b0 = true ∧ isFinite u.b1 = true ∧ isFinite u.b2 = true ∧ isFinite u.a1 = true ∧ isFinite u.a2 = true)
    ∧ (isFinite u.x1 = true ∧ isFinite u.x2 = true) ∧ nanIsCanonical u.y1 ∧ nanIsCanonical u.y2

/-- The invariant of a QZ instance (R44): not configured, or 2 <= n <= QZ_MAX. -/
def qzInv (b : Build) (u : QzInst) : Prop := u.n = 0 ∨ (2 ≤ u.n.toNat ∧ u.n.toNat ≤ b.qzMax)

/-- The invariants of a TT instance (R45). -/
def ttInv (u : TtInst) : Prop :=
  rateOk u.fs
    ∧ u.step = (if u.duration = 0 then fZERO else fdiv fTWO (toF u.duration.toNat))
    ∧ u.counter.toNat ≤ 2 ^ 32 - 2
    ∧ (fge u.ramp fZERO = true ∧ fle u.ramp fONE = true)

/-- The tables are in canonical form, with no entry beyond WT_LEN or QZ_MAX (R68, R69). -/
def tablesInv (s : State) : Prop :=
  (Memory.wf wtabDefault s.wtab = true ∧ Memory.below s.build.wtLen s.wtab = true)
    ∧ ∀ k : Inst, Memory.wf qtDefault (bankGet s.qt k) = true ∧ Memory.below s.build.qzMax (bankGet s.qt k) = true

/-- The invariants of the oscillators, PA and WT. -/
def oscillatorInv (s : State) : Prop := (∀ k, paInv (paAt s k)) ∧ ∀ k, wtInv s.build (wtAt s k)

/-- The invariants of the CR, BQ and QZ instances. -/
def settingsInv (s : State) : Prop :=
  (∀ k, crInv (crAt s k)) ∧ (∀ k, bqInv (bqAt s k)) ∧ ∀ k, qzInv s.build (qzAt s k)

/-- The invariants of the timers. -/
def timerInv (s : State) : Prop := ∀ k, ttInv (ttAt s k)

/-- The invariants of every reachable state, together. -/
def State.Inv (s : State) : Prop :=
  s.build.legal = true ∧ statusInv s.status ∧ tablesInv s ∧ oscillatorInv s ∧ settingsInv s ∧ timerInv s

/-! ## Correct rounding -/

/-- The first magnitude that rounds to an infinity, in units of 2^-149: the largest finite value, (2^24 - 1) * 2^253
units, and half a unit in its last place (R12, log 11). -/
def overflowUnits : Int := (2 ^ 25 - 1) * 2 ^ 252

/-- `r` is the exact value `num / den` units (`den` not 0) rounded to binary32, to nearest, ties to even (R12): below
the overflow bound `r` is finite, no finite value is nearer the exact one, and `r`'s encoding is even if another value
is as near; from the bound on `r` is the infinity of the exact value's sign. Distances are multiplied by `den`. -/
def roundsTo (r : F32) (num den : Int) : Prop :=
  (|num| < overflowUnits * |den| →
    isFinite r = true
      ∧ ∀ v : F32, isFinite v = true →
          |valueOf r * den - num| ≤ |valueOf v * den - num|
            ∧ (|valueOf r * den - num| = |valueOf v * den - num| → valueOf v ≠ valueOf r → r.toNat % 2 = 0))
  ∧ (overflowUnits * |den| ≤ |num| → isInf r = true ∧ (signOf r = true ↔ num * den < 0))

/-! ## What a command may touch and raise -/

/-- The codes a command can raise once decoded (R232). ILLEGAL is raised by decoding alone. -/
def raisable : Instr → List Code
  | .paInit _ => [.inst, .operand]
  | .paSetRange _ => [.inst, .operand]
  | .paSetFreq _ => [.inst, .operand]
  | .paProcess _ => [.inst]
  | .paGet _ => [.inst]
  | .paGetCfg _ => [.inst]
  | .wtInit _ => [.inst, .operand]
  | .wtSetFreq _ => [.inst, .operand]
  | .wtSetAmp _ => [.inst, .operand]
  | .wtSetInterp _ => [.inst, .operand]
  | .wtProcess _ => [.inst]
  | .wtTableWrite => [.index, .operand]
  | .wtTableRead => [.index]
  | .wtGet _ => [.inst]
  | .wtGetCfg _ => [.inst]
  | .crInit _ => [.inst, .operand]
  | .crSetFreq _ => [.inst, .operand]
  | .crSetAmp _ => [.inst, .operand]
  | .crProcess _ => [.inst]
  | .crGet _ => [.inst]
  | .crGetCfg _ => [.inst]
  | .crRenorm _ => [.inst, .config]
  | .bqInit _ => [.inst]
  | .bqCalc _ => [.inst, .operand]
  | .bqSetCoef _ => [.inst, .index, .operand]
  | .bqProcess _ => [.inst, .operand]
  | .bqGetCoef _ => [.inst, .index]
  | .bqGetHist _ => [.inst]
  | .qzInit _ => [.inst]
  | .qzSetLen _ => [.inst, .operand]
  | .qzTableWrite _ => [.inst, .index, .operand]
  | .qzTableRead _ => [.inst, .index]
  | .qzSetTranspose _ => [.inst]
  | .qzIncTranspose _ => [.inst]
  | .qzQuantize _ => [.inst, .config, .operand, .noMatch]
  | .qzChromatic _ => [.inst, .operand]
  | .qzGet _ => [.inst]
  | .ttInit _ => [.inst, .operand]
  | .ttSetPeriod _ => [.inst, .operand]
  | .ttSetBpm _ => [.inst, .operand]
  | .ttSetDuration _ => [.inst, .operand]
  | .ttSetMode _ => [.inst, .operand]
  | .ttProcess _ => [.inst, .config]
  | .ttGetState _ => [.inst]
  | .ttGetCfg _ => [.inst]
  | .nop => []
  | .clrErr => []
  | .softReset => []
  | .dac12 => [.operand]

/-- The illegal words, field by field (R88): a reserved bit set, a UNIT of 6..14, an OPC the UNIT has no row for, or
an INST other than 0 in a block-wide row. -/
def illegalWord (w : Word) : Prop :=
  let unit := (w.extractLsb' 8 4).toNat
  let opc := (w.extractLsb' 0 8).toNat
  (w.extractLsb' 16 16).toNat ≠ 0
    ∨ (6 ≤ unit ∧ unit ≤ 14)
    ∨ (unit = 0 ∧ 0x06 ≤ opc) ∨ (unit = 1 ∧ 0x09 ≤ opc) ∨ (unit = 2 ∧ 0x07 ≤ opc) ∨ (unit = 3 ∧ 0x06 ≤ opc)
    ∨ (unit = 4 ∧ 0x09 ≤ opc) ∨ (unit = 5 ∧ 0x08 ≤ opc) ∨ (unit = 15 ∧ 0x04 ≤ opc)
    ∨ ((w.extractLsb' 12 4).toNat ≠ 0 ∧ ((unit = 1 ∧ (opc = 0x07 ∨ opc = 0x08)) ∨ unit = 15))

/-- How many RES registers, from RES0 on, a command's rule names (R87, column "results"; R112 for SOFT_RESET). -/
def resultCount : Instr → Nat
  | .paInit _ => 0
  | .paSetRange _ => 0
  | .paSetFreq _ => 0
  | .paProcess _ => 2
  | .paGet _ => 4
  | .paGetCfg _ => 1
  | .wtInit _ => 0
  | .wtSetFreq _ => 0
  | .wtSetAmp _ => 0
  | .wtSetInterp _ => 0
  | .wtProcess _ => 2
  | .wtTableWrite => 0
  | .wtTableRead => 1
  | .wtGet _ => 4
  | .wtGetCfg _ => 2
  | .crInit _ => 0
  | .crSetFreq _ => 0
  | .crSetAmp _ => 0
  | .crProcess _ => 3
  | .crGet _ => 4
  | .crGetCfg _ => 3
  | .crRenorm _ => 0
  | .bqInit _ => 0
  | .bqCalc _ => 0
  | .bqSetCoef _ => 0
  | .bqProcess _ => 1
  | .bqGetCoef _ => 1
  | .bqGetHist _ => 4
  | .qzInit _ => 0
  | .qzSetLen _ => 0
  | .qzTableWrite _ => 0
  | .qzTableRead _ => 2
  | .qzSetTranspose _ => 0
  | .qzIncTranspose _ => 0
  | .qzQuantize _ => 4
  | .qzChromatic _ => 1
  | .qzGet _ => 2
  | .ttInit _ => 0
  | .ttSetPeriod _ => 0
  | .ttSetBpm _ => 0
  | .ttSetDuration _ => 0
  | .ttSetMode _ => 0
  | .ttProcess _ => 2
  | .ttGetState _ => 4
  | .ttGetCfg _ => 4
  | .nop => 0
  | .clrErr => 0
  | .softReset => 4
  | .dac12 => 1

/-- The commands that change no unit and no table: the read-back commands of R39 and R244, and those whose rules say
"Effect: none" on the units (R110, R111, R113, R196, R197). -/
def observesOnly : Instr → Bool
  | .paInit _ => false
  | .paSetRange _ => false
  | .paSetFreq _ => false
  | .paProcess _ => false
  | .paGet _ => true
  | .paGetCfg _ => true
  | .wtInit _ => false
  | .wtSetFreq _ => false
  | .wtSetAmp _ => false
  | .wtSetInterp _ => false
  | .wtProcess _ => false
  | .wtTableWrite => false
  | .wtTableRead => true
  | .wtGet _ => true
  | .wtGetCfg _ => true
  | .crInit _ => false
  | .crSetFreq _ => false
  | .crSetAmp _ => false
  | .crProcess _ => false
  | .crGet _ => true
  | .crGetCfg _ => true
  | .crRenorm _ => false
  | .bqInit _ => false
  | .bqCalc _ => false
  | .bqSetCoef _ => false
  | .bqProcess _ => false
  | .bqGetCoef _ => true
  | .bqGetHist _ => true
  | .qzInit _ => false
  | .qzSetLen _ => false
  | .qzTableWrite _ => false
  | .qzTableRead _ => true
  | .qzSetTranspose _ => false
  | .qzIncTranspose _ => false
  | .qzQuantize _ => true
  | .qzChromatic _ => true
  | .qzGet _ => true
  | .ttInit _ => false
  | .ttSetPeriod _ => false
  | .ttSetBpm _ => false
  | .ttSetDuration _ => false
  | .ttSetMode _ => false
  | .ttProcess _ => false
  | .ttGetState _ => true
  | .ttGetCfg _ => true
  | .nop => true
  | .clrErr => true
  | .softReset => false
  | .dac12 => true

/-! ## One command several times -/

/-- `n` times the same command, each on the state the one before it left. -/
def repeatCommand (i : Instr) : Nat → State → Host.Outcome State Fault Refusal
  | 0, s => .next s
  | n + 1, s =>
    match exec i s with
    | .next t => repeatCommand i n t
    | .fault r => .fault r
    | .refused r => .refused r

end Sys2Proof.Machine
end

