-- ==== Sys2Proof/Certificates/Slice0/Obligations.lean ====
section
/-! DEFINITION. The statements for the provers, one `def Obligations.<Name> : Prop` each; OBLIGATIONS.json lists them
with the rules of spec/ they come from. -/

open Sys2Proof Sys2Proof.Machine

/-! ## Encoding and decoding (30_encoding.md) -/

/-- Decoding the word of a command, or its four bytes, gives the command back, for every command and every INST value
(R81, R83, R86, R64). -/
def Obligations.DecodeEncodeAgree : Prop :=
  ∀ i : Instr, decode (encode i) = .ok i ∧ decodeBytes (bytesOfWord (encode i)) = .ok (i, [])

/-- A word that decodes is the word of the command it decodes to: no two words mean the same command (R83, R86). -/
def Obligations.EncodeDecodeAgree : Prop :=
  ∀ (w : Word) (i : Instr), decode w = .ok i → encode i = w

/-- R88: the illegal words, field by field; they are rejected with ILLEGAL and nothing else happens; every other word is
a command; and a command of an instanced row whose INST is N_u or more is rejected with INST. -/
def Obligations.ReservedWordsAreIllegal : Prop :=
  (∀ w s, illegalWord w → executeWord w s = .next (reject .illegal s))
    ∧ (∀ w, ¬illegalWord w → ∃ i, decode w = .ok i)
    ∧ ∀ w i k s, decode w = .ok i → i.address.2 = some k → s.build.count i.address.1 ≤ k.toNat →
        executeWord w s = .next (reject .inst s)

/-- Sanity: words written out from R87's rows decode to their commands. -/
def Obligations.SampleWordsDecode : Prop :=
  decode 0x00003002#32 = .ok (.paSetFreq 3) ∧ decode 0x0000F104#32 = .ok (.wtProcess 15)
    ∧ decode 0x00000107#32 = .ok .wtTableWrite ∧ decode 0x00001206#32 = .ok (.crRenorm 1)
    ∧ decode 0x00000301#32 = .ok (.bqCalc 0) ∧ decode 0x00002406#32 = .ok (.qzQuantize 2)
    ∧ decode 0x00000505#32 = .ok (.ttProcess 0) ∧ decode 0x00000F03#32 = .ok .dac12

/-- A command that names an instance the build does not have is rejected with INST, whatever its operands (R82, R83,
R233). -/
def Obligations.MissingInstanceIsRejected : Prop :=
  ∀ (i : Instr) (k : Inst) (s : State), i.address.2 = some k → s.build.count i.address.1 ≤ k.toNat →
    exec i s = .next (reject .inst s)

/-! ## The port (20_memory.md) -/

/-- When the next event at the port is a host's write of any word to CMD, the step executes that word, with the event
taken off the port (R34, R65, R100): a word that decodes runs its command, and an illegal one is rejected with ILLEGAL
(R88). The list of events and the read data are the model's own fields (logs 1 and 8). -/
def Obligations.StepRunsDecodedCommand : Prop :=
  ∀ (s : State) (rest : List PortEvent) (w : Word), s.build.legal = true →
    (s.pending = .write (s.build.base + 0x14) 4 w :: rest →
      let t : State := { s with pending := rest, readData := none }
      step s = executeWord w t
        ∧ (∀ i : Instr, decode w = .ok i → step s = exec i t)
        ∧ (illegalWord w → step s = .next (reject .illegal t)))
    ∧ step (s.withFetchWord 32 w.toNat) = executeWord w { s with readData := none }
    ∧ ∀ i : Instr, decode w = .ok i → step (s.withFetchWord 32 w.toNat) = exec i { s with readData := none }

/-- A read of each register of the window returns its word and changes nothing of the block (R31, R34, R35, R36, R61,
R63, R67). Where the model holds the word returned is its own choice (log 8). -/
def Obligations.ReadsReturnRegisters : Prop :=
  ∀ (s : State) (rest : List PortEvent), s.build.legal = true →
    let answers (offset : Nat) (w : Word) : Prop :=
      s.pending = .read (s.build.base + offset) 4 :: rest →
        step s = .next { s with pending := rest, readData := some w }
    answers 0x00 0x50410007#32 ∧ answers 0x04 (cfgWord s.build) ∧ answers 0x08 (BitVec.ofNat 32 s.build.wtLen)
      ∧ answers 0x0C (BitVec.ofNat 32 s.build.qzMax) ∧ answers 0x10 (statusWord s.status) ∧ answers 0x14 0
      ∧ answers 0x18 0 ∧ answers 0x1C 0 ∧ (∀ n : Fin 4, answers (0x20 + 4 * n.val) (argWord s n))
      ∧ ∀ n : Fin 4, answers (0x30 + 4 * n.val) (resWord s n)

/-- The fields of the STATUS word and the bytes its two code fields hold, and the fields of the CFG word of a legal
build, whose WTLEN and QZMAX words hold their parameters whole (R32, R33, R231). -/
def Obligations.ReadOnlyWordLayouts : Prop :=
  (∀ st : Status,
    (statusWord st).extractLsb' 0 1 = BitVec.ofBool st.err ∧ (statusWord st).extractLsb' 1 1 = BitVec.ofBool st.lastRej
      ∧ (statusWord st).extractLsb' 2 6 = 0 ∧ (statusWord st).extractLsb' 8 8 = st.firstCode
      ∧ (statusWord st).extractLsb' 16 8 = st.lastCode ∧ (statusWord st).extractLsb' 24 8 = 0)
  ∧ (codeByte .illegal = 0x01 ∧ codeByte .inst = 0x02 ∧ codeByte .index = 0x03 ∧ codeByte .config = 0x04
      ∧ codeByte .operand = 0x05 ∧ codeByte .noMatch = 0x06)
  ∧ ∀ b : Build, b.legal = true →
    ((cfgWord b).extractLsb' 0 4).toNat = b.nPA - 1 ∧ ((cfgWord b).extractLsb' 4 4).toNat = b.nWT - 1
      ∧ ((cfgWord b).extractLsb' 8 4).toNat = b.nCR - 1 ∧ ((cfgWord b).extractLsb' 12 4).toNat = b.nBQ - 1
      ∧ ((cfgWord b).extractLsb' 16 4).toNat = b.nQZ - 1 ∧ ((cfgWord b).extractLsb' 20 4).toNat = b.nTT - 1
      ∧ (cfgWord b).extractLsb' 24 8 = 0
      ∧ (BitVec.ofNat 32 b.wtLen).toNat = b.wtLen ∧ (BitVec.ofNat 32 b.qzMax).toNat = b.qzMax

/-- A host's write of ARGn sets it and nothing else; a write of a read-only or reserved register is ignored (R35,
R63). -/
def Obligations.RegisterWrites : Prop :=
  ∀ (s : State) (rest : List PortEvent) (w : Word), s.build.legal = true →
    (∀ n : Fin 4, s.pending = .write (s.build.base + 0x20 + 4 * n.val) 4 w :: rest →
      step s = .next { s with pending := rest, readData := none, args := s.args.set n.val w })
    ∧ ∀ offset ∈ [0x00, 0x04, 0x08, 0x0C, 0x10, 0x18, 0x1C, 0x30, 0x34, 0x38, 0x3C],
        s.pending = .write (s.build.base + offset) 4 w :: rest →
          step s = .next { s with pending := rest, readData := none }

/-- An access inside the window of another width than 4 bytes, or misaligned, is a bus error of its issuer (R62, R237;
that the model's step stops there with a fault is log 4); an access outside the window is none of the block's (R60;
log 5); every aligned word of the window is one of R61's registers. -/
def Obligations.UnadmittedAccessesFault : Prop :=
  ∀ (s : State) (rest : List PortEvent) (addr size : Nat),
    (s.build.base ≤ addr → addr < s.build.base + 64 → (size ≠ 4 ∨ addr % 4 ≠ 0) →
      (s.pending = .read addr size :: rest → step s = .fault (.busError addr size))
      ∧ ∀ w, s.pending = .write addr size w :: rest → step s = .fault (.busError addr size))
    ∧ ((addr < s.build.base ∨ s.build.base + 64 ≤ addr) →
      (s.pending = .read addr size :: rest → step s = .fault (.outsideWindow addr))
      ∧ ∀ w, s.pending = .write addr size w :: rest → step s = .fault (.outsideWindow addr))
    ∧ (s.build.legal = true → s.build.base ≤ addr → addr < s.build.base + 64 → addr % 4 = 0 →
        ∃ r, addr = regAddress s.build r)

/-- With nothing at the port the block does nothing (R6, R252); the reset input, between accesses, leaves the reset
state of the build (R251; that reset is an event of the port's list is log 9). -/
def Obligations.IdleAndResetInput : Prop :=
  (∀ s : State, s.pending = [] → step s = .next s)
    ∧ ∀ (s : State) (rest : List PortEvent), s.pending = .reset :: rest →
        step s = .next { State.resetOf s.build with pending := rest }

/-- R250: the reset input and SOFT_RESET set every piece of state to its reset value. -/
def Obligations.ResetSetsEveryField : Prop :=
  ∀ s t : State, ((∃ rest, s.pending = .reset :: rest) ∧ step s = .next t) ∨ exec .softReset s = .next t →
    t.build = s.build
      ∧ readReg t .id = 0x50410007#32 ∧ readReg t .cfg = readReg s .cfg ∧ readReg t .wtlen = readReg s .wtlen
      ∧ readReg t .qzmax = readReg s .qzmax
      ∧ statusWord t.status = 0 ∧ (∀ n, argWord t n = 0) ∧ (∀ n, resWord t n = 0)
      ∧ (∀ k, paAt t k = { fs := 0x473B8000#32, range := 0x3F800000#32, freq := 0, inc := 0, phase := 0 })
      ∧ (∀ k, wtAt t k = { fs := 0x473B8000#32, freq := 0, inc := 0, phase := 0, amp := 0, interp := .linear })
      ∧ (∀ k, crAt t k = { fs := 0x473B8000#32, freq := 0, mre := 0x3F800000#32, mim := 0, vre := 0x3F800000#32,
                           vim := 0, amp := 0 })
      ∧ (∀ k, bqAt t k = { b0 := 0, b1 := 0, b2 := 0, a1 := 0, a2 := 0, x1 := 0, x2 := 0, y1 := 0, y2 := 0 })
      ∧ (∀ k, qzAt t k = { n := 0, transpose := 0 })
      ∧ (∀ k, ttAt t k = { fs := 0x473B8000#32, interval := 0, duration := 0, step := 0, mode := .basic, counter := 0,
                           state := .idle, ramp := 0 })
      ∧ (∀ i, wtabAt t i = 0) ∧ ∀ k i, qtAt t k i = { bound := 0, q := 0 }

/-! ## Acceptance and rejection (40_command_core.md, 60_exceptions.md) -/

/-- R101: a word that is rejected leaves the state before it, but for STATUS, which records the code, and ERR and
FIRST_CODE if ERR was 0. -/
def Obligations.RejectionIsPrecise : Prop :=
  ∀ (w : Word) (s t : State), executeWord w s = .next t → t.status.lastRej = true →
    ∃ c : Code, t = { s with status := { err := true
                                         lastRej := true
                                         firstCode := if s.status.err then s.status.firstCode else codeByte c
                                         lastCode := codeByte c } }

/-- An accepted command leaves LAST_REJ and LAST_CODE 0, and ERR and FIRST_CODE as they were unless it is CLR_ERR or
SOFT_RESET (R100). -/
def Obligations.AcceptedCommandStatus : Prop :=
  ∀ (i : Instr) (s t : State), exec i s = .next t → t.status.lastRej = false →
    t.status.lastCode = 0
      ∧ (i ≠ .clrErr → i ≠ .softReset → t.status.err = s.status.err ∧ t.status.firstCode = s.status.firstCode)

/-- Every word written to CMD is answered with a next state, accepted or rejected: no word stops the block (R100, R101,
R236). -/
def Obligations.EveryWordIsAnswered : Prop :=
  ∀ (w : Word) (s : State), ∃ t, executeWord w s = .next t

/-- A command raises no code but those R232 lists for it. -/
def Obligations.CommandsRaiseOnlyTheirCodes : Prop :=
  ∀ (i : Instr) (s t : State), exec i s = .next t → t.status.lastRej = true →
    ∃ c ∈ raisable i, t = reject c s

/-- The read-back commands change nothing but RES and STATUS (R39, R244), nor do NOP, CLR_ERR, DAC12, QZ_QUANTIZE and
QZ_CHROMATIC (R110, R111, R113, R196, R197). -/
def Obligations.ObserversChangeOnlyResults : Prop :=
  ∀ (i : Instr) (s t : State), observesOnly i = true → exec i s = .next t →
    t = { s with res := t.res, status := t.status }

/-- A command changes no instance but the one it addresses, no table but the one its unit owns, no ARG register, and
not what waits at the port (R35, R46, R68, R69); SOFT_RESET, which changes them all, apart. -/
def Obligations.CommandsTouchOnlyTheirInstance : Prop :=
  ∀ (i : Instr) (s t : State), i ≠ .softReset → exec i s = .next t →
    (∀ j, paAt t j ≠ paAt s j → i.address = (.pa, some j)) ∧ (∀ j, wtAt t j ≠ wtAt s j → i.address = (.wt, some j))
      ∧ (∀ j, crAt t j ≠ crAt s j → i.address = (.cr, some j)) ∧ (∀ j, bqAt t j ≠ bqAt s j → i.address = (.bq, some j))
      ∧ (∀ j, qzAt t j ≠ qzAt s j → i.address = (.qz, some j)) ∧ (∀ j, ttAt t j ≠ ttAt s j → i.address = (.tt, some j))
      ∧ (t.wtab ≠ s.wtab → i = .wtTableWrite)
      ∧ (∀ j, bankGet t.qt j ≠ bankGet s.qt j → i = .qzInit j ∨ i = .qzTableWrite j)
      ∧ t.args = s.args ∧ t.build = s.build ∧ t.pending = s.pending ∧ t.readData = s.readData

/-- Only an accepted command changes RES registers, and only those its rule names (R36, R85, R87). -/
def Obligations.ResultsOnlyWhereNamed : Prop :=
  ∀ (i : Instr) (s t : State), exec i s = .next t →
    (t.status.lastRej = true → t.res = s.res) ∧ ∀ n : Fin 4, resultCount i ≤ n.val → resWord t n = resWord s n

/-! ## Invariants that every step keeps (10_state.md) -/

/-- Every step keeps STATUS's invariants (R33). -/
def Obligations.StepKeepsStatusConsistent : Prop :=
  ∀ s t : State, statusInv s.status → step s = .next t → statusInv t.status

/-- Every step keeps the tables canonical and inside WT_LEN and QZ_MAX (R68, R69; the canonical form is log 7). -/
def Obligations.StepKeepsTablesCanonical : Prop :=
  ∀ s t : State, tablesInv s → step s = .next t → tablesInv t

/-- Every step keeps every PA and WT phase in its canonical range, and the rates, ranges, frequencies and increments as
R40 and R41 say (the source's phase wrap invariant, R123). -/
def Obligations.StepKeepsPhasesInRange : Prop :=
  ∀ s t : State, s.build.legal = true → oscillatorInv s → step s = .next t →
    t.build.legal = true ∧ oscillatorInv t

/-- Every step keeps the CR, BQ and QZ settings finite and in range (R42, R43, R44), the multiplier by R150 and R153 and
the input histories by R176, and every NaN that the CR value or a BQ output history holds the canonical one (R13). -/
def Obligations.StepKeepsSettingsInRange : Prop :=
  ∀ s t : State, settingsInv s → step s = .next t → settingsInv t

/-- Every step keeps the timers' counter below 2^32 - 1, the ramp in [0, 1] and the step 2/duration (R45). -/
def Obligations.StepKeepsTimersInRange : Prop :=
  ∀ s t : State, timerInv s → step s = .next t → timerInv t

/-- The reset state of every legal build meets all the invariants (R33, R40 to R45, R250). -/
def Obligations.ResetMeetsInvariants : Prop :=
  ∀ b : Build, b.legal = true → (State.resetOf b).Inv

/-! ## Arithmetic (00_scope.md) -/

/-- Addition and subtraction of finite values are correctly rounded, to nearest, ties to even (R12); that an overflow
is the infinity of the exact result's sign is the standard's (log 11). -/
def Obligations.AdditionIsNearest : Prop :=
  ∀ a b : F32, isFinite a = true → isFinite b = true →
    roundsTo (fadd a b) (valueOf a + valueOf b) 1 ∧ roundsTo (fsub a b) (valueOf a - valueOf b) 1

/-- Multiplication of finite values is correctly rounded, to nearest, ties to even (R12): values are in units of
2^-149, so the exact product is the product of the values over 2^149 units. An overflow is the standard's infinity
(log 11). -/
def Obligations.MultiplicationIsNearest : Prop :=
  ∀ a b : F32, isFinite a = true → isFinite b = true → roundsTo (fmul a b) (valueOf a * valueOf b) (2 ^ 149)

/-- Division of a finite value by one that is not zero is correctly rounded, to nearest, ties to even (R12); an overflow
is the standard's infinity (log 11). -/
def Obligations.DivisionIsNearest : Prop :=
  ∀ a b : F32, isFinite a = true → isFinite b = true → valueOf b ≠ 0 →
    roundsTo (fdiv a b) (valueOf a * 2 ^ 149) (valueOf b)

/-- The square root is correctly rounded (R12, D12): the exact root lies on the near side of the midpoint between the
result and any other finite value. -/
def Obligations.SquareRootIsNearest : Prop :=
  ∀ a v : F32, isFinite a = true → 0 ≤ valueOf a → isFinite v = true → 0 ≤ valueOf v →
    isFinite (fsqrt a) = true ∧ 0 ≤ valueOf (fsqrt a)
      ∧ (valueOf v < valueOf (fsqrt a) → (valueOf v + valueOf (fsqrt a)) ^ 2 ≤ 4 * (valueOf a * 2 ^ 149))
      ∧ (valueOf (fsqrt a) < valueOf v → 4 * (valueOf a * 2 ^ 149) ≤ (valueOf v + valueOf (fsqrt a)) ^ 2)

/-- One sample of the accumulator keeps the phase in its range, and a wrap subtracts the range exactly (R122, R123). -/
def Obligations.WrapKeepsPhaseInRange : Prop :=
  ∀ phase inc r : F32, isFinite r = true → fgt r fZERO = true → fle r fRANGE_MAX = true →
    inHalfOpen phase r → inHalfOpen inc r →
      inHalfOpen (phaseStep phase inc r).1 r
        ∧ ((phaseStep phase inc r).2 = true → valueOf (phaseStep phase inc r).1 = valueOf (fadd phase inc) - valueOf r)
        ∧ ((phaseStep phase inc r).2 = false → (phaseStep phase inc r).1 = fadd phase inc)

/-- The constants of R16 have the values R16 names, PI_F and TWO_PI_F their encodings, and the NaN of R13 its encoding;
the conversions of R15 are what R15 says: `floorI` and `truncI` the integer part, `roundF` the nearest integral value,
ties away from zero, `toF` the nearest value, ties to even, exact up to 2^24. Which zero `roundF` returns (log 10) is no
part of this. -/
def Obligations.ConstantsAndConversions : Prop :=
  (valueOf fZERO = 0 ∧ valueOf fHALF * 2 = 2 ^ 149 ∧ valueOf fONE = 2 ^ 149 ∧ valueOf fTWO = 2 * 2 ^ 149
    ∧ valueOf fFIVE = 5 * 2 ^ 149 ∧ valueOf fSIXTY = 60 * 2 ^ 149 ∧ valueOf fK819 = 819 * 2 ^ 149
    ∧ valueOf fK4095 = 4095 * 2 ^ 149 ∧ valueOf fFS_RESET = 48000 * 2 ^ 149
    ∧ valueOf fRANGE_MAX = 2 ^ 24 * 2 ^ 149 ∧ valueOf fTWO32 = 2 ^ 32 * 2 ^ 149
    ∧ fZERO = 0x00000000#32 ∧ fPI = 0x40490FDB#32 ∧ fTWO_PI = 0x40C90FDB#32 ∧ fmul fTWO fPI = fTWO_PI
    ∧ canonicalNaN = 0x7FC00000#32)
  ∧ (∀ v : F32, isFinite v = true → 0 ≤ valueOf v →
      (floorI v : Int) * 2 ^ 149 ≤ valueOf v ∧ valueOf v < ((floorI v : Int) + 1) * 2 ^ 149 ∧ truncI v = floorI v)
  ∧ (∀ v : F32, isFinite v = true →
      isFinite (roundF v) = true
        ∧ ∃ m : Int, valueOf (roundF v) = m * 2 ^ 149
          ∧ 2 * |m * 2 ^ 149 - valueOf v| ≤ 2 ^ 149
          ∧ (2 * |m * 2 ^ 149 - valueOf v| = 2 ^ 149 → |valueOf v| < |m * 2 ^ 149|))
  ∧ ∀ n : Nat,
      roundsTo (toF n) (n * 2 ^ 149) 1
        ∧ (n ≤ 2 ^ 24 → isFinite (toF n) = true ∧ valueOf (toF n) = n * 2 ^ 149)

/-! ## CORE commands (40_command_core.md) -/

/-- NOP clears LAST_REJ and LAST_CODE alone; CLR_ERR leaves STATUS zero; SOFT_RESET leaves the reset state (R110, R111,
R112). Each always completes. -/
def Obligations.HousekeepingCommands : Prop :=
  ∀ s : State,
    exec .nop s = .next { s with status := { s.status with lastRej := false, lastCode := 0 } }
      ∧ exec .clrErr s = .next { s with status := { err := false, lastRej := false, firstCode := 0, lastCode := 0 } }
      ∧ exec .softReset s = .next { State.resetOf s.build with pending := s.pending, readData := s.readData }

/-- DAC12 (R113): the two mappings, and OPERAND for a mode above 1, a value that is not finite, or one outside [0, 1] in
mode 0. -/
def Obligations.DacConvertsBothMappings : Prop :=
  ∀ s : State,
    let value := argF s 0
    (argU s 1 = 0 → isFinite value = true → fge value fZERO = true → fle value fONE = true →
      exec .dac12 s = .next (accept (setRes s 0 (BitVec.ofNat 32 (floorI (roundF (fmul value fK4095)))))))
    ∧ (argU s 1 = 1 → isFinite value = true →
      let x := fmul value fK819
      let c := if flt x fZERO then fZERO else if fgt x fK4095 then fK4095 else x
      exec .dac12 s = .next (accept (setRes s 0 (BitVec.ofNat 32 (truncI c)))))
    ∧ ((1 < argU s 1 ∨ isFinite value = false ∨ (argU s 1 = 0 ∧ (fge value fZERO && fle value fONE) = false)) →
      exec .dac12 s = .next (reject .operand s))

/-- The code DAC12 returns is a 12-bit code, 0..4095, in both modes (R113). -/
def Obligations.DacCodeIsTwelveBits : Prop :=
  ∀ s t : State, exec .dac12 s = .next t → t.status.lastRej = false → (resWord t 0).toNat ≤ 4095

/-! ## INIT commands -/

/-- PA_INIT, WT_INIT, CR_INIT and TT_INIT reset their instance and take the sample rate, or reject a rate that is not
finite and positive; BQ_INIT and QZ_INIT reset theirs, QZ_INIT its table too (R124, R130, R150, R170, R190, R210). -/
def Obligations.InitCommandsResetTheirInstance : Prop :=
  ∀ (k : Inst) (s : State),
    let fs := argF s 0
    let good := isFinite fs = true ∧ fgt fs fZERO = true
    (k.toNat < s.build.nPA → good → exec (.paInit k) s = .next (accept (setPa s k { paReset with fs := fs })))
      ∧ (k.toNat < s.build.nWT → good → exec (.wtInit k) s = .next (accept (setWt s k { wtReset with fs := fs })))
      ∧ (k.toNat < s.build.nCR → good → exec (.crInit k) s = .next (accept (setCr s k { crReset with fs := fs })))
      ∧ (k.toNat < s.build.nTT → good → exec (.ttInit k) s = .next (accept (setTt s k { ttReset with fs := fs })))
      ∧ (k.toNat < s.build.nPA → ¬good → exec (.paInit k) s = .next (reject .operand s))
      ∧ (k.toNat < s.build.nWT → ¬good → exec (.wtInit k) s = .next (reject .operand s))
      ∧ (k.toNat < s.build.nCR → ¬good → exec (.crInit k) s = .next (reject .operand s))
      ∧ (k.toNat < s.build.nTT → ¬good → exec (.ttInit k) s = .next (reject .operand s))
      ∧ (k.toNat < s.build.nBQ → exec (.bqInit k) s = .next (accept (setBq s k bqReset)))
      ∧ (k.toNat < s.build.nQZ →
          exec (.qzInit k) s = .next (accept { s with qz := bankSet s.qz k qzReset, qt := bankSet s.qt k [] }))

/-! ## PA commands (41_phase_accumulator.md) -/

/-- PA_SET_RANGE (R125). -/
def Obligations.PaSetRangeRescales : Prop :=
  ∀ (k : Inst) (s : State), k.toNat < s.build.nPA →
    let u := paAt s k
    let r := argF s 0
    let inc := fdiv (fmul r u.freq) u.fs
    let good := isFinite r = true ∧ fgt r fZERO = true ∧ fle r fRANGE_MAX = true ∧ flt inc r = true
    (good → exec (.paSetRange k) s = .next (accept (setPa s k { u with range := r, inc := inc, phase := fZERO })))
      ∧ (¬good → exec (.paSetRange k) s = .next (reject .operand s))

/-- PA_SET_FREQ and WT_SET_FREQ: the admission of R121, and the frequency and increment set with the phase kept (R126,
R131). -/
def Obligations.SetFreqAdmitsBelowRate : Prop :=
  ∀ (k : Inst) (s : State),
    let hz := argF s 0
    let good (r fs : F32) :=
      isFinite hz = true ∧ fge hz fZERO = true ∧ flt hz fs = true ∧ flt (fdiv (fmul r hz) fs) r = true
    (k.toNat < s.build.nPA →
      let u := paAt s k
      (good u.range u.fs →
        exec (.paSetFreq k) s = .next (accept (setPa s k { u with freq := hz, inc := fdiv (fmul u.range hz) u.fs })))
      ∧ (¬good u.range u.fs → exec (.paSetFreq k) s = .next (reject .operand s)))
    ∧ (k.toNat < s.build.nWT →
      let u := wtAt s k
      let len := toF s.build.wtLen
      (good len u.fs →
        exec (.wtSetFreq k) s = .next (accept (setWt s k { u with freq := hz, inc := fdiv (fmul len hz) u.fs })))
      ∧ (¬good len u.fs → exec (.wtSetFreq k) s = .next (reject .operand s)))

/-- PA_PROCESS (R122, R127): advance, wrap at most once, return the new phase and the wrap bit. -/
def Obligations.PaProcessAdvances : Prop :=
  ∀ (k : Inst) (s : State), k.toNat < s.build.nPA →
    let u := paAt s k
    let p := fadd u.phase u.inc
    (fge p u.range = true →
      exec (.paProcess k) s
        = .next (accept (setRes (setRes (setPa s k { u with phase := fsub p u.range }) 0
            (canonical (fsub p u.range))) 1 1)))
    ∧ (fge p u.range = false →
      exec (.paProcess k) s = .next (accept (setRes (setRes (setPa s k { u with phase := p }) 0 (canonical p)) 1 0)))

/-! ## WT commands (42_wavetable_oscillator.md) -/

/-- WT_SET_AMP, CR_SET_AMP and WT_SET_INTERP (R132, R154, R133). -/
def Obligations.AmplitudeAndInterpolationSettings : Prop :=
  ∀ (k : Inst) (s : State),
    (k.toNat < s.build.nWT → isFinite (argF s 0) = true →
      exec (.wtSetAmp k) s = .next (accept (setWt s k { wtAt s k with amp := argF s 0 })))
    ∧ (k.toNat < s.build.nWT → isFinite (argF s 0) = false → exec (.wtSetAmp k) s = .next (reject .operand s))
    ∧ (k.toNat < s.build.nCR → isFinite (argF s 0) = true →
      exec (.crSetAmp k) s = .next (accept (setCr s k { crAt s k with amp := argF s 0 })))
    ∧ (k.toNat < s.build.nCR → isFinite (argF s 0) = false → exec (.crSetAmp k) s = .next (reject .operand s))
    ∧ (k.toNat < s.build.nWT → argU s 0 = 0 →
      exec (.wtSetInterp k) s = .next (accept (setWt s k { wtAt s k with interp := .linear })))
    ∧ (k.toNat < s.build.nWT → argU s 0 = 1 →
      exec (.wtSetInterp k) s = .next (accept (setWt s k { wtAt s k with interp := .cubic })))
    ∧ (k.toNat < s.build.nWT → 1 < argU s 0 → exec (.wtSetInterp k) s = .next (reject .operand s))

/-- WT_PROCESS (R134 to R137): advance and wrap, split the new phase, interpolate by the instance's mode, scale. -/
def Obligations.WtProcessInterpolates : Prop :=
  ∀ (k : Inst) (s : State), k.toNat < s.build.nWT →
    let u := wtAt s k
    let len := s.build.wtLen
    let st := phaseStep u.phase u.inc (toF len)
    let i := floorI st.1
    let t := fsub st.1 (toF i)
    let p0 := wtabAt s ((i + len - 1) % len)
    let p1 := wtabAt s i
    let p2 := wtabAt s ((i + 1) % len)
    let p3 := wtabAt s ((i + 2) % len)
    let slope0 := fdiv (fsub p2 p0) fTWO
    let slope1 := fdiv (fsub p3 p1) fTWO
    let v := fsub p1 p2
    let w := fadd slope0 v
    let a := fadd (fadd w v) slope1
    let lin := fadd p1 (fmul t (fsub p2 p1))
    let cub := fadd (fmul (fadd (fmul (fsub (fmul a t) (fadd w a)) t) slope0) t) p1
    let answers (out : F32) :=
      exec (.wtProcess k) s
        = .next (accept (setRes (setRes (setWt s k { u with phase := st.1 }) 0 (canonical (fmul u.amp out))) 1
            (if st.2 then 1 else 0)))
    (u.interp = .linear → answers lin) ∧ (u.interp = .cubic → answers cub)

/-- WT_PROCESS with a zero amplitude and a finite interpolated value returns a zero, its sign the exclusive-or of the
signs (R142). -/
def Obligations.ZeroAmplitudeIsSilent : Prop :=
  ∀ (k : Inst) (s : State), k.toNat < s.build.nWT →
    let u := wtAt s k
    let v := interpolate s u.interp (phaseStep u.phase u.inc (toF s.build.wtLen)).1
    feq u.amp fZERO = true → isFinite v = true →
      ∃ t, exec (.wtProcess k) s = .next t
        ∧ resWord t 0 = (if signOf u.amp = signOf v then 0x00000000#32 else 0x80000000#32)

/-- WT_TABLE_WRITE (R138): one entry is written, every other reads as before, from a table in the model's canonical
form (log 7); INDEX before OPERAND. -/
def Obligations.WavetableWriteSetsOneEntry : Prop :=
  ∀ s : State,
    let idx := argU s 0
    let val := argF s 1
    (idx < s.build.wtLen → isFinite val = true →
      ∃ t, exec .wtTableWrite s = .next t
        ∧ t = { s with wtab := t.wtab, status := { s.status with lastRej := false, lastCode := 0 } }
        ∧ (Memory.wf wtabDefault s.wtab = true →
            Memory.wf wtabDefault t.wtab = true ∧ ∀ j, wtabAt t j = if j = idx then val else wtabAt s j))
    ∧ (s.build.wtLen ≤ idx → exec .wtTableWrite s = .next (reject .index s))
    ∧ (idx < s.build.wtLen → isFinite val = false → exec .wtTableWrite s = .next (reject .operand s))

/-! ## CR commands (43_complex_rotation.md) -/

/-- CR_SET_FREQ (R152, R153), for whatever functions COS and SIN are (R17): the multiplier is set, the value kept. -/
def Obligations.CrSetFreqSetsMultiplier : Prop :=
  let claim (m : Trig) (run : Inst → State → Host.Outcome State Fault Refusal) : Prop :=
    ∀ (k : Inst) (s : State), k.toNat < s.build.nCR →
      let u := crAt s k
      let hz := argF s 0
      let d := fdiv (fmul fTWO_PI hz) u.fs
      let good := isFinite hz = true ∧ isFinite d = true ∧ isFinite (m.cos d) = true ∧ isFinite (m.sin d) = true
      (good → run k s = .next (accept (setCr s k { u with freq := hz, mre := m.cos d, mim := m.sin d })))
        ∧ (¬good → run k s = .next (reject .operand s))
  (∀ m, claim m (crSetFreqWith m)) ∧ claim Config.trig fun k s => exec (.crSetFreq k) s

/-- CR_PROCESS (R151, R155): the value is multiplied by the multiplier, each product rounded, and the scaled imaginary
part is returned. -/
def Obligations.CrProcessRotates : Prop :=
  ∀ (k : Inst) (s : State), k.toNat < s.build.nCR →
    let u := crAt s k
    let nr := fsub (fmul u.vre u.mre) (fmul u.vim u.mim)
    let ni := fadd (fmul u.vre u.mim) (fmul u.vim u.mre)
    exec (.crProcess k) s
      = .next (accept (setRes (setRes (setRes (setCr s k { u with vre := nr, vim := ni }) 0
          (canonical (fmul u.amp ni))) 1 (canonical nr)) 2 (canonical ni)))

/-- CR_RENORM (R157): the value divided by its magnitude, or CONFIG if the magnitude is zero, infinite or a NaN. -/
def Obligations.CrRenormDividesByMagnitude : Prop :=
  ∀ (k : Inst) (s : State), k.toNat < s.build.nCR →
    let u := crAt s k
    let mag := fsqrt (fadd (fmul u.vre u.vre) (fmul u.vim u.vim))
    let good := isFinite mag = true ∧ fgt mag fZERO = true
    (good → exec (.crRenorm k) s = .next (accept (setCr s k { u with vre := fdiv u.vre mag, vim := fdiv u.vim mag })))
      ∧ (¬good → exec (.crRenorm k) s = .next (reject .config s))

/-! ## BQ commands (44_biquad.md) -/

/-- BQ_CALC (R171, R172), for whatever function TAN is (R17): the five coefficients of the design, the history kept. -/
def Obligations.BqCalcDesignsLowpass : Prop :=
  let claim (m : Trig) (run : Inst → State → Host.Outcome State Fault Refusal) : Prop :=
    ∀ (c : Inst) (s : State), c.toNat < s.build.nBQ →
      let fs := argF s 0
      let f := argF s 1
      let q := argF s 2
      let k := m.tan (fdiv (fmul fPI f) fs)
      let kk := fmul k k
      let kq := fdiv k q
      let norm := fdiv fONE (fadd (fadd fONE kq) kk)
      let b0 := fmul kk norm
      let b1 := fmul fTWO b0
      let a1 := fmul (fmul fTWO (fsub kk fONE)) norm
      let a2 := fmul (fadd (fsub fONE kq) kk) norm
      let good :=
        (isFinite fs = true ∧ fgt fs fZERO = true) ∧ isFinite f = true ∧ fgt f fZERO = true
          ∧ flt f (fmul fs fHALF) = true ∧ isFinite q = true ∧ fgt q fZERO = true
          ∧ (isFinite b0 = true ∧ isFinite b1 = true ∧ isFinite a1 = true ∧ isFinite a2 = true)
      (good → run c s = .next (accept (setBq s c { bqAt s c with b0 := b0, b1 := b1, b2 := b0, a1 := a1, a2 := a2 })))
        ∧ (¬good → run c s = .next (reject .operand s))
  (∀ m, claim m (bqCalcWith m)) ∧ claim Config.trig fun k s => exec (.bqCalc k) s

/-- BQ_SET_COEF (R173): the selected coefficient is written and no other; INDEX before OPERAND. -/
def Obligations.BqSetCoefWritesOne : Prop :=
  ∀ (k : Inst) (s : State), k.toNat < s.build.nBQ →
    let u := bqAt s k
    let val := argF s 1
    let writes (sel : Nat) (u' : BqInst) :=
      argU s 0 = sel → isFinite val = true → exec (.bqSetCoef k) s = .next (accept (setBq s k u'))
    writes 0 { u with b0 := val } ∧ writes 1 { u with b1 := val } ∧ writes 2 { u with b2 := val }
      ∧ writes 3 { u with a1 := val } ∧ writes 4 { u with a2 := val }
      ∧ (5 ≤ argU s 0 → exec (.bqSetCoef k) s = .next (reject .index s))
      ∧ (argU s 0 < 5 → isFinite val = false → exec (.bqSetCoef k) s = .next (reject .operand s))

/-- BQ_PROCESS (R175, R176): the difference equation, then the histories shift; the output is not checked. With all
coefficients +0.0 the sign of the zero is the model's deduction from R175 and R176 (log 14, DEDUCED, unsafe): R170 and
R254 say +0.0 for every input, and this gives -0.0 on a third negative input running from reset. -/
def Obligations.BqProcessFilters : Prop :=
  ∀ (k : Inst) (s : State), k.toNat < s.build.nBQ →
    let u := bqAt s k
    let x := argF s 0
    let y :=
      fsub (fsub (fadd (fadd (fmul u.b0 x) (fmul u.b1 u.x1)) (fmul u.b2 u.x2)) (fmul u.a1 u.y1)) (fmul u.a2 u.y2)
    (isFinite x = true →
      exec (.bqProcess k) s
        = .next (accept (setRes (setBq s k { u with x1 := x, x2 := u.x1, y1 := y, y2 := u.y1 }) 0 (canonical y))))
      ∧ (isFinite x = false → exec (.bqProcess k) s = .next (reject .operand s))

/-! ## QZ commands (45_quantizer.md) -/

/-- QZ_SET_LEN, QZ_SET_TRANSPOSE and QZ_INC_TRANSPOSE, whose sum wraps (R191, R194, R195). -/
def Obligations.QzLengthAndTranspose : Prop :=
  ∀ (k : Inst) (s : State), k.toNat < s.build.nQZ →
    let u := qzAt s k
    (2 ≤ argU s 0 → argU s 0 ≤ s.build.qzMax →
      exec (.qzSetLen k) s = .next (accept (setQz s k { u with n := argWord s 0 })))
    ∧ ((argU s 0 < 2 ∨ s.build.qzMax < argU s 0) → exec (.qzSetLen k) s = .next (reject .operand s))
    ∧ exec (.qzSetTranspose k) s = .next (accept (setQz s k { u with transpose := argWord s 0 }))
    ∧ exec (.qzIncTranspose k) s
        = .next (accept (setQz s k { u with transpose := BitVec.ofNat 32 ((u.transpose.toNat + 1) % 2 ^ 32) }))

/-- QZ_TABLE_WRITE (R192): one entry of the instance's own table is written, every other entry of every table reads as
before, from a table in the model's canonical form (log 7); INDEX before OPERAND. -/
def Obligations.ScaleTableWriteSetsOneEntry : Prop :=
  ∀ (k : Inst) (s : State), k.toNat < s.build.nQZ →
    let i := argU s 0
    let good := isFinite (argF s 1) = true ∧ isFinite (argF s 2) = true
    (i < s.build.qzMax → good →
      ∃ t, exec (.qzTableWrite k) s = .next t
        ∧ t = { s with qt := t.qt, status := { s.status with lastRej := false, lastCode := 0 } }
        ∧ (Memory.wf qtDefault (bankGet s.qt k) = true →
            Memory.wf qtDefault (bankGet t.qt k) = true
              ∧ ∀ c j, qtAt t c j = if c = k ∧ j = i then { bound := argF s 1, q := argF s 2 } else qtAt s c j))
    ∧ (s.build.qzMax ≤ i → exec (.qzTableWrite k) s = .next (reject .index s))
    ∧ (i < s.build.qzMax → ¬good → exec (.qzTableWrite k) s = .next (reject .operand s))

/-- QZ_QUANTIZE (R196): the least entry in use whose bound exceeds the fraction, the rotation and octave rules as
written (R199), the gates; CONFIG, then OPERAND, then NOMATCH. -/
def Obligations.QuantizeTakesFirstBound : Prop :=
  ∀ (k : Inst) (s : State), k.toNat < s.build.nQZ →
    let n := (qzAt s k).n.toNat
    let cv := argF s 0
    let vin := fmul cv fFIVE
    let oct := floorI vin
    let frac := fsub vin (toF oct)
    let inRange := isFinite cv = true ∧ fge cv fZERO = true ∧ fle cv fONE = true
    let above (i : Nat) := fgt (qtAt s k i).bound frac
    (2 ≤ n → inRange → ∀ j, j < n → above j = true → (∀ i, i < j → above i = false) →
      let off := (qzAt s k).transpose.toNat % (n - 1)
      let jt := (j + off) % n
      let octq := if j < off then oct + 1 else oct
      let v := fdiv (fadd (toF octq) (qtAt s k jt).q) fFIVE
      let g0 := if j = 0 ∨ j = n - 1 then 1 else 0
      let g1 := if jt = 0 ∨ jt = n - 1 then 1 else 0
      exec (.qzQuantize k) s
        = .next (accept (setRes (setRes (setRes (setRes s 0 (canonical v)) 1 (BitVec.ofNat 32 (g1 * 2 + g0))) 2
            (BitVec.ofNat 32 jt)) 3 (BitVec.ofNat 32 j))))
    ∧ (n < 2 → exec (.qzQuantize k) s = .next (reject .config s))
    ∧ (2 ≤ n → ¬inRange → exec (.qzQuantize k) s = .next (reject .operand s))
    ∧ (2 ≤ n → inRange → (∀ i, i < n → above i = false) → exec (.qzQuantize k) s = .next (reject .noMatch s))

/-- QZ_CHROMATIC (R197). The sign of a zero that `roundF` keeps, which shows for cv = -0.0, is the model's choice
(log 10). -/
def Obligations.ChromaticRoundsToSemitone : Prop :=
  ∀ (k : Inst) (s : State), k.toNat < s.build.nQZ →
    let cv := argF s 0
    let inRange := isFinite cv = true ∧ fge cv fZERO = true ∧ fle cv fONE = true
    (inRange →
      exec (.qzChromatic k) s
        = .next (accept (setRes s 0 (canonical (fdiv (roundF (fmul cv fSIXTY)) fSIXTY)))))
      ∧ (¬inRange → exec (.qzChromatic k) s = .next (reject .operand s))

/-! ## TT commands (46_trigger_timer.md) -/

/-- TT_SET_PERIOD and TT_SET_BPM (R211, R212, R213): the interval is the truncated number of samples, between 1 and
2^32; counter, state and ramp are kept. -/
def Obligations.TempoSetsInterval : Prop :=
  ∀ (k : Inst) (s : State), k.toNat < s.build.nTT →
    let u := ttAt s k
    let x := argF s 0
    let good (samples : F32) :=
      isFinite x = true ∧ fgt x fZERO = true ∧ isFinite samples = true ∧ fge samples fONE = true
        ∧ flt samples fTWO32 = true
    let byPeriod := fmul u.fs x
    let byBpm := fdiv (fmul u.fs fSIXTY) x
    (good byPeriod →
      exec (.ttSetPeriod k) s = .next (accept (setTt s k { u with interval := BitVec.ofNat 32 (truncI byPeriod) })))
    ∧ (¬good byPeriod → exec (.ttSetPeriod k) s = .next (reject .operand s))
    ∧ (good byBpm →
      exec (.ttSetBpm k) s = .next (accept (setTt s k { u with interval := BitVec.ofNat 32 (truncI byBpm) })))
    ∧ (¬good byBpm → exec (.ttSetBpm k) s = .next (reject .operand s))

/-- TT_SET_DURATION and TT_SET_MODE (R214, R215). -/
def Obligations.DurationAndModeSettings : Prop :=
  ∀ (k : Inst) (s : State), k.toNat < s.build.nTT →
    let u := ttAt s k
    let d := argU s 0
    (1 ≤ d →
      exec (.ttSetDuration k) s
        = .next (accept (setTt s k { u with duration := argWord s 0, step := fdiv fTWO (toF d) })))
    ∧ (d = 0 → exec (.ttSetDuration k) s = .next (reject .operand s))
    ∧ (d = 0 → exec (.ttSetMode k) s = .next (accept (setTt s k { u with mode := .basic, state := .idle, ramp := 0 })))
    ∧ (d = 1 → exec (.ttSetMode k) s = .next (accept (setTt s k { u with mode := .ramped, state := .idle, ramp := 0 })))
    ∧ (1 < d → exec (.ttSetMode k) s = .next (reject .operand s))

/-- TT_PROCESS in mode 0 (R216): fires, with 1.0, when the advanced count reaches the interval; CONFIG without an
interval. -/
def Obligations.TtProcessBasicPulse : Prop :=
  ∀ (k : Inst) (s : State), k.toNat < s.build.nTT →
    let u := ttAt s k
    u.mode = .basic →
      (1 ≤ u.interval.toNat → u.interval.toNat ≤ u.counter.toNat + 1 →
        exec (.ttProcess k) s
          = .next (accept (setRes (setRes (setTt s k { u with counter := 0, state := .triggered }) 0 fONE) 1 1)))
      ∧ (1 ≤ u.interval.toNat → u.counter.toNat + 1 < u.interval.toNat →
        exec (.ttProcess k) s
          = .next (accept (setRes (setRes (setTt s k { u with counter := u.counter + 1, state := .idle }) 0 fZERO) 1
              0)))
      ∧ (u.interval.toNat = 0 → exec (.ttProcess k) s = .next (reject .config s))

/-- TT_PROCESS in mode 1 (R216, R217): the state, then the ramp tracking the state's target; CONFIG without an interval
or a duration. -/
def Obligations.TtProcessRampedTrigger : Prop :=
  ∀ (k : Inst) (s : State), k.toNat < s.build.nTT →
    let u := ttAt s k
    u.mode = .ramped →
      (1 ≤ u.interval.toNat → 1 ≤ u.duration.toNat →
        let fire := u.interval.toNat ≤ u.counter.toNat + 1
        let c := if fire then 0 else u.counter.toNat + 1
        let st := if fire then .triggered else if u.state = .triggered ∧ u.duration.toNat ≤ c then .idle else u.state
        let target := if st = .triggered then fONE else fZERO
        let up := fadd u.ramp u.step
        let down := fsub u.ramp u.step
        let ramp :=
          if flt u.ramp target then (if flt up target then up else target)
          else if flt target u.ramp then (if flt target down then down else target)
          else u.ramp
        exec (.ttProcess k) s
          = .next (accept (setRes (setRes (setTt s k { u with counter := BitVec.ofNat 32 c, state := st, ramp := ramp })
              0 (canonical ramp)) 1 (if st = .triggered then 1 else 0))))
      ∧ ((u.interval.toNat = 0 ∨ u.duration.toNat = 0) → exec (.ttProcess k) s = .next (reject .config s))

/-! ## Read-back commands -/

/-- PA_GET, PA_GET_CFG, WT_GET, WT_GET_CFG, CR_GET and CR_GET_CFG return the fields their rules name (R128, R129, R140,
R141, R158, R159). -/
def Obligations.OscillatorReadback : Prop :=
  ∀ (k : Inst) (s : State),
    (k.toNat < s.build.nPA →
      exec (.paGet k) s
        = .next (accept (setRes (setRes (setRes (setRes s 0 (canonical (paAt s k).phase)) 1
            (canonical (paAt s k).inc)) 2 (canonical (paAt s k).freq)) 3 (canonical (paAt s k).range)))
      ∧ exec (.paGetCfg k) s = .next (accept (setRes s 0 (canonical (paAt s k).fs))))
    ∧ (k.toNat < s.build.nWT →
      exec (.wtGet k) s
        = .next (accept (setRes (setRes (setRes (setRes s 0 (canonical (wtAt s k).phase)) 1
            (canonical (wtAt s k).inc)) 2 (canonical (wtAt s k).freq)) 3 (canonical (wtAt s k).amp)))
      ∧ exec (.wtGetCfg k) s
        = .next (accept (setRes (setRes s 0 (canonical (wtAt s k).fs)) 1
            (if (wtAt s k).interp = .linear then 0 else 1))))
    ∧ (k.toNat < s.build.nCR →
      exec (.crGet k) s
        = .next (accept (setRes (setRes (setRes (setRes s 0 (canonical (crAt s k).vre)) 1
            (canonical (crAt s k).vim)) 2 (canonical (crAt s k).mre)) 3 (canonical (crAt s k).mim)))
      ∧ exec (.crGetCfg k) s
        = .next (accept (setRes (setRes (setRes s 0 (canonical (crAt s k).fs)) 1 (canonical (crAt s k).freq)) 2
            (canonical (crAt s k).amp))))

/-- WT_TABLE_READ, BQ_GET_COEF, BQ_GET_HIST, QZ_TABLE_READ, QZ_GET, TT_GET_STATE and TT_GET_CFG return the fields or
entries their rules name, INDEX for an index or selector out of range (R139, R174, R177, R193, R198, R218, R219). -/
def Obligations.TableFilterAndTimerReadback : Prop :=
  ∀ (k : Inst) (s : State),
    let i := argU s 0
    (i < s.build.wtLen → exec .wtTableRead s = .next (accept (setRes s 0 (canonical (wtabAt s i)))))
    ∧ (s.build.wtLen ≤ i → exec .wtTableRead s = .next (reject .index s))
    ∧ (k.toNat < s.build.nBQ →
      let u := bqAt s k
      let gives (sel : Nat) (v : F32) := i = sel → exec (.bqGetCoef k) s = .next (accept (setRes s 0 (canonical v)))
      gives 0 u.b0 ∧ gives 1 u.b1 ∧ gives 2 u.b2 ∧ gives 3 u.a1 ∧ gives 4 u.a2
        ∧ (5 ≤ i → exec (.bqGetCoef k) s = .next (reject .index s))
        ∧ exec (.bqGetHist k) s
          = .next (accept (setRes (setRes (setRes (setRes s 0 (canonical u.x1)) 1 (canonical u.x2)) 2
              (canonical u.y1)) 3 (canonical u.y2))))
    ∧ (k.toNat < s.build.nQZ →
      (i < s.build.qzMax →
        exec (.qzTableRead k) s
          = .next (accept (setRes (setRes s 0 (canonical (qtAt s k i).bound)) 1 (canonical (qtAt s k i).q))))
      ∧ (s.build.qzMax ≤ i → exec (.qzTableRead k) s = .next (reject .index s))
      ∧ exec (.qzGet k) s = .next (accept (setRes (setRes s 0 (qzAt s k).n) 1 (qzAt s k).transpose)))
    ∧ (k.toNat < s.build.nTT →
      let u := ttAt s k
      exec (.ttGetState k) s
          = .next (accept (setRes (setRes (setRes (setRes s 0 u.counter) 1 (if u.state = .triggered then 1 else 0)) 2
              (canonical u.ramp)) 3 (canonical u.step)))
        ∧ exec (.ttGetCfg k) s
          = .next (accept (setRes (setRes (setRes (setRes s 0 (canonical u.fs)) 1 u.interval) 2 u.duration) 3
              (if u.mode = .ramped then 1 else 0))))

/-! ## Many samples (46_trigger_timer.md R220) -/

/-- In mode 0 with interval N and the counter at 0, the n-th TT_PROCESS returns 1.0 exactly when N divides n, and the
counter is then n mod N (R220). -/
def Obligations.PulseEveryIntervalSamples : Prop :=
  ∀ (k : Inst) (s : State), k.toNat < s.build.nTT →
    let N := (ttAt s k).interval.toNat
    (ttAt s k).mode = .basic → (ttAt s k).counter = 0 → 1 ≤ N →
      ∀ n, 1 ≤ n → ∃ t, repeatCommand (.ttProcess k) n s = .next t
        ∧ resWord t 0 = (if n % N = 0 then fONE else fZERO) ∧ resWord t 1 = (if n % N = 0 then 1 else 0)
        ∧ (ttAt t k).counter.toNat = n % N

/-- In mode 1 from Idle with the counter at 0, interval N and duration D < N, the gate is 1 on commands N + m*N to
N + m*N + D - 1, for every m, and on no other (R220). -/
def Obligations.GateOpenForDuration : Prop :=
  ∀ (k : Inst) (s : State), k.toNat < s.build.nTT →
    let N := (ttAt s k).interval.toNat
    let D := (ttAt s k).duration.toNat
    (ttAt s k).mode = .ramped → (ttAt s k).state = .idle → (ttAt s k).counter = 0 → 1 ≤ D → D < N →
      ∀ n, 1 ≤ n → ∃ t, repeatCommand (.ttProcess k) n s = .next t
        ∧ resWord t 1 = (if N ≤ n ∧ n % N < D then 1 else 0) ∧ (ttAt t k).counter.toNat = n % N
end

