-- ==== Sys2Proof/Laws/Float.lean ====
section
/-! SUPPORT. What the rounding of 00_scope.md R12 does, once: the encodings below the sign bit order the magnitudes
(`magBits`), rounding takes a value to a nearest one (`roundNat_nearest`), is monotone (`roundNat_mono`) and takes a
representable value to itself (`roundNat_exact`); and the fields, class and value of what `pack` builds. -/

namespace Sys2Proof.Machine

/-- The magnitude, in units of 2^-149, of the encoding with the given bits below the sign (exponents unbounded). -/
def magBits (b : Nat) : Nat :=
  if b / 2 ^ 23 = 0 then b % 2 ^ 23 else (b % 2 ^ 23 + 2 ^ 23) * 2 ^ (b / 2 ^ 23 - 1)

/-- `roundBits` without its bound at infinity. -/
def roundNat (num den : Nat) : Nat :=
  (Nat.log2 (num / den) - 23) * 2 ^ 23 + nearestEven num (den * 2 ^ (Nat.log2 (num / den) - 23))

theorem roundBits_eq_min (num den : Nat) : roundBits num den = min (roundNat num den) infinityBits := rfl

/-! ### Magnitudes -/

/-- A magnitude is read from the 31 bits below the sign. -/
theorem magnitude_eq_magBits (v : F32) : magnitude v = magBits (v.toNat % 2 ^ 31) := by
  have h1 : v.toNat % 2 ^ 31 / 2 ^ 23 = exponentOf v := by simp only [exponentOf]; omega
  have h2 : v.toNat % 2 ^ 31 % 2 ^ 23 = fractionOf v := by simp only [fractionOf]; omega
  simp only [magnitude, magBits, h1, h2]

theorem magBits_of_fields {e f : Nat} (hf : f < 2 ^ 23) :
    magBits (e * 2 ^ 23 + f) = if e = 0 then f else (f + 2 ^ 23) * 2 ^ (e - 1) := by
  have hq : (e * 2 ^ 23 + f) / 2 ^ 23 = e := by omega
  have hr : (e * 2 ^ 23 + f) % 2 ^ 23 = f := by omega
  rw [magBits, hq, hr]

/-- The step from one encoding to the next is one unit in the last place. -/
theorem magBits_succ (b : Nat) : magBits (b + 1) = magBits b + 2 ^ (b / 2 ^ 23 - 1) := by
  obtain ⟨e, f, hf, rfl⟩ : ∃ e f, f < 2 ^ 23 ∧ b = e * 2 ^ 23 + f :=
    ⟨b / 2 ^ 23, b % 2 ^ 23, Nat.mod_lt _ (by decide), by omega⟩
  have hq : (e * 2 ^ 23 + f) / 2 ^ 23 = e := by omega
  rw [hq, magBits_of_fields hf]
  rcases Nat.lt_or_ge (f + 1) (2 ^ 23) with h | h
  · rw [Nat.add_assoc, magBits_of_fields h]
    by_cases he : e = 0
    · rw [if_pos he, if_pos he, he, Nat.zero_sub, pow_zero]
    · rw [if_neg he, if_neg he]; ring
  · have hnext : e * 2 ^ 23 + f + 1 = (e + 1) * 2 ^ 23 + 0 := by omega
    rw [hnext, magBits_of_fields (by decide), if_neg (Nat.succ_ne_zero e), Nat.add_sub_cancel]
    by_cases he : e = 0
    · rw [if_pos he, he]; omega
    · obtain ⟨n, rfl⟩ : ∃ n, e = n + 1 := ⟨e - 1, by omega⟩
      have hfe : f + 2 ^ 23 = 2 ^ 24 - 1 := by omega
      rw [if_neg he, hfe, Nat.add_sub_cancel, pow_succ, Nat.sub_mul, Nat.one_mul,
        Nat.sub_add_cancel (Nat.le_mul_of_pos_left _ (by decide))]
      ring

theorem magBits_strictMono : StrictMono magBits :=
  strictMono_nat_of_lt_succ fun b => by
    rw [magBits_succ]; exact Nat.lt_add_of_pos_right (Nat.two_pow_pos _)

theorem magBits_injective : Function.Injective magBits := magBits_strictMono.injective

/-- The magnitude of a significand `m` at exponent `e`, also when `m` is the next power of two. -/
theorem magBits_scaled {e m : Nat} (h : (e = 0 ∧ m ≤ 2 ^ 24) ∨ (2 ^ 23 ≤ m ∧ m ≤ 2 ^ 24)) :
    magBits (e * 2 ^ 23 + m) = m * 2 ^ e := by
  rcases Nat.lt_or_ge m (2 ^ 23) with hm | hm
  · have he : e = 0 := by omega
    rw [magBits_of_fields hm, if_pos he, he, pow_zero, Nat.mul_one]
  · rcases Nat.lt_or_ge m (2 ^ 24) with hm' | hm'
    · have hs : e * 2 ^ 23 + m = (e + 1) * 2 ^ 23 + (m - 2 ^ 23) := by omega
      rw [hs, magBits_of_fields (by omega), if_neg (Nat.succ_ne_zero e), Nat.add_sub_cancel, Nat.sub_add_cancel hm]
    · have hs : e * 2 ^ 23 + m = (e + 2) * 2 ^ 23 + 0 := by omega
      have hm24 : m = 2 ^ 24 := by omega
      rw [hs, magBits_of_fields (by decide), if_neg (Nat.succ_ne_zero (e + 1)), hm24]
      have he : e + 2 - 1 = e + 1 := rfl
      rw [he, pow_succ]
      omega

/-! ### Rounding -/

/-- Rounding to an integer errs by at most half, both ways. -/
theorem nearestEven_error {num den : Nat} (hd : 0 < den) :
    2 * (nearestEven num den * den) ≤ 2 * num + den ∧ 2 * num ≤ 2 * (nearestEven num den * den) + den := by
  have hdm : num / den * den + num % den = num := by rw [Nat.mul_comm]; exact Nat.div_add_mod num den
  have hlt : num % den < den := Nat.mod_lt _ hd
  unfold nearestEven
  split
  · next h => rw [Nat.add_mul]; omega
  · next h => omega

/-- Rounding to an integer is the integer part or one more. -/
theorem nearestEven_bounds (num den : Nat) :
    num / den ≤ nearestEven num den ∧ nearestEven num den ≤ num / den + 1 := by
  unfold nearestEven; split <;> omega

/-- Rounding to an integer depends on the ratio alone. -/
theorem nearestEven_scale {num den c : Nat} (hc : 0 < c) :
    nearestEven (num * c) (den * c) = nearestEven num den := by
  have h1 : num * c / (den * c) = num / den := Nat.mul_div_mul_right num den hc
  have h2 : num * c % (den * c) = num % den * c := Nat.mul_mod_mul_right c num den
  have h3 : den * c < 2 * (num % den * c) ↔ den < 2 * (num % den) := by
    rw [← Nat.mul_assoc]; exact Nat.mul_lt_mul_right hc
  have h4 : 2 * (num % den * c) = den * c ↔ 2 * (num % den) = den := by
    rw [← Nat.mul_assoc]; exact Nat.mul_right_cancel_iff hc
  unfold nearestEven
  simp only [h1, h2, h3, h4]

/-- Rounding depends on the ratio alone. -/
theorem roundNat_scale {num den c : Nat} (hc : 0 < c) : roundNat (num * c) (den * c) = roundNat num den := by
  have h1 : num * c / (den * c) = num / den := Nat.mul_div_mul_right num den hc
  unfold roundNat
  rw [h1, Nat.mul_right_comm den c, nearestEven_scale hc]

/-- The exponent and significand that rounding picks: `m` is the value at exponent `e` rounded to an integer, and at a
positive exponent the value is not below 2^23 there. -/
theorem roundNat_spec (num den : Nat) :
    ∃ e m, roundNat num den = e * 2 ^ 23 + m ∧ m = nearestEven num (den * 2 ^ e)
      ∧ ((e = 0 ∧ m ≤ 2 ^ 24) ∨ (2 ^ 23 ≤ m ∧ m ≤ 2 ^ 24)) ∧ (e ≠ 0 → 2 ^ 23 * (den * 2 ^ e) ≤ num) := by
  refine ⟨Nat.log2 (num / den) - 23, _, rfl, rfl, ?_, ?_⟩
  all_goals
    set e := Nat.log2 (num / den) - 23 with he
    have hD : num / (den * 2 ^ e) = num / den / 2 ^ e := (Nat.div_div_eq_div_mul num den (2 ^ e)).symm
  · have hb := nearestEven_bounds num (den * 2 ^ e)
    rw [hD] at hb
    have hup : num / den / 2 ^ e < 2 ^ 24 := by
      rw [Nat.div_lt_iff_lt_mul (Nat.two_pow_pos e), ← pow_add]
      exact lt_of_lt_of_le Nat.lt_log2_self (Nat.pow_le_pow_right (by decide) (by omega))
    by_cases h0 : e = 0
    · left; exact ⟨h0, by omega⟩
    · right
      have hne : num / den ≠ 0 := by
        intro hz; rw [hz] at he; simp at he; exact h0 he
      have hlo : 2 ^ 23 ≤ num / den / 2 ^ e := by
        rw [Nat.le_div_iff_mul_le (Nat.two_pow_pos e), ← pow_add]
        exact le_trans (Nat.pow_le_pow_right (by decide) (by omega)) (Nat.log2_self_le hne)
      omega
  · intro h0
    have hne : num / den ≠ 0 := by
      intro hz; rw [hz] at he; simp at he; exact h0 he
    have hlo : 2 ^ 23 * 2 ^ e ≤ num / den := by
      rw [← pow_add]
      exact le_trans (Nat.pow_le_pow_right (by decide) (by omega)) (Nat.log2_self_le hne)
    calc 2 ^ 23 * (den * 2 ^ e) = 2 ^ 23 * 2 ^ e * den := by ring
      _ ≤ num / den * den := Nat.mul_le_mul_right den hlo
      _ ≤ num := Nat.div_mul_le_self num den

/-- Rounding takes a value to a nearest one: no encoding's magnitude is closer to `num / den` (R12). -/
theorem roundNat_nearest {num den : Nat} (hd : 0 < den) (b : Nat) :
    |(magBits (roundNat num den) * den : Int) - num| ≤ |(magBits b * den : Int) - num| := by
  obtain ⟨e, m, hr, hm, hcase, hlow⟩ := roundNat_spec num den
  have hD : 0 < den * 2 ^ e := Nat.mul_pos hd (Nat.two_pow_pos e)
  have herr := nearestEven_error (num := num) hD
  rw [← hm] at herr
  have hM : magBits (roundNat num den) = m * 2 ^ e := by rw [hr]; exact magBits_scaled hcase
  have hMd : magBits (roundNat num den) * den = m * (den * 2 ^ e) := by rw [hM]; ring
  rcases Nat.lt_trichotomy b (roundNat num den) with hb | hb | hb
  · -- below: the step down is a whole step at exponent e, or the value is not below the rounded one
    have hmono : magBits b ≤ magBits (roundNat num den - 1) := magBits_strictMono.monotone (by omega)
    have hsucc := magBits_succ (roundNat num den - 1)
    rw [Nat.sub_add_cancel (by omega)] at hsucc
    by_cases hlowcase : e ≠ 0 ∧ m = 2 ^ 23
    · have h1 : magBits (roundNat num den) * den ≤ num := by rw [hMd, hlowcase.2]; exact hlow hlowcase.1
      have h2 : magBits b * den ≤ magBits (roundNat num den) * den :=
        Nat.mul_le_mul_right den (magBits_strictMono.monotone hb.le)
      zify at h1 h2
      rw [abs_of_nonpos (by omega), abs_of_nonpos (by omega)]
      omega
    · have hexp : e ≤ (roundNat num den - 1) / 2 ^ 23 - 1 := by
        rw [hr]
        rcases Nat.eq_zero_or_pos e with h0 | h0
        · omega
        · have : 2 ^ 23 < m := by
            rcases hcase with h | h
            · omega
            · rcases Nat.lt_or_ge (2 ^ 23) m with h' | h'
              · exact h'
              · exact absurd ⟨by omega, by omega⟩ hlowcase
          have : e + 1 ≤ (e * 2 ^ 23 + m - 1) / 2 ^ 23 := by
            rw [Nat.le_div_iff_mul_le (by decide)]; omega
          omega
      have hpow : 2 ^ e ≤ 2 ^ ((roundNat num den - 1) / 2 ^ 23 - 1) := Nat.pow_le_pow_right (by decide) hexp
      have h1 : magBits b * den + den * 2 ^ e ≤ magBits (roundNat num den) * den := by
        have : (magBits b + 2 ^ e) * den ≤ magBits (roundNat num den) * den := Nat.mul_le_mul_right den (by omega)
        calc magBits b * den + den * 2 ^ e = (magBits b + 2 ^ e) * den := by ring
          _ ≤ _ := this
      rw [← hMd] at herr
      zify at h1 herr
      have hb' : |(magBits b * den : Int) - num| = num - magBits b * den := by
        rw [abs_of_nonpos (by push_cast at *; omega)]; ring
      rw [hb', abs_le]
      push_cast at *
      constructor <;> omega
  · rw [hb]
  · have hmono : magBits (roundNat num den + 1) ≤ magBits b := magBits_strictMono.monotone (by omega)
    rw [magBits_succ] at hmono
    have hexp : e ≤ roundNat num den / 2 ^ 23 - 1 := by
      rw [hr]
      rcases hcase with h | h
      · omega
      · have : e + 1 ≤ (e * 2 ^ 23 + m) / 2 ^ 23 := by
          rw [Nat.le_div_iff_mul_le (by decide)]; omega
        omega
    have hpow : 2 ^ e ≤ 2 ^ (roundNat num den / 2 ^ 23 - 1) := Nat.pow_le_pow_right (by decide) hexp
    have h1 : magBits (roundNat num den) * den + den * 2 ^ e ≤ magBits b * den := by
      have : (magBits (roundNat num den) + 2 ^ e) * den ≤ magBits b * den := Nat.mul_le_mul_right den (by omega)
      calc magBits (roundNat num den) * den + den * 2 ^ e = (magBits (roundNat num den) + 2 ^ e) * den := by ring
        _ ≤ _ := this
    rw [← hMd] at herr
    zify at h1 herr
    have hb' : |(magBits b * den : Int) - num| = magBits b * den - num := abs_of_nonneg (by push_cast at *; omega)
    rw [hb', abs_le]
    push_cast at *
    constructor <;> omega

/-- Rounding takes a representable value to itself. -/
theorem roundNat_exact {den : Nat} (hd : 0 < den) (b : Nat) : roundNat (magBits b * den) den = b := by
  have h := roundNat_nearest (num := magBits b * den) hd b
  push_cast at h
  rw [sub_self, abs_zero] at h
  have h0 := abs_nonpos_iff.mp h
  have h1 : magBits (roundNat (magBits b * den) den) * den = magBits b * den := by zify; omega
  exact magBits_injective (Nat.eq_of_mul_eq_mul_right hd h1)

/-- Rounding is monotone in the value. -/
theorem roundNat_mono {n d n' d' : Nat} (hd : 0 < d) (hd' : 0 < d') (h : n * d' ≤ n' * d) :
    roundNat n d ≤ roundNat n' d' := by
  by_contra hlt
  push Not at hlt
  have hM := magBits_strictMono hlt
  have h1 := roundNat_nearest (num := n) hd (roundNat n' d')
  have h2 := roundNat_nearest (num := n') hd' (roundNat n d)
  generalize magBits (roundNat n d) = A at *
  generalize magBits (roundNat n' d') = B at *
  have hA : (B * d : Int) < A * d := by exact_mod_cast Nat.mul_lt_mul_of_pos_right hM hd
  have hB : (B * d' : Int) < A * d' := by exact_mod_cast Nat.mul_lt_mul_of_pos_right hM hd'
  have e1 : (A * d + B * d : Int) ≤ 2 * n := by
    have := le_abs_self ((A * d : Int) - n)
    by_contra hc
    rcases abs_cases ((B * d : Int) - n) with ⟨v, -⟩ | ⟨v, -⟩ <;> linarith
  have e2 : (2 * n' : Int) ≤ A * d' + B * d' := by
    have := neg_abs_le ((B * d' : Int) - n')
    by_contra hc
    rcases abs_cases ((A * d' : Int) - n') with ⟨v, -⟩ | ⟨v, -⟩ <;> linarith
  have f1 : (A + B) * d ≤ 2 * n := by zify; linarith
  have f2 : 2 * n' ≤ (A + B) * d' := by zify; linarith
  have heq : n * d' = n' * d := by
    refine le_antisymm h ?_
    have g1 : (A + B) * d * d' ≤ 2 * n * d' := Nat.mul_le_mul_right d' f1
    have g2 : 2 * n' * d ≤ (A + B) * d' * d := Nat.mul_le_mul_right d f2
    have g3 : (A + B) * d' * d = (A + B) * d * d' := by ring
    have g4 : 2 * n' * d = 2 * (n' * d) := by ring
    have g5 : 2 * n * d' = 2 * (n * d') := by ring
    omega
  have hsame : roundNat n d = roundNat n' d' := by
    rw [← roundNat_scale (num := n) (den := d) hd', ← roundNat_scale (num := n') (den := d') hd, heq, Nat.mul_comm d d']
  omega

/-- Rounding to binary32 is monotone in the value. -/
theorem roundBits_mono {n d n' d' : Nat} (hd : 0 < d) (hd' : 0 < d') (h : n * d' ≤ n' * d) :
    roundBits n d ≤ roundBits n' d' := by
  have := roundNat_mono hd hd' h
  simp only [roundBits_eq_min]
  omega

/-- Rounding to binary32 takes a binary32 magnitude to itself. -/
theorem roundBits_exact {den : Nat} (hd : 0 < den) {b : Nat} (hb : b ≤ infinityBits) :
    roundBits (magBits b * den) den = b := by
  rw [roundBits_eq_min, roundNat_exact hd b]
  exact Nat.min_eq_left hb

@[simp] theorem roundBits_zero (den : Nat) : roundBits 0 den = 0 := by
  simp [roundBits, nearestEven]

/-! ### What `pack` builds -/

theorem infinityBits_lt : infinityBits < 2 ^ 31 := by decide

theorem toNat_pack {neg : Bool} {bits : Nat} (h : bits < 2 ^ 31) :
    (pack neg bits).toNat = bits + if neg then 2 ^ 31 else 0 := by
  simp only [pack, BitVec.toNat_ofNat]
  cases neg <;> simp <;> omega

theorem signOf_pack {neg : Bool} {bits : Nat} (h : bits < 2 ^ 31) : signOf (pack neg bits) = neg := by
  rw [signOf, toNat_pack h]
  cases neg
  · simpa using h
  · simp

theorem magnitude_pack {neg : Bool} {bits : Nat} (h : bits < 2 ^ 31) : magnitude (pack neg bits) = magBits bits := by
  rw [magnitude_eq_magBits, toNat_pack h]
  congr 1
  cases neg <;> simp <;> omega

theorem valueOf_pack {neg : Bool} {bits : Nat} (h : bits < 2 ^ 31) :
    valueOf (pack neg bits) = if neg then -(magBits bits : Int) else (magBits bits : Int) := by
  rw [valueOf, signOf_pack h, magnitude_pack h]

theorem exponentOf_pack {neg : Bool} {bits : Nat} (h : bits < 2 ^ 31) :
    exponentOf (pack neg bits) = bits / 2 ^ 23 := by
  rw [exponentOf, toNat_pack h]
  cases neg <;> simp <;> omega

theorem isFinite_pack {neg : Bool} {bits : Nat} (h : bits ≤ infinityBits) :
    isFinite (pack neg bits) = decide (bits < infinityBits) := by
  have hlt : bits < 2 ^ 31 := lt_of_le_of_lt h infinityBits_lt
  rw [isFinite, exponentOf_pack hlt]
  have hinf : infinityBits = 255 * 2 ^ 23 := by decide
  by_cases hb : bits < infinityBits
  · have hne : bits / 2 ^ 23 ≠ 255 := by omega
    rw [decide_eq_true hb]
    exact bne_iff_ne.mpr hne
  · have heq : bits / 2 ^ 23 = 255 := by omega
    rw [decide_eq_false hb, heq]
    rfl

theorem isNaN_pack {neg : Bool} {bits : Nat} (h : bits ≤ infinityBits) : isNaN (pack neg bits) = false := by
  have hlt : bits < 2 ^ 31 := lt_of_le_of_lt h infinityBits_lt
  have hf : fractionOf (pack neg bits) = bits % 2 ^ 23 := by
    rw [fractionOf, toNat_pack hlt]
    cases neg
    · simp
    · simp only [if_true]; omega
  rw [isNaN, exponentOf_pack hlt, hf]
  have hinf : infinityBits = 255 * 2 ^ 23 := by decide
  by_cases he : bits / 2 ^ 23 = 255
  · have hz : bits % 2 ^ 23 = 0 := by omega
    rw [he, hz]
    rfl
  · rw [beq_false_of_ne he, Bool.false_and]

theorem roundBits_le (num den : Nat) : roundBits num den ≤ infinityBits := Nat.min_le_right _ _

/-- A result of rounding is never a NaN. -/
theorem isNaN_roundTo (neg : Bool) (num den : Nat) : isNaN (roundTo neg num den) = false :=
  isNaN_pack (roundBits_le num den)

/-! ### Classes -/

theorem isFinite_iff {v : F32} : isFinite v = true ↔ isNaN v = false ∧ isInf v = false := by
  simp only [isFinite, isNaN, isInf]
  by_cases h : exponentOf v = 255 <;> by_cases h' : fractionOf v = 0 <;> simp [h, h']

/-- The bits below the sign of a finite value are below those of an infinity. -/
theorem bits_lt_of_isFinite {v : F32} (h : isFinite v = true) : v.toNat % 2 ^ 31 < infinityBits := by
  have : exponentOf v ≠ 255 := by simpa [isFinite] using h
  simp only [exponentOf] at this
  simp only [infinityBits]
  omega

/-- A binary32 encoding is its sign and the bits below it. -/
theorem pack_signOf (v : F32) : pack (signOf v) (v.toNat % 2 ^ 31) = v := by
  have hv : v.toNat < 2 ^ 32 := v.isLt
  apply BitVec.eq_of_toNat_eq
  rw [toNat_pack (Nat.mod_lt _ (by decide))]
  by_cases h : 2 ^ 31 ≤ v.toNat
  · rw [signOf, decide_eq_true h, if_pos rfl]; omega
  · rw [signOf, decide_eq_false h, if_neg (by decide)]; omega

/-- An integer that fits 24 bits is a binary32 value (R15). -/
theorem toF_exact {n : Nat} (h : n ≤ 2 ^ 24) :
    isFinite (toF n) = true ∧ signOf (toF n) = false ∧ magnitude (toF n) = n * 2 ^ 149 := by
  have key : ∃ b, b < infinityBits ∧ magBits b = n * 2 ^ 149 := by
    rcases Nat.eq_zero_or_pos n with h0 | h0
    · exact ⟨0, by decide, by simp [h0, magBits]⟩
    · have hl : Nat.log2 n ≤ 24 := by
        have h1 := Nat.log2_self_le (n := n) (by omega)
        by_contra hc
        have : 2 ^ 25 ≤ 2 ^ Nat.log2 n := Nat.pow_le_pow_right (by decide) (by omega)
        omega
      have hlo := Nat.log2_self_le (n := n) (by omega)
      have hhi : n < 2 ^ (Nat.log2 n + 1) := Nat.lt_log2_self
      rcases Nat.lt_or_ge (Nat.log2 n) 24 with hl' | hl'
      · refine ⟨(126 + Nat.log2 n) * 2 ^ 23 + n * 2 ^ (23 - Nat.log2 n), ?_, ?_⟩
        · have : n * 2 ^ (23 - Nat.log2 n) < 2 ^ 24 := by
            calc n * 2 ^ (23 - Nat.log2 n) < 2 ^ (Nat.log2 n + 1) * 2 ^ (23 - Nat.log2 n) :=
                  Nat.mul_lt_mul_of_pos_right hhi (Nat.two_pow_pos _)
              _ = 2 ^ 24 := by rw [← pow_add]; congr 1; omega
          simp only [infinityBits]; omega
        · rw [magBits_scaled]
          · rw [Nat.mul_assoc, ← pow_add]; congr 2; omega
          · right
            constructor
            · calc 2 ^ 23 = 2 ^ Nat.log2 n * 2 ^ (23 - Nat.log2 n) := by rw [← pow_add]; congr 1; omega
                _ ≤ _ := Nat.mul_le_mul_right _ hlo
            · have : n * 2 ^ (23 - Nat.log2 n) < 2 ^ 24 := by
                calc n * 2 ^ (23 - Nat.log2 n) < 2 ^ (Nat.log2 n + 1) * 2 ^ (23 - Nat.log2 n) :=
                      Nat.mul_lt_mul_of_pos_right hhi (Nat.two_pow_pos _)
                  _ = 2 ^ 24 := by rw [← pow_add]; congr 1; omega
              omega
      · have hn : n = 2 ^ 24 := by
          have : 2 ^ 24 ≤ 2 ^ Nat.log2 n := Nat.pow_le_pow_right (by decide) hl'
          omega
        refine ⟨149 * 2 ^ 23 + 2 ^ 24, by decide, ?_⟩
        rw [magBits_scaled (by right; decide), hn]
  obtain ⟨b, hb, hm⟩ := key
  have hr : roundBits (n * 2 ^ 149) 1 = b := by
    have := roundNat_exact (den := 1) (by decide) b
    rw [roundBits_eq_min, ← hm]
    rw [Nat.mul_one] at this
    rw [this]
    exact Nat.min_eq_left hb.le
  have hlt : b < 2 ^ 31 := lt_trans hb infinityBits_lt
  unfold toF roundTo
  rw [hr]
  refine ⟨?_, signOf_pack hlt, ?_⟩
  · rw [isFinite_pack hb.le]; simpa using hb
  · rw [magnitude_pack hlt, hm]

end Sys2Proof.Machine
end

