-- ==== Sys2Proof/Laws/Bq.lean ====
section
/-! SUPPORT. What an unconfigured filter returns (44_biquad.md R170, R175, R176; 70_reset_and_hazards.md R254): with all
coefficients +0.0 every output is a zero, and the equation fixes its sign (log 14). -/

namespace Sys2Proof.Machine

theorem zero_lt_two_pow_31 : 0 < 2 ^ 31 := by decide

/-- A zero of either sign is finite and has the value 0. -/
theorem isFinite_zero (neg : Bool) : isFinite (pack neg 0) = true := by cases neg <;> decide
theorem valueOf_zero (neg : Bool) : valueOf (pack neg 0) = 0 := by cases neg <;> decide
theorem signOf_zero (neg : Bool) : signOf (pack neg 0) = neg := signOf_pack zero_lt_two_pow_31

/-- +0.0 times a finite value is a zero of the value's sign (R12, log 11). -/
theorem fmul_fZERO {v : F32} (hv : isFinite v = true) : fmul fZERO v = pack (signOf v) 0 := by
  obtain ⟨hn, hi⟩ := isFinite_iff.mp hv
  have h0 : isNaN fZERO = false ∧ isInf fZERO = false ∧ magnitude fZERO = 0 ∧ signOf fZERO = false := by decide
  simp [fmul, hn, hi, h0, roundTo]

/-- A sum of two zeros is -0.0 only if both are (R12, log 11). -/
theorem fadd_zeros (a b : Bool) : fadd (pack a 0) (pack b 0) = pack (a && b) 0 := by
  cases a <;> cases b <;> decide

/-- A difference of two zeros is -0.0 only for -0.0 less +0.0 (R12, log 11). -/
theorem fsub_zeros (a b : Bool) : fsub (pack a 0) (pack b 0) = pack (a && !b) 0 := by
  cases a <;> cases b <;> decide

/-- The difference equation with all coefficients +0.0 (R175): a zero, -0.0 exactly if the input and both inputs before
it have the sign bit set and neither output before it has. -/
theorem difference_of_zero_coefficients {u : BqInst} {x : F32}
    (hb0 : u.b0 = fZERO) (hb1 : u.b1 = fZERO) (hb2 : u.b2 = fZERO) (ha1 : u.a1 = fZERO) (ha2 : u.a2 = fZERO)
    (hx : isFinite x = true) (hx1 : isFinite u.x1 = true) (hx2 : isFinite u.x2 = true)
    (hy1 : isFinite u.y1 = true) (hy2 : isFinite u.y2 = true) :
    difference u x
      = pack (((signOf x && signOf u.x1) && signOf u.x2) && !signOf u.y1 && !signOf u.y2) 0 := by
  simp only [difference, hb0, hb1, hb2, ha1, ha2, fmul_fZERO hx, fmul_fZERO hx1, fmul_fZERO hx2, fmul_fZERO hy1,
    fmul_fZERO hy2, fadd_zeros, fsub_zeros]

/-- R254's row for a filter that was not configured, as a value: every output compares equal to +0.0. -/
theorem difference_of_zero_coefficients_feq {u : BqInst} {x : F32}
    (hb0 : u.b0 = fZERO) (hb1 : u.b1 = fZERO) (hb2 : u.b2 = fZERO) (ha1 : u.a1 = fZERO) (ha2 : u.a2 = fZERO)
    (hx : isFinite x = true) (hx1 : isFinite u.x1 = true) (hx2 : isFinite u.x2 = true)
    (hy1 : isFinite u.y1 = true) (hy2 : isFinite u.y2 = true) : feq (difference u x) fZERO = true := by
  rw [difference_of_zero_coefficients hb0 hb1 hb2 ha1 ha2 hx hx1 hx2 hy1 hy2]
  generalize (((signOf x && signOf u.x1) && signOf u.x2) && !signOf u.y1 && !signOf u.y2) = neg
  cases neg <;> decide

end Sys2Proof.Machine
end

