-- ==== Sys2Proof/Laws/Memory.lean ====
section
/-! SUPPORT. What the operations on tables do: a read after a write, and the canonical form they keep (20_memory.md
R68 to R71). -/

namespace Sys2Proof.Machine

variable {α : Type} [DecidableEq α] {d : α}

theorem Memory.wfFrom_mono {lo lo' : Nat} (h : lo' ≤ lo) {m : Memory α} (hm : Memory.wfFrom d lo m = true) :
    Memory.wfFrom d lo' m = true := by
  cases m with
  | nil => rfl
  | cons e rest =>
    simp only [Memory.wfFrom, Bool.and_eq_true, decide_eq_true_eq] at hm ⊢
    exact ⟨⟨le_trans h hm.1.1, hm.1.2⟩, hm.2⟩

/-- Below the first index a canonical table can list, it reads as the default. -/
theorem Memory.read_below {lo i : Nat} (h : i < lo) {m : Memory α} (hm : Memory.wfFrom d lo m = true) :
    Memory.read d m i = d := by
  induction m generalizing lo with
  | nil => rfl
  | cons e rest ih =>
    simp only [Memory.wfFrom, Bool.and_eq_true, decide_eq_true_eq] at hm
    have hne : i ≠ e.1 := by omega
    simp only [Memory.read, hne, if_false]
    exact ih (by omega) hm.2

/-- A read after a write, from the first index a canonical table can list. -/
theorem Memory.read_write_from {lo i j : Nat} {v : α} {m : Memory α} (hm : Memory.wfFrom d lo m = true) :
    Memory.read d (Memory.write d m i v) j = if j = i then v else Memory.read d m j := by
  induction m generalizing lo with
  | nil => by_cases hv : v = d <;> simp [Memory.write, Memory.read, hv]
  | cons e rest ih =>
    simp only [Memory.wfFrom, Bool.and_eq_true, decide_eq_true_eq] at hm
    simp only [Memory.write]
    split
    · next hlt =>
      by_cases hv : v = d
      · simp only [hv, if_true]
        by_cases hj : j = i
        · have hne : i ≠ e.1 := by omega
          simp only [hj, Memory.read, hne, if_true, if_false]
          exact Memory.read_below (by omega) hm.2
        · simp [hj]
      · simp [hv, Memory.read]
    · split
      · next heq =>
        by_cases hv : v = d
        · simp only [hv, if_true]
          by_cases hj : j = i
          · simp only [hj, if_true]
            exact Memory.read_below (by omega) hm.2
          · have hne : j ≠ e.1 := by omega
            simp [hj, Memory.read, hne]
        · by_cases hj : j = i
          · simp [hv, hj, Memory.read]
          · have hne : j ≠ e.1 := by omega
            simp [hv, hj, Memory.read, hne]
      · next hne' =>
        simp only [Memory.read]
        by_cases hj : j = e.1
        · have : j ≠ i := by omega
          simp [hj]
          intro h; omega
        · simp only [hj, if_false]
          exact ih hm.2

/-- A read after a write: the entry written gives the value written, every other entry is left alone. -/
theorem Memory.read_write {i j : Nat} {v : α} {m : Memory α} (hm : Memory.wf d m = true) :
    Memory.read d (Memory.write d m i v) j = if j = i then v else Memory.read d m j :=
  Memory.read_write_from hm

theorem Memory.wfFrom_write {lo i : Nat} (hlo : lo ≤ i) {v : α} {m : Memory α} (hm : Memory.wfFrom d lo m = true) :
    Memory.wfFrom d lo (Memory.write d m i v) = true := by
  induction m generalizing lo with
  | nil => by_cases hv : v = d <;> simp [Memory.write, Memory.wfFrom, hv, hlo]
  | cons e rest ih =>
    have hm' := hm
    simp only [Memory.wfFrom, Bool.and_eq_true, decide_eq_true_eq] at hm
    simp only [Memory.write]
    split
    · next hlt =>
      by_cases hv : v = d
      · simpa [hv] using hm'
      · simp only [hv, if_false, Memory.wfFrom, Bool.and_eq_true, decide_eq_true_eq]
        exact ⟨⟨hlo, hv⟩, ⟨by omega, hm.1.2⟩, hm.2⟩
    · split
      · next heq =>
        by_cases hv : v = d
        · simp only [hv, if_true]
          exact Memory.wfFrom_mono (by omega) hm.2
        · simp only [hv, if_false, Memory.wfFrom, Bool.and_eq_true, decide_eq_true_eq]
          exact ⟨⟨hlo, hv⟩, heq ▸ hm.2⟩
      · next hne =>
        simp only [Memory.wfFrom, Bool.and_eq_true, decide_eq_true_eq]
        exact ⟨hm.1, ih (by omega) hm.2⟩

/-- Writing keeps the canonical form. -/
theorem Memory.wf_write {i : Nat} {v : α} {m : Memory α} (hm : Memory.wf d m = true) :
    Memory.wf d (Memory.write d m i v) = true := Memory.wfFrom_write (Nat.zero_le i) hm

/-- Writing below the length keeps every listed index below it. -/
theorem Memory.below_write {n i : Nat} (hi : i < n) {v : α} {m : Memory α} (hm : Memory.below n m = true) :
    Memory.below n (Memory.write d m i v) = true := by
  induction m with
  | nil => by_cases hv : v = d <;> simp [Memory.write, Memory.below, hv, hi]
  | cons e rest ih =>
    simp only [Memory.below, List.all_cons, Bool.and_eq_true, decide_eq_true_eq] at hm ih
    simp only [Memory.write]
    split
    · by_cases hv : v = d <;> simp [hv, Memory.below, hm, hi]
    · split
      · by_cases hv : v = d <;> simp [hv, Memory.below, hi] <;> simpa using hm.2
      · simp only [Memory.below, List.all_cons, Bool.and_eq_true, decide_eq_true_eq]
        exact ⟨hm.1, ih hm.2⟩

@[simp] theorem Memory.wf_nil : Memory.wf d ([] : Memory α) = true := rfl

omit [DecidableEq α] in
@[simp] theorem Memory.below_nil (n : Nat) : Memory.below n ([] : Memory α) = true := rfl

/-- Canonical tables that read alike are equal lists. -/
theorem Memory.ext_from {lo : Nat} {m m' : Memory α} (hm : Memory.wfFrom d lo m = true)
    (hm' : Memory.wfFrom d lo m' = true) (h : ∀ i, Memory.read d m i = Memory.read d m' i) : m = m' := by
  induction m generalizing lo m' with
  | nil =>
    cases m' with
    | nil => rfl
    | cons e rest =>
      simp only [Memory.wfFrom, Bool.and_eq_true, decide_eq_true_eq] at hm'
      have := h e.1
      simp only [Memory.read, if_true] at this
      exact absurd this.symm hm'.1.2
  | cons e rest ih =>
    simp only [Memory.wfFrom, Bool.and_eq_true, decide_eq_true_eq] at hm
    cases m' with
    | nil =>
      have := h e.1
      simp only [Memory.read, if_true] at this
      exact absurd this hm.1.2
    | cons e' rest' =>
      simp only [Memory.wfFrom, Bool.and_eq_true, decide_eq_true_eq] at hm'
      have hidx : e.1 = e'.1 := by
        by_contra hne
        rcases Nat.lt_or_gt_of_ne hne with hlt | hgt
        · have h1 := h e.1
          simp only [Memory.read, if_true, hne, if_false] at h1
          rw [Memory.read_below (by omega) hm'.2] at h1
          exact hm.1.2 h1
        · have h1 := h e'.1
          have hne' : e'.1 ≠ e.1 := fun x => hne x.symm
          simp only [Memory.read, if_true, hne', if_false] at h1
          rw [Memory.read_below (by omega) hm.2] at h1
          exact hm'.1.2 h1.symm
      have hval : e.2 = e'.2 := by
        have h1 := h e.1
        simpa only [Memory.read, hidx, if_true] using h1
      have hrest : rest = rest' := by
        refine ih hm.2 (hidx ▸ hm'.2) fun i => ?_
        by_cases hi : i ≤ e.1
        · rw [Memory.read_below (by omega) hm.2, Memory.read_below (by omega) hm'.2]
        · have h1 := h i
          have n1 : i ≠ e.1 := by omega
          have n2 : i ≠ e'.1 := by omega
          simpa only [Memory.read, n1, n2, if_false] using h1
      rw [hrest, Prod.ext hidx hval]

/-- Equal tables are equal data: two canonical tables that read alike everywhere are the same list. -/
theorem Memory.ext_of_wf {m m' : Memory α} (hm : Memory.wf d m = true) (hm' : Memory.wf d m' = true)
    (h : ∀ i, Memory.read d m i = Memory.read d m' i) : m = m' := Memory.ext_from hm hm' h

end Sys2Proof.Machine
end

