-- ==== Sys2Proof/Laws/State.lean ====
section
/-! SUPPORT. One lemma per field per update of the state, and per reading function per update that leaves what it
reads alone, all true by rfl; then what reading a register or an instance just written gives. -/

namespace Sys2Proof.Machine

variable (s : State)

/-! ### setArg -/

@[simp] theorem setArg_build (n : Fin 4) (w : Word) : (setArg s n w).build = s.build := rfl
@[simp] theorem setArg_status (n : Fin 4) (w : Word) : (setArg s n w).status = s.status := rfl
@[simp] theorem setArg_args (n : Fin 4) (w : Word) : (setArg s n w).args = s.args.set n.val w := rfl
@[simp] theorem setArg_res (n : Fin 4) (w : Word) : (setArg s n w).res = s.res := rfl
@[simp] theorem setArg_pa (n : Fin 4) (w : Word) : (setArg s n w).pa = s.pa := rfl
@[simp] theorem setArg_wt (n : Fin 4) (w : Word) : (setArg s n w).wt = s.wt := rfl
@[simp] theorem setArg_cr (n : Fin 4) (w : Word) : (setArg s n w).cr = s.cr := rfl
@[simp] theorem setArg_bq (n : Fin 4) (w : Word) : (setArg s n w).bq = s.bq := rfl
@[simp] theorem setArg_qz (n : Fin 4) (w : Word) : (setArg s n w).qz = s.qz := rfl
@[simp] theorem setArg_tt (n : Fin 4) (w : Word) : (setArg s n w).tt = s.tt := rfl
@[simp] theorem setArg_wtab (n : Fin 4) (w : Word) : (setArg s n w).wtab = s.wtab := rfl
@[simp] theorem setArg_qt (n : Fin 4) (w : Word) : (setArg s n w).qt = s.qt := rfl
@[simp] theorem setArg_pending (n : Fin 4) (w : Word) : (setArg s n w).pending = s.pending := rfl
@[simp] theorem setArg_readData (n : Fin 4) (w : Word) : (setArg s n w).readData = s.readData := rfl
@[simp] theorem resWord_setArg (n : Fin 4) (w : Word) (m : Fin 4) : resWord (setArg s n w) m = resWord s m := rfl
@[simp] theorem paAt_setArg (n : Fin 4) (w : Word) (j : Inst) : paAt (setArg s n w) j = paAt s j := rfl
@[simp] theorem wtAt_setArg (n : Fin 4) (w : Word) (j : Inst) : wtAt (setArg s n w) j = wtAt s j := rfl
@[simp] theorem crAt_setArg (n : Fin 4) (w : Word) (j : Inst) : crAt (setArg s n w) j = crAt s j := rfl
@[simp] theorem bqAt_setArg (n : Fin 4) (w : Word) (j : Inst) : bqAt (setArg s n w) j = bqAt s j := rfl
@[simp] theorem qzAt_setArg (n : Fin 4) (w : Word) (j : Inst) : qzAt (setArg s n w) j = qzAt s j := rfl
@[simp] theorem ttAt_setArg (n : Fin 4) (w : Word) (j : Inst) : ttAt (setArg s n w) j = ttAt s j := rfl
@[simp] theorem wtabAt_setArg (n : Fin 4) (w : Word) (j : Nat) : wtabAt (setArg s n w) j = wtabAt s j := rfl
@[simp] theorem qtAt_setArg (n : Fin 4) (w : Word) (j : Inst) (m : Nat) : qtAt (setArg s n w) j m = qtAt s j m := rfl

/-! ### setRes -/

@[simp] theorem setRes_build (n : Fin 4) (w : Word) : (setRes s n w).build = s.build := rfl
@[simp] theorem setRes_status (n : Fin 4) (w : Word) : (setRes s n w).status = s.status := rfl
@[simp] theorem setRes_args (n : Fin 4) (w : Word) : (setRes s n w).args = s.args := rfl
@[simp] theorem setRes_res (n : Fin 4) (w : Word) : (setRes s n w).res = s.res.set n.val w := rfl
@[simp] theorem setRes_pa (n : Fin 4) (w : Word) : (setRes s n w).pa = s.pa := rfl
@[simp] theorem setRes_wt (n : Fin 4) (w : Word) : (setRes s n w).wt = s.wt := rfl
@[simp] theorem setRes_cr (n : Fin 4) (w : Word) : (setRes s n w).cr = s.cr := rfl
@[simp] theorem setRes_bq (n : Fin 4) (w : Word) : (setRes s n w).bq = s.bq := rfl
@[simp] theorem setRes_qz (n : Fin 4) (w : Word) : (setRes s n w).qz = s.qz := rfl
@[simp] theorem setRes_tt (n : Fin 4) (w : Word) : (setRes s n w).tt = s.tt := rfl
@[simp] theorem setRes_wtab (n : Fin 4) (w : Word) : (setRes s n w).wtab = s.wtab := rfl
@[simp] theorem setRes_qt (n : Fin 4) (w : Word) : (setRes s n w).qt = s.qt := rfl
@[simp] theorem setRes_pending (n : Fin 4) (w : Word) : (setRes s n w).pending = s.pending := rfl
@[simp] theorem setRes_readData (n : Fin 4) (w : Word) : (setRes s n w).readData = s.readData := rfl
@[simp] theorem argWord_setRes (n : Fin 4) (w : Word) (m : Fin 4) : argWord (setRes s n w) m = argWord s m := rfl
@[simp] theorem paAt_setRes (n : Fin 4) (w : Word) (j : Inst) : paAt (setRes s n w) j = paAt s j := rfl
@[simp] theorem wtAt_setRes (n : Fin 4) (w : Word) (j : Inst) : wtAt (setRes s n w) j = wtAt s j := rfl
@[simp] theorem crAt_setRes (n : Fin 4) (w : Word) (j : Inst) : crAt (setRes s n w) j = crAt s j := rfl
@[simp] theorem bqAt_setRes (n : Fin 4) (w : Word) (j : Inst) : bqAt (setRes s n w) j = bqAt s j := rfl
@[simp] theorem qzAt_setRes (n : Fin 4) (w : Word) (j : Inst) : qzAt (setRes s n w) j = qzAt s j := rfl
@[simp] theorem ttAt_setRes (n : Fin 4) (w : Word) (j : Inst) : ttAt (setRes s n w) j = ttAt s j := rfl
@[simp] theorem wtabAt_setRes (n : Fin 4) (w : Word) (j : Nat) : wtabAt (setRes s n w) j = wtabAt s j := rfl
@[simp] theorem qtAt_setRes (n : Fin 4) (w : Word) (j : Inst) (m : Nat) : qtAt (setRes s n w) j m = qtAt s j m := rfl

/-! ### setPa -/

@[simp] theorem setPa_build (k : Inst) (u : PaInst) : (setPa s k u).build = s.build := rfl
@[simp] theorem setPa_status (k : Inst) (u : PaInst) : (setPa s k u).status = s.status := rfl
@[simp] theorem setPa_args (k : Inst) (u : PaInst) : (setPa s k u).args = s.args := rfl
@[simp] theorem setPa_res (k : Inst) (u : PaInst) : (setPa s k u).res = s.res := rfl
@[simp] theorem setPa_pa (k : Inst) (u : PaInst) : (setPa s k u).pa = bankSet s.pa k u := rfl
@[simp] theorem setPa_wt (k : Inst) (u : PaInst) : (setPa s k u).wt = s.wt := rfl
@[simp] theorem setPa_cr (k : Inst) (u : PaInst) : (setPa s k u).cr = s.cr := rfl
@[simp] theorem setPa_bq (k : Inst) (u : PaInst) : (setPa s k u).bq = s.bq := rfl
@[simp] theorem setPa_qz (k : Inst) (u : PaInst) : (setPa s k u).qz = s.qz := rfl
@[simp] theorem setPa_tt (k : Inst) (u : PaInst) : (setPa s k u).tt = s.tt := rfl
@[simp] theorem setPa_wtab (k : Inst) (u : PaInst) : (setPa s k u).wtab = s.wtab := rfl
@[simp] theorem setPa_qt (k : Inst) (u : PaInst) : (setPa s k u).qt = s.qt := rfl
@[simp] theorem setPa_pending (k : Inst) (u : PaInst) : (setPa s k u).pending = s.pending := rfl
@[simp] theorem setPa_readData (k : Inst) (u : PaInst) : (setPa s k u).readData = s.readData := rfl
@[simp] theorem argWord_setPa (k : Inst) (u : PaInst) (m : Fin 4) : argWord (setPa s k u) m = argWord s m := rfl
@[simp] theorem resWord_setPa (k : Inst) (u : PaInst) (m : Fin 4) : resWord (setPa s k u) m = resWord s m := rfl
@[simp] theorem wtAt_setPa (k : Inst) (u : PaInst) (j : Inst) : wtAt (setPa s k u) j = wtAt s j := rfl
@[simp] theorem crAt_setPa (k : Inst) (u : PaInst) (j : Inst) : crAt (setPa s k u) j = crAt s j := rfl
@[simp] theorem bqAt_setPa (k : Inst) (u : PaInst) (j : Inst) : bqAt (setPa s k u) j = bqAt s j := rfl
@[simp] theorem qzAt_setPa (k : Inst) (u : PaInst) (j : Inst) : qzAt (setPa s k u) j = qzAt s j := rfl
@[simp] theorem ttAt_setPa (k : Inst) (u : PaInst) (j : Inst) : ttAt (setPa s k u) j = ttAt s j := rfl
@[simp] theorem wtabAt_setPa (k : Inst) (u : PaInst) (j : Nat) : wtabAt (setPa s k u) j = wtabAt s j := rfl
@[simp] theorem qtAt_setPa (k : Inst) (u : PaInst) (j : Inst) (m : Nat) : qtAt (setPa s k u) j m = qtAt s j m := rfl

/-! ### setWt -/

@[simp] theorem setWt_build (k : Inst) (u : WtInst) : (setWt s k u).build = s.build := rfl
@[simp] theorem setWt_status (k : Inst) (u : WtInst) : (setWt s k u).status = s.status := rfl
@[simp] theorem setWt_args (k : Inst) (u : WtInst) : (setWt s k u).args = s.args := rfl
@[simp] theorem setWt_res (k : Inst) (u : WtInst) : (setWt s k u).res = s.res := rfl
@[simp] theorem setWt_pa (k : Inst) (u : WtInst) : (setWt s k u).pa = s.pa := rfl
@[simp] theorem setWt_wt (k : Inst) (u : WtInst) : (setWt s k u).wt = bankSet s.wt k u := rfl
@[simp] theorem setWt_cr (k : Inst) (u : WtInst) : (setWt s k u).cr = s.cr := rfl
@[simp] theorem setWt_bq (k : Inst) (u : WtInst) : (setWt s k u).bq = s.bq := rfl
@[simp] theorem setWt_qz (k : Inst) (u : WtInst) : (setWt s k u).qz = s.qz := rfl
@[simp] theorem setWt_tt (k : Inst) (u : WtInst) : (setWt s k u).tt = s.tt := rfl
@[simp] theorem setWt_wtab (k : Inst) (u : WtInst) : (setWt s k u).wtab = s.wtab := rfl
@[simp] theorem setWt_qt (k : Inst) (u : WtInst) : (setWt s k u).qt = s.qt := rfl
@[simp] theorem setWt_pending (k : Inst) (u : WtInst) : (setWt s k u).pending = s.pending := rfl
@[simp] theorem setWt_readData (k : Inst) (u : WtInst) : (setWt s k u).readData = s.readData := rfl
@[simp] theorem argWord_setWt (k : Inst) (u : WtInst) (m : Fin 4) : argWord (setWt s k u) m = argWord s m := rfl
@[simp] theorem resWord_setWt (k : Inst) (u : WtInst) (m : Fin 4) : resWord (setWt s k u) m = resWord s m := rfl
@[simp] theorem paAt_setWt (k : Inst) (u : WtInst) (j : Inst) : paAt (setWt s k u) j = paAt s j := rfl
@[simp] theorem crAt_setWt (k : Inst) (u : WtInst) (j : Inst) : crAt (setWt s k u) j = crAt s j := rfl
@[simp] theorem bqAt_setWt (k : Inst) (u : WtInst) (j : Inst) : bqAt (setWt s k u) j = bqAt s j := rfl
@[simp] theorem qzAt_setWt (k : Inst) (u : WtInst) (j : Inst) : qzAt (setWt s k u) j = qzAt s j := rfl
@[simp] theorem ttAt_setWt (k : Inst) (u : WtInst) (j : Inst) : ttAt (setWt s k u) j = ttAt s j := rfl
@[simp] theorem wtabAt_setWt (k : Inst) (u : WtInst) (j : Nat) : wtabAt (setWt s k u) j = wtabAt s j := rfl
@[simp] theorem qtAt_setWt (k : Inst) (u : WtInst) (j : Inst) (m : Nat) : qtAt (setWt s k u) j m = qtAt s j m := rfl

/-! ### setCr -/

@[simp] theorem setCr_build (k : Inst) (u : CrInst) : (setCr s k u).build = s.build := rfl
@[simp] theorem setCr_status (k : Inst) (u : CrInst) : (setCr s k u).status = s.status := rfl
@[simp] theorem setCr_args (k : Inst) (u : CrInst) : (setCr s k u).args = s.args := rfl
@[simp] theorem setCr_res (k : Inst) (u : CrInst) : (setCr s k u).res = s.res := rfl
@[simp] theorem setCr_pa (k : Inst) (u : CrInst) : (setCr s k u).pa = s.pa := rfl
@[simp] theorem setCr_wt (k : Inst) (u : CrInst) : (setCr s k u).wt = s.wt := rfl
@[simp] theorem setCr_cr (k : Inst) (u : CrInst) : (setCr s k u).cr = bankSet s.cr k u := rfl
@[simp] theorem setCr_bq (k : Inst) (u : CrInst) : (setCr s k u).bq = s.bq := rfl
@[simp] theorem setCr_qz (k : Inst) (u : CrInst) : (setCr s k u).qz = s.qz := rfl
@[simp] theorem setCr_tt (k : Inst) (u : CrInst) : (setCr s k u).tt = s.tt := rfl
@[simp] theorem setCr_wtab (k : Inst) (u : CrInst) : (setCr s k u).wtab = s.wtab := rfl
@[simp] theorem setCr_qt (k : Inst) (u : CrInst) : (setCr s k u).qt = s.qt := rfl
@[simp] theorem setCr_pending (k : Inst) (u : CrInst) : (setCr s k u).pending = s.pending := rfl
@[simp] theorem setCr_readData (k : Inst) (u : CrInst) : (setCr s k u).readData = s.readData := rfl
@[simp] theorem argWord_setCr (k : Inst) (u : CrInst) (m : Fin 4) : argWord (setCr s k u) m = argWord s m := rfl
@[simp] theorem resWord_setCr (k : Inst) (u : CrInst) (m : Fin 4) : resWord (setCr s k u) m = resWord s m := rfl
@[simp] theorem paAt_setCr (k : Inst) (u : CrInst) (j : Inst) : paAt (setCr s k u) j = paAt s j := rfl
@[simp] theorem wtAt_setCr (k : Inst) (u : CrInst) (j : Inst) : wtAt (setCr s k u) j = wtAt s j := rfl
@[simp] theorem bqAt_setCr (k : Inst) (u : CrInst) (j : Inst) : bqAt (setCr s k u) j = bqAt s j := rfl
@[simp] theorem qzAt_setCr (k : Inst) (u : CrInst) (j : Inst) : qzAt (setCr s k u) j = qzAt s j := rfl
@[simp] theorem ttAt_setCr (k : Inst) (u : CrInst) (j : Inst) : ttAt (setCr s k u) j = ttAt s j := rfl
@[simp] theorem wtabAt_setCr (k : Inst) (u : CrInst) (j : Nat) : wtabAt (setCr s k u) j = wtabAt s j := rfl
@[simp] theorem qtAt_setCr (k : Inst) (u : CrInst) (j : Inst) (m : Nat) : qtAt (setCr s k u) j m = qtAt s j m := rfl

/-! ### setBq -/

@[simp] theorem setBq_build (k : Inst) (u : BqInst) : (setBq s k u).build = s.build := rfl
@[simp] theorem setBq_status (k : Inst) (u : BqInst) : (setBq s k u).status = s.status := rfl
@[simp] theorem setBq_args (k : Inst) (u : BqInst) : (setBq s k u).args = s.args := rfl
@[simp] theorem setBq_res (k : Inst) (u : BqInst) : (setBq s k u).res = s.res := rfl
@[simp] theorem setBq_pa (k : Inst) (u : BqInst) : (setBq s k u).pa = s.pa := rfl
@[simp] theorem setBq_wt (k : Inst) (u : BqInst) : (setBq s k u).wt = s.wt := rfl
@[simp] theorem setBq_cr (k : Inst) (u : BqInst) : (setBq s k u).cr = s.cr := rfl
@[simp] theorem setBq_bq (k : Inst) (u : BqInst) : (setBq s k u).bq = bankSet s.bq k u := rfl
@[simp] theorem setBq_qz (k : Inst) (u : BqInst) : (setBq s k u).qz = s.qz := rfl
@[simp] theorem setBq_tt (k : Inst) (u : BqInst) : (setBq s k u).tt = s.tt := rfl
@[simp] theorem setBq_wtab (k : Inst) (u : BqInst) : (setBq s k u).wtab = s.wtab := rfl
@[simp] theorem setBq_qt (k : Inst) (u : BqInst) : (setBq s k u).qt = s.qt := rfl
@[simp] theorem setBq_pending (k : Inst) (u : BqInst) : (setBq s k u).pending = s.pending := rfl
@[simp] theorem setBq_readData (k : Inst) (u : BqInst) : (setBq s k u).readData = s.readData := rfl
@[simp] theorem argWord_setBq (k : Inst) (u : BqInst) (m : Fin 4) : argWord (setBq s k u) m = argWord s m := rfl
@[simp] theorem resWord_setBq (k : Inst) (u : BqInst) (m : Fin 4) : resWord (setBq s k u) m = resWord s m := rfl
@[simp] theorem paAt_setBq (k : Inst) (u : BqInst) (j : Inst) : paAt (setBq s k u) j = paAt s j := rfl
@[simp] theorem wtAt_setBq (k : Inst) (u : BqInst) (j : Inst) : wtAt (setBq s k u) j = wtAt s j := rfl
@[simp] theorem crAt_setBq (k : Inst) (u : BqInst) (j : Inst) : crAt (setBq s k u) j = crAt s j := rfl
@[simp] theorem qzAt_setBq (k : Inst) (u : BqInst) (j : Inst) : qzAt (setBq s k u) j = qzAt s j := rfl
@[simp] theorem ttAt_setBq (k : Inst) (u : BqInst) (j : Inst) : ttAt (setBq s k u) j = ttAt s j := rfl
@[simp] theorem wtabAt_setBq (k : Inst) (u : BqInst) (j : Nat) : wtabAt (setBq s k u) j = wtabAt s j := rfl
@[simp] theorem qtAt_setBq (k : Inst) (u : BqInst) (j : Inst) (m : Nat) : qtAt (setBq s k u) j m = qtAt s j m := rfl

/-! ### setQz -/

@[simp] theorem setQz_build (k : Inst) (u : QzInst) : (setQz s k u).build = s.build := rfl
@[simp] theorem setQz_status (k : Inst) (u : QzInst) : (setQz s k u).status = s.status := rfl
@[simp] theorem setQz_args (k : Inst) (u : QzInst) : (setQz s k u).args = s.args := rfl
@[simp] theorem setQz_res (k : Inst) (u : QzInst) : (setQz s k u).res = s.res := rfl
@[simp] theorem setQz_pa (k : Inst) (u : QzInst) : (setQz s k u).pa = s.pa := rfl
@[simp] theorem setQz_wt (k : Inst) (u : QzInst) : (setQz s k u).wt = s.wt := rfl
@[simp] theorem setQz_cr (k : Inst) (u : QzInst) : (setQz s k u).cr = s.cr := rfl
@[simp] theorem setQz_bq (k : Inst) (u : QzInst) : (setQz s k u).bq = s.bq := rfl
@[simp] theorem setQz_qz (k : Inst) (u : QzInst) : (setQz s k u).qz = bankSet s.qz k u := rfl
@[simp] theorem setQz_tt (k : Inst) (u : QzInst) : (setQz s k u).tt = s.tt := rfl
@[simp] theorem setQz_wtab (k : Inst) (u : QzInst) : (setQz s k u).wtab = s.wtab := rfl
@[simp] theorem setQz_qt (k : Inst) (u : QzInst) : (setQz s k u).qt = s.qt := rfl
@[simp] theorem setQz_pending (k : Inst) (u : QzInst) : (setQz s k u).pending = s.pending := rfl
@[simp] theorem setQz_readData (k : Inst) (u : QzInst) : (setQz s k u).readData = s.readData := rfl
@[simp] theorem argWord_setQz (k : Inst) (u : QzInst) (m : Fin 4) : argWord (setQz s k u) m = argWord s m := rfl
@[simp] theorem resWord_setQz (k : Inst) (u : QzInst) (m : Fin 4) : resWord (setQz s k u) m = resWord s m := rfl
@[simp] theorem paAt_setQz (k : Inst) (u : QzInst) (j : Inst) : paAt (setQz s k u) j = paAt s j := rfl
@[simp] theorem wtAt_setQz (k : Inst) (u : QzInst) (j : Inst) : wtAt (setQz s k u) j = wtAt s j := rfl
@[simp] theorem crAt_setQz (k : Inst) (u : QzInst) (j : Inst) : crAt (setQz s k u) j = crAt s j := rfl
@[simp] theorem bqAt_setQz (k : Inst) (u : QzInst) (j : Inst) : bqAt (setQz s k u) j = bqAt s j := rfl
@[simp] theorem ttAt_setQz (k : Inst) (u : QzInst) (j : Inst) : ttAt (setQz s k u) j = ttAt s j := rfl
@[simp] theorem wtabAt_setQz (k : Inst) (u : QzInst) (j : Nat) : wtabAt (setQz s k u) j = wtabAt s j := rfl
@[simp] theorem qtAt_setQz (k : Inst) (u : QzInst) (j : Inst) (m : Nat) : qtAt (setQz s k u) j m = qtAt s j m := rfl

/-! ### setTt -/

@[simp] theorem setTt_build (k : Inst) (u : TtInst) : (setTt s k u).build = s.build := rfl
@[simp] theorem setTt_status (k : Inst) (u : TtInst) : (setTt s k u).status = s.status := rfl
@[simp] theorem setTt_args (k : Inst) (u : TtInst) : (setTt s k u).args = s.args := rfl
@[simp] theorem setTt_res (k : Inst) (u : TtInst) : (setTt s k u).res = s.res := rfl
@[simp] theorem setTt_pa (k : Inst) (u : TtInst) : (setTt s k u).pa = s.pa := rfl
@[simp] theorem setTt_wt (k : Inst) (u : TtInst) : (setTt s k u).wt = s.wt := rfl
@[simp] theorem setTt_cr (k : Inst) (u : TtInst) : (setTt s k u).cr = s.cr := rfl
@[simp] theorem setTt_bq (k : Inst) (u : TtInst) : (setTt s k u).bq = s.bq := rfl
@[simp] theorem setTt_qz (k : Inst) (u : TtInst) : (setTt s k u).qz = s.qz := rfl
@[simp] theorem setTt_tt (k : Inst) (u : TtInst) : (setTt s k u).tt = bankSet s.tt k u := rfl
@[simp] theorem setTt_wtab (k : Inst) (u : TtInst) : (setTt s k u).wtab = s.wtab := rfl
@[simp] theorem setTt_qt (k : Inst) (u : TtInst) : (setTt s k u).qt = s.qt := rfl
@[simp] theorem setTt_pending (k : Inst) (u : TtInst) : (setTt s k u).pending = s.pending := rfl
@[simp] theorem setTt_readData (k : Inst) (u : TtInst) : (setTt s k u).readData = s.readData := rfl
@[simp] theorem argWord_setTt (k : Inst) (u : TtInst) (m : Fin 4) : argWord (setTt s k u) m = argWord s m := rfl
@[simp] theorem resWord_setTt (k : Inst) (u : TtInst) (m : Fin 4) : resWord (setTt s k u) m = resWord s m := rfl
@[simp] theorem paAt_setTt (k : Inst) (u : TtInst) (j : Inst) : paAt (setTt s k u) j = paAt s j := rfl
@[simp] theorem wtAt_setTt (k : Inst) (u : TtInst) (j : Inst) : wtAt (setTt s k u) j = wtAt s j := rfl
@[simp] theorem crAt_setTt (k : Inst) (u : TtInst) (j : Inst) : crAt (setTt s k u) j = crAt s j := rfl
@[simp] theorem bqAt_setTt (k : Inst) (u : TtInst) (j : Inst) : bqAt (setTt s k u) j = bqAt s j := rfl
@[simp] theorem qzAt_setTt (k : Inst) (u : TtInst) (j : Inst) : qzAt (setTt s k u) j = qzAt s j := rfl
@[simp] theorem wtabAt_setTt (k : Inst) (u : TtInst) (j : Nat) : wtabAt (setTt s k u) j = wtabAt s j := rfl
@[simp] theorem qtAt_setTt (k : Inst) (u : TtInst) (j : Inst) (m : Nat) : qtAt (setTt s k u) j m = qtAt s j m := rfl

/-! ### setWtab -/

@[simp] theorem setWtab_build (i : Nat) (v : F32) : (setWtab s i v).build = s.build := rfl
@[simp] theorem setWtab_status (i : Nat) (v : F32) : (setWtab s i v).status = s.status := rfl
@[simp] theorem setWtab_args (i : Nat) (v : F32) : (setWtab s i v).args = s.args := rfl
@[simp] theorem setWtab_res (i : Nat) (v : F32) : (setWtab s i v).res = s.res := rfl
@[simp] theorem setWtab_pa (i : Nat) (v : F32) : (setWtab s i v).pa = s.pa := rfl
@[simp] theorem setWtab_wt (i : Nat) (v : F32) : (setWtab s i v).wt = s.wt := rfl
@[simp] theorem setWtab_cr (i : Nat) (v : F32) : (setWtab s i v).cr = s.cr := rfl
@[simp] theorem setWtab_bq (i : Nat) (v : F32) : (setWtab s i v).bq = s.bq := rfl
@[simp] theorem setWtab_qz (i : Nat) (v : F32) : (setWtab s i v).qz = s.qz := rfl
@[simp] theorem setWtab_tt (i : Nat) (v : F32) : (setWtab s i v).tt = s.tt := rfl
@[simp] theorem setWtab_wtab (i : Nat) (v : F32) : (setWtab s i v).wtab = Memory.write wtabDefault s.wtab i v := rfl
@[simp] theorem setWtab_qt (i : Nat) (v : F32) : (setWtab s i v).qt = s.qt := rfl
@[simp] theorem setWtab_pending (i : Nat) (v : F32) : (setWtab s i v).pending = s.pending := rfl
@[simp] theorem setWtab_readData (i : Nat) (v : F32) : (setWtab s i v).readData = s.readData := rfl
@[simp] theorem argWord_setWtab (i : Nat) (v : F32) (m : Fin 4) : argWord (setWtab s i v) m = argWord s m := rfl
@[simp] theorem resWord_setWtab (i : Nat) (v : F32) (m : Fin 4) : resWord (setWtab s i v) m = resWord s m := rfl
@[simp] theorem paAt_setWtab (i : Nat) (v : F32) (j : Inst) : paAt (setWtab s i v) j = paAt s j := rfl
@[simp] theorem wtAt_setWtab (i : Nat) (v : F32) (j : Inst) : wtAt (setWtab s i v) j = wtAt s j := rfl
@[simp] theorem crAt_setWtab (i : Nat) (v : F32) (j : Inst) : crAt (setWtab s i v) j = crAt s j := rfl
@[simp] theorem bqAt_setWtab (i : Nat) (v : F32) (j : Inst) : bqAt (setWtab s i v) j = bqAt s j := rfl
@[simp] theorem qzAt_setWtab (i : Nat) (v : F32) (j : Inst) : qzAt (setWtab s i v) j = qzAt s j := rfl
@[simp] theorem ttAt_setWtab (i : Nat) (v : F32) (j : Inst) : ttAt (setWtab s i v) j = ttAt s j := rfl
@[simp] theorem qtAt_setWtab (i : Nat) (v : F32) (j : Inst) (m : Nat) : qtAt (setWtab s i v) j m = qtAt s j m := rfl

/-! ### setQt -/

@[simp] theorem setQt_build (k : Inst) (i : Nat) (e : QtEntry) : (setQt s k i e).build = s.build := rfl
@[simp] theorem setQt_status (k : Inst) (i : Nat) (e : QtEntry) : (setQt s k i e).status = s.status := rfl
@[simp] theorem setQt_args (k : Inst) (i : Nat) (e : QtEntry) : (setQt s k i e).args = s.args := rfl
@[simp] theorem setQt_res (k : Inst) (i : Nat) (e : QtEntry) : (setQt s k i e).res = s.res := rfl
@[simp] theorem setQt_pa (k : Inst) (i : Nat) (e : QtEntry) : (setQt s k i e).pa = s.pa := rfl
@[simp] theorem setQt_wt (k : Inst) (i : Nat) (e : QtEntry) : (setQt s k i e).wt = s.wt := rfl
@[simp] theorem setQt_cr (k : Inst) (i : Nat) (e : QtEntry) : (setQt s k i e).cr = s.cr := rfl
@[simp] theorem setQt_bq (k : Inst) (i : Nat) (e : QtEntry) : (setQt s k i e).bq = s.bq := rfl
@[simp] theorem setQt_qz (k : Inst) (i : Nat) (e : QtEntry) : (setQt s k i e).qz = s.qz := rfl
@[simp] theorem setQt_tt (k : Inst) (i : Nat) (e : QtEntry) : (setQt s k i e).tt = s.tt := rfl
@[simp] theorem setQt_wtab (k : Inst) (i : Nat) (e : QtEntry) : (setQt s k i e).wtab = s.wtab := rfl
@[simp] theorem setQt_qt (k : Inst) (i : Nat) (e : QtEntry) : (setQt s k i e).qt = bankSet s.qt k (Memory.write qtDefault (bankGet s.qt k) i e) := rfl
@[simp] theorem setQt_pending (k : Inst) (i : Nat) (e : QtEntry) : (setQt s k i e).pending = s.pending := rfl
@[simp] theorem setQt_readData (k : Inst) (i : Nat) (e : QtEntry) : (setQt s k i e).readData = s.readData := rfl
@[simp] theorem argWord_setQt (k : Inst) (i : Nat) (e : QtEntry) (m : Fin 4) : argWord (setQt s k i e) m = argWord s m := rfl
@[simp] theorem resWord_setQt (k : Inst) (i : Nat) (e : QtEntry) (m : Fin 4) : resWord (setQt s k i e) m = resWord s m := rfl
@[simp] theorem paAt_setQt (k : Inst) (i : Nat) (e : QtEntry) (j : Inst) : paAt (setQt s k i e) j = paAt s j := rfl
@[simp] theorem wtAt_setQt (k : Inst) (i : Nat) (e : QtEntry) (j : Inst) : wtAt (setQt s k i e) j = wtAt s j := rfl
@[simp] theorem crAt_setQt (k : Inst) (i : Nat) (e : QtEntry) (j : Inst) : crAt (setQt s k i e) j = crAt s j := rfl
@[simp] theorem bqAt_setQt (k : Inst) (i : Nat) (e : QtEntry) (j : Inst) : bqAt (setQt s k i e) j = bqAt s j := rfl
@[simp] theorem qzAt_setQt (k : Inst) (i : Nat) (e : QtEntry) (j : Inst) : qzAt (setQt s k i e) j = qzAt s j := rfl
@[simp] theorem ttAt_setQt (k : Inst) (i : Nat) (e : QtEntry) (j : Inst) : ttAt (setQt s k i e) j = ttAt s j := rfl
@[simp] theorem wtabAt_setQt (k : Inst) (i : Nat) (e : QtEntry) (j : Nat) : wtabAt (setQt s k i e) j = wtabAt s j := rfl

/-! ### clearQt -/

@[simp] theorem clearQt_build (k : Inst) : (clearQt s k).build = s.build := rfl
@[simp] theorem clearQt_status (k : Inst) : (clearQt s k).status = s.status := rfl
@[simp] theorem clearQt_args (k : Inst) : (clearQt s k).args = s.args := rfl
@[simp] theorem clearQt_res (k : Inst) : (clearQt s k).res = s.res := rfl
@[simp] theorem clearQt_pa (k : Inst) : (clearQt s k).pa = s.pa := rfl
@[simp] theorem clearQt_wt (k : Inst) : (clearQt s k).wt = s.wt := rfl
@[simp] theorem clearQt_cr (k : Inst) : (clearQt s k).cr = s.cr := rfl
@[simp] theorem clearQt_bq (k : Inst) : (clearQt s k).bq = s.bq := rfl
@[simp] theorem clearQt_qz (k : Inst) : (clearQt s k).qz = s.qz := rfl
@[simp] theorem clearQt_tt (k : Inst) : (clearQt s k).tt = s.tt := rfl
@[simp] theorem clearQt_wtab (k : Inst) : (clearQt s k).wtab = s.wtab := rfl
@[simp] theorem clearQt_qt (k : Inst) : (clearQt s k).qt = bankSet s.qt k [] := rfl
@[simp] theorem clearQt_pending (k : Inst) : (clearQt s k).pending = s.pending := rfl
@[simp] theorem clearQt_readData (k : Inst) : (clearQt s k).readData = s.readData := rfl
@[simp] theorem argWord_clearQt (k : Inst) (m : Fin 4) : argWord (clearQt s k) m = argWord s m := rfl
@[simp] theorem resWord_clearQt (k : Inst) (m : Fin 4) : resWord (clearQt s k) m = resWord s m := rfl
@[simp] theorem paAt_clearQt (k : Inst) (j : Inst) : paAt (clearQt s k) j = paAt s j := rfl
@[simp] theorem wtAt_clearQt (k : Inst) (j : Inst) : wtAt (clearQt s k) j = wtAt s j := rfl
@[simp] theorem crAt_clearQt (k : Inst) (j : Inst) : crAt (clearQt s k) j = crAt s j := rfl
@[simp] theorem bqAt_clearQt (k : Inst) (j : Inst) : bqAt (clearQt s k) j = bqAt s j := rfl
@[simp] theorem qzAt_clearQt (k : Inst) (j : Inst) : qzAt (clearQt s k) j = qzAt s j := rfl
@[simp] theorem ttAt_clearQt (k : Inst) (j : Inst) : ttAt (clearQt s k) j = ttAt s j := rfl
@[simp] theorem wtabAt_clearQt (k : Inst) (j : Nat) : wtabAt (clearQt s k) j = wtabAt s j := rfl

/-! ### accept -/

@[simp] theorem accept_build : (accept s).build = s.build := rfl
@[simp] theorem accept_status : (accept s).status = statusAccept s.status := rfl
@[simp] theorem accept_args : (accept s).args = s.args := rfl
@[simp] theorem accept_res : (accept s).res = s.res := rfl
@[simp] theorem accept_pa : (accept s).pa = s.pa := rfl
@[simp] theorem accept_wt : (accept s).wt = s.wt := rfl
@[simp] theorem accept_cr : (accept s).cr = s.cr := rfl
@[simp] theorem accept_bq : (accept s).bq = s.bq := rfl
@[simp] theorem accept_qz : (accept s).qz = s.qz := rfl
@[simp] theorem accept_tt : (accept s).tt = s.tt := rfl
@[simp] theorem accept_wtab : (accept s).wtab = s.wtab := rfl
@[simp] theorem accept_qt : (accept s).qt = s.qt := rfl
@[simp] theorem accept_pending : (accept s).pending = s.pending := rfl
@[simp] theorem accept_readData : (accept s).readData = s.readData := rfl
@[simp] theorem argWord_accept (m : Fin 4) : argWord (accept s) m = argWord s m := rfl
@[simp] theorem resWord_accept (m : Fin 4) : resWord (accept s) m = resWord s m := rfl
@[simp] theorem paAt_accept (j : Inst) : paAt (accept s) j = paAt s j := rfl
@[simp] theorem wtAt_accept (j : Inst) : wtAt (accept s) j = wtAt s j := rfl
@[simp] theorem crAt_accept (j : Inst) : crAt (accept s) j = crAt s j := rfl
@[simp] theorem bqAt_accept (j : Inst) : bqAt (accept s) j = bqAt s j := rfl
@[simp] theorem qzAt_accept (j : Inst) : qzAt (accept s) j = qzAt s j := rfl
@[simp] theorem ttAt_accept (j : Inst) : ttAt (accept s) j = ttAt s j := rfl
@[simp] theorem wtabAt_accept (j : Nat) : wtabAt (accept s) j = wtabAt s j := rfl
@[simp] theorem qtAt_accept (j : Inst) (m : Nat) : qtAt (accept s) j m = qtAt s j m := rfl

/-! ### reject -/

@[simp] theorem reject_build (c : Code) : (reject c s).build = s.build := rfl
@[simp] theorem reject_status (c : Code) : (reject c s).status = statusReject c s.status := rfl
@[simp] theorem reject_args (c : Code) : (reject c s).args = s.args := rfl
@[simp] theorem reject_res (c : Code) : (reject c s).res = s.res := rfl
@[simp] theorem reject_pa (c : Code) : (reject c s).pa = s.pa := rfl
@[simp] theorem reject_wt (c : Code) : (reject c s).wt = s.wt := rfl
@[simp] theorem reject_cr (c : Code) : (reject c s).cr = s.cr := rfl
@[simp] theorem reject_bq (c : Code) : (reject c s).bq = s.bq := rfl
@[simp] theorem reject_qz (c : Code) : (reject c s).qz = s.qz := rfl
@[simp] theorem reject_tt (c : Code) : (reject c s).tt = s.tt := rfl
@[simp] theorem reject_wtab (c : Code) : (reject c s).wtab = s.wtab := rfl
@[simp] theorem reject_qt (c : Code) : (reject c s).qt = s.qt := rfl
@[simp] theorem reject_pending (c : Code) : (reject c s).pending = s.pending := rfl
@[simp] theorem reject_readData (c : Code) : (reject c s).readData = s.readData := rfl
@[simp] theorem argWord_reject (c : Code) (m : Fin 4) : argWord (reject c s) m = argWord s m := rfl
@[simp] theorem resWord_reject (c : Code) (m : Fin 4) : resWord (reject c s) m = resWord s m := rfl
@[simp] theorem paAt_reject (c : Code) (j : Inst) : paAt (reject c s) j = paAt s j := rfl
@[simp] theorem wtAt_reject (c : Code) (j : Inst) : wtAt (reject c s) j = wtAt s j := rfl
@[simp] theorem crAt_reject (c : Code) (j : Inst) : crAt (reject c s) j = crAt s j := rfl
@[simp] theorem bqAt_reject (c : Code) (j : Inst) : bqAt (reject c s) j = bqAt s j := rfl
@[simp] theorem qzAt_reject (c : Code) (j : Inst) : qzAt (reject c s) j = qzAt s j := rfl
@[simp] theorem ttAt_reject (c : Code) (j : Inst) : ttAt (reject c s) j = ttAt s j := rfl
@[simp] theorem wtabAt_reject (c : Code) (j : Nat) : wtabAt (reject c s) j = wtabAt s j := rfl
@[simp] theorem qtAt_reject (c : Code) (j : Inst) (m : Nat) : qtAt (reject c s) j m = qtAt s j m := rfl

/-! ### Reading what was written -/

theorem bankGet_bankSet_self {α : Type} (v : Bank α) (k : Inst) (x : α) : bankGet (bankSet v k x) k = x := by
  simp [bankGet, bankSet]

theorem bankGet_bankSet_of_ne {α : Type} (v : Bank α) {j k : Inst} (x : α) (h : j ≠ k) :
    bankGet (bankSet v k x) j = bankGet v j := by
  have hne : k.toNat ≠ j.toNat := fun e => h (BitVec.eq_of_toNat_eq e.symm)
  simp [bankGet, bankSet, Vector.getElem_set_ne, hne]

@[simp] theorem bankGet_bankSet {α : Type} (v : Bank α) (j k : Inst) (x : α) :
    bankGet (bankSet v k x) j = if j = k then x else bankGet v j := by
  split
  · next h => subst h; exact bankGet_bankSet_self v j x
  · next h => exact bankGet_bankSet_of_ne v x h

@[simp] theorem bankGet_replicate {α : Type} (x : α) (k : Inst) : bankGet (Vector.replicate 16 x) k = x := by
  simp [bankGet]

@[simp] theorem paAt_setPa (k j : Inst) (u : PaInst) :
    paAt (setPa s k u) j = if j = k then u else paAt s j := bankGet_bankSet s.pa j k u

@[simp] theorem wtAt_setWt (k j : Inst) (u : WtInst) :
    wtAt (setWt s k u) j = if j = k then u else wtAt s j := bankGet_bankSet s.wt j k u

@[simp] theorem crAt_setCr (k j : Inst) (u : CrInst) :
    crAt (setCr s k u) j = if j = k then u else crAt s j := bankGet_bankSet s.cr j k u

@[simp] theorem bqAt_setBq (k j : Inst) (u : BqInst) :
    bqAt (setBq s k u) j = if j = k then u else bqAt s j := bankGet_bankSet s.bq j k u

@[simp] theorem qzAt_setQz (k j : Inst) (u : QzInst) :
    qzAt (setQz s k u) j = if j = k then u else qzAt s j := bankGet_bankSet s.qz j k u

@[simp] theorem ttAt_setTt (k j : Inst) (u : TtInst) :
    ttAt (setTt s k u) j = if j = k then u else ttAt s j := bankGet_bankSet s.tt j k u

@[simp] theorem resWord_setRes (n m : Fin 4) (w : Word) :
    resWord (setRes s n w) m = if m = n then w else resWord s m := by
  by_cases h : m = n
  · subst h; simp [resWord, setRes]
  · have hne : n.val ≠ m.val := fun e => h (Fin.ext e.symm)
    simp [resWord, setRes, h, Vector.getElem_set_ne, hne]

@[simp] theorem argWord_setArg (n m : Fin 4) (w : Word) :
    argWord (setArg s n w) m = if m = n then w else argWord s m := by
  by_cases h : m = n
  · subst h; simp [argWord, setArg]
  · have hne : n.val ≠ m.val := fun e => h (Fin.ext e.symm)
    simp [argWord, setArg, h, Vector.getElem_set_ne, hne]

/-! ### The state after reset (R250) -/

variable (b : Build)

@[simp] theorem resetOf_build : (State.resetOf b).build = b := rfl
@[simp] theorem resetOf_status : (State.resetOf b).status = Status.reset := rfl
@[simp] theorem resetOf_wtab : (State.resetOf b).wtab = [] := rfl
@[simp] theorem resetOf_pending : (State.resetOf b).pending = [] := rfl
@[simp] theorem resetOf_readData : (State.resetOf b).readData = none := rfl
@[simp] theorem resetOf_qt (k : Inst) : bankGet (State.resetOf b).qt k = [] := bankGet_replicate [] k
@[simp] theorem argWord_resetOf (n : Fin 4) : argWord (State.resetOf b) n = 0 := by
  simp [argWord, State.resetOf]
@[simp] theorem resWord_resetOf (n : Fin 4) : resWord (State.resetOf b) n = 0 := by
  simp [resWord, State.resetOf]
@[simp] theorem paAt_resetOf (k : Inst) : paAt (State.resetOf b) k = paReset := bankGet_replicate paReset k
@[simp] theorem wtAt_resetOf (k : Inst) : wtAt (State.resetOf b) k = wtReset := bankGet_replicate wtReset k
@[simp] theorem crAt_resetOf (k : Inst) : crAt (State.resetOf b) k = crReset := bankGet_replicate crReset k
@[simp] theorem bqAt_resetOf (k : Inst) : bqAt (State.resetOf b) k = bqReset := bankGet_replicate bqReset k
@[simp] theorem qzAt_resetOf (k : Inst) : qzAt (State.resetOf b) k = qzReset := bankGet_replicate qzReset k
@[simp] theorem ttAt_resetOf (k : Inst) : ttAt (State.resetOf b) k = ttReset := bankGet_replicate ttReset k
@[simp] theorem wtabAt_resetOf (i : Nat) : wtabAt (State.resetOf b) i = wtabDefault := rfl
@[simp] theorem qtAt_resetOf (k : Inst) (i : Nat) : qtAt (State.resetOf b) k i = qtDefault := by
  simp [qtAt, Memory.read]

/-! ### SOFT_RESET and the reset input: the block's state, with the build and the port kept -/

@[simp] theorem resetBlock_build : (resetBlock s).build = s.build := rfl
@[simp] theorem resetBlock_pending : (resetBlock s).pending = s.pending := rfl
@[simp] theorem resetBlock_readData : (resetBlock s).readData = s.readData := rfl
@[simp] theorem resetBlock_status : (resetBlock s).status = Status.reset := rfl
@[simp] theorem resetBlock_wtab : (resetBlock s).wtab = [] := rfl
@[simp] theorem resetBlock_qt (k : Inst) : bankGet (resetBlock s).qt k = [] := bankGet_replicate [] k
@[simp] theorem argWord_resetBlock (n : Fin 4) : argWord (resetBlock s) n = 0 := argWord_resetOf s.build n
@[simp] theorem resWord_resetBlock (n : Fin 4) : resWord (resetBlock s) n = 0 := resWord_resetOf s.build n
@[simp] theorem paAt_resetBlock (k : Inst) : paAt (resetBlock s) k = paReset := paAt_resetOf s.build k
@[simp] theorem wtAt_resetBlock (k : Inst) : wtAt (resetBlock s) k = wtReset := wtAt_resetOf s.build k
@[simp] theorem crAt_resetBlock (k : Inst) : crAt (resetBlock s) k = crReset := crAt_resetOf s.build k
@[simp] theorem bqAt_resetBlock (k : Inst) : bqAt (resetBlock s) k = bqReset := bqAt_resetOf s.build k
@[simp] theorem qzAt_resetBlock (k : Inst) : qzAt (resetBlock s) k = qzReset := qzAt_resetOf s.build k
@[simp] theorem ttAt_resetBlock (k : Inst) : ttAt (resetBlock s) k = ttReset := ttAt_resetOf s.build k

end Sys2Proof.Machine
end

