-- ==== Sys2Proof/Laws/Ops.lean ====
section
/-! SUPPORT. Once for each shared operation, everything it can do: the checks (40_command_core.md R103), how a command
ends (R100, R101), what the port can do with an event (20_memory.md R65). -/

namespace Sys2Proof.Machine

/-! ### Checks -/

theorem need_ok_iff {c : Code} {b : Bool} {u : Unit} : need c b = .ok u ↔ b = true := by
  cases b <;> simp [need]

theorem need_error_iff {c e : Code} {b : Bool} : need c b = .error e ↔ b = false ∧ c = e := by
  cases b <;> simp [need]

@[simp] theorem need_true (c : Code) : need c true = .ok () := rfl
@[simp] theorem need_false (c : Code) : need c false = .error c := rfl

@[simp] theorem ok_bind {α β : Type} (a : α) (f : α → Except Code β) : (Except.ok a >>= f) = f a := rfl
@[simp] theorem error_bind {α β : Type} (e : Code) (f : α → Except Code β) :
    ((Except.error e : Except Code α) >>= f) = .error e := rfl
@[simp] theorem pure_eq_ok {α : Type} (a : α) : (pure a : Except Code α) = .ok a := rfl

/-- A check followed by the rest of a command: the rest runs if the condition holds, the code is raised if not. -/
theorem need_bind {β : Type} (c : Code) (b : Bool) (f : Unit → Except Code β) :
    (need c b >>= f) = if b = true then f () else .error c := by
  cases b <;> rfl

/-- What can come of a computation after another: the first one's result goes into the second, or its code out. -/
theorem bind_ok_iff {α β : Type} {x : Except Code α} {f : α → Except Code β} {b : β} :
    (x >>= f) = .ok b ↔ ∃ a, x = .ok a ∧ f a = .ok b := by
  cases x <;> simp

theorem bind_error_iff {α β : Type} {x : Except Code α} {f : α → Except Code β} {e : Code} :
    (x >>= f) = .error e ↔ x = .error e ∨ ∃ a, x = .ok a ∧ f a = .error e := by
  cases x <;> simp

/-! ### How a command ends -/

@[simp] theorem finish_ok (s t : State) : finish s (.ok t) = .next (accept t) := rfl
@[simp] theorem finish_error (s : State) (c : Code) : finish s (.error c) = .next (reject c s) := rfl

/-- A command always answers a next state. -/
theorem finish_next (s : State) (r : Except Code State) : ∃ t, finish s r = .next t := by
  cases r <;> exact ⟨_, rfl⟩

/-- What a command's next state is: the accepted assignments, or the state before it with its STATUS changed. -/
theorem finish_eq_next_iff {s t : State} {r : Except Code State} :
    finish s r = .next t ↔ (∃ u, r = .ok u ∧ t = accept u) ∨ ∃ c, r = .error c ∧ t = reject c s := by
  cases r <;> simp [finish, eq_comm]

theorem finish_ne_fault {s : State} {r : Except Code State} {f : Fault} : finish s r ≠ .fault f := by
  cases r <;> simp [finish]

theorem finish_ne_refused {s : State} {r : Except Code State} {f : Refusal} : finish s r ≠ .refused f := by
  cases r <;> simp [finish]

@[simp] theorem statusAccept_err (st : Status) : (statusAccept st).err = st.err := rfl
@[simp] theorem statusAccept_lastRej (st : Status) : (statusAccept st).lastRej = false := rfl
@[simp] theorem statusAccept_firstCode (st : Status) : (statusAccept st).firstCode = st.firstCode := rfl
@[simp] theorem statusAccept_lastCode (st : Status) : (statusAccept st).lastCode = 0 := rfl
@[simp] theorem statusReject_err (c : Code) (st : Status) : (statusReject c st).err = true := rfl
@[simp] theorem statusReject_lastRej (c : Code) (st : Status) : (statusReject c st).lastRej = true := rfl
@[simp] theorem statusReject_firstCode (c : Code) (st : Status) :
    (statusReject c st).firstCode = if st.err then st.firstCode else codeByte c := rfl
@[simp] theorem statusReject_lastCode (c : Code) (st : Status) : (statusReject c st).lastCode = codeByte c := rfl
theorem accept_lastRej (s : State) : (accept s).status.lastRej = false := rfl
theorem accept_lastCode (s : State) : (accept s).status.lastCode = 0 := rfl
theorem reject_lastRej (c : Code) (s : State) : (reject c s).status.lastRej = true := rfl
theorem reject_lastCode (c : Code) (s : State) : (reject c s).status.lastCode = codeByte c := rfl

/-- An accepted command's next state, told by LAST_REJ. -/
theorem finish_accepted {s t : State} {r : Except Code State} (h : finish s r = .next t)
    (hr : t.status.lastRej = false) : ∃ u, r = .ok u ∧ t = accept u := by
  rcases finish_eq_next_iff.mp h with hu | ⟨c, -, rfl⟩
  · exact hu
  · simp at hr

/-- A rejected command's next state, told by LAST_REJ. -/
theorem finish_rejected {s t : State} {r : Except Code State} (h : finish s r = .next t)
    (hr : t.status.lastRej = true) : ∃ c, r = .error c ∧ t = reject c s := by
  rcases finish_eq_next_iff.mp h with ⟨u, -, rfl⟩ | hc
  · simp at hr
  · exact hc

theorem codeByte_ne_zero (c : Code) : codeByte c ≠ 0 := by cases c <;> decide

theorem codeByte_injective {c e : Code} (h : codeByte c = codeByte e) : c = e := by
  cases c <;> cases e <;> first | rfl | exact absurd h (by decide)

/-! ### Instances -/

theorem instanced_of_lt {n : Nat} {k : Inst} {body : Except Code State} (h : k.toNat < n) :
    instanced n k body = body := if_pos h

theorem instanced_of_le {n : Nat} {k : Inst} {body : Except Code State} (h : n ≤ k.toNat) :
    instanced n k body = .error .inst := if_neg (by omega)

theorem instanced_ok_iff {n : Nat} {k : Inst} {body : Except Code State} {t : State} :
    instanced n k body = .ok t ↔ k.toNat < n ∧ body = .ok t := by
  unfold instanced; split <;> simp_all

theorem instanced_error_iff {n : Nat} {k : Inst} {body : Except Code State} {c : Code} :
    instanced n k body = .error c ↔ (n ≤ k.toNat ∧ c = .inst) ∨ (k.toNat < n ∧ body = .error c) := by
  unfold instanced; split
  · next h => simp [h]
  · next h => simp [h, eq_comm, Nat.not_lt.mp h]

/-! ### The port -/

theorem regAt_regOffset (r : WindowReg) : regAt (regOffset r) = some r := by
  cases r with
  | arg n => revert n; decide
  | res n => revert n; decide
  | _ => rfl

theorem regOffset_lt (r : WindowReg) : regOffset r < 64 := by
  cases r <;> simp only [regOffset] <;> omega

theorem regOffset_mod (r : WindowReg) : regOffset r % 4 = 0 := by
  cases r <;> simp only [regOffset] <;> omega

/-- A legal build's window starts at a multiple of 64 (R5). -/
theorem base_of_legal {b : Build} (h : b.legal = true) : b.base % 64 = 0 := by
  simp only [Build.legal, Bool.and_eq_true, decide_eq_true_eq] at h
  exact h.2

/-- The block admits an aligned 4-byte access of a register, and it reaches that register (R61, R62). -/
theorem admitAccess_regAddress {b : Build} (hb : b.base % 64 = 0) (r : WindowReg) :
    admitAccess b (regAddress b r) 4 = .ok r := by
  have h1 := regOffset_lt r
  have h2 := regOffset_mod r
  have h3 : ¬(regAddress b r < b.base ∨ b.base + 64 ≤ regAddress b r) := by simp only [regAddress]; omega
  have h4 : ¬((4 : Nat) ≠ 4 ∨ regAddress b r % 4 ≠ 0) := by simp only [regAddress]; omega
  have h5 : regAddress b r - b.base = regOffset r := by simp only [regAddress]; omega
  rw [admitAccess, if_neg h3, if_neg h4, h5, regAt_regOffset]

end Sys2Proof.Machine
end

