-- ==== Sys2Proof/Laws/PerInstr.lean ====
section
/-! SUPPORT. Per command: the fields of its command word (30_encoding.md R80, R86). -/

namespace Sys2Proof

/-- The fields of a command word are the ones it was made of (R86). -/
theorem fields_commandWord {unit opc : Nat} (hu : unit < 16) (ho : opc < 256) (k : Inst) :
    reservedField (commandWord unit opc k) = 0 ∧ unitField (commandWord unit opc k) = unit
      ∧ opcField (commandWord unit opc k) = opc ∧ instField (commandWord unit opc k) = k := by
  have hk : k.toNat < 16 := k.isLt
  have hw : (commandWord unit opc k).toNat = k.toNat * 4096 + unit * 256 + opc := by
    simp only [commandWord, BitVec.toNat_ofNat]
    omega
  refine ⟨?_, ?_, ?_, ?_⟩
  · simp only [reservedField, hw]; omega
  · simp only [unitField, hw]; omega
  · simp only [opcField, hw]; omega
  · apply BitVec.eq_of_toNat_eq
    simp only [instField, hw, BitVec.toNat_ofNat]
    omega

/-- The word of a command holds zeros in its reserved bits and the command's instance in INST, 0 for a block-wide
command (R80, R82). -/
def Laws.EncodedFields.Statement (i : Instr) : Prop :=
  reservedField (encode i) = 0 ∧ instField (encode i) = i.address.2.getD 0

/-- The two fields of the statement, of a command word. -/
theorem encodedFields_commandWord {unit opc : Nat} (hu : unit < 16) (ho : opc < 256) (k : Inst) :
    reservedField (commandWord unit opc k) = 0 ∧ instField (commandWord unit opc k) = k :=
  have h := fields_commandWord hu ho k
  ⟨h.1, h.2.2.2⟩

theorem Laws.EncodedFields.paInit (k : Inst) : Laws.EncodedFields.Statement (.paInit k) :=
  encodedFields_commandWord (by decide) (by decide) k
theorem Laws.EncodedFields.paSetRange (k : Inst) : Laws.EncodedFields.Statement (.paSetRange k) :=
  encodedFields_commandWord (by decide) (by decide) k
theorem Laws.EncodedFields.paSetFreq (k : Inst) : Laws.EncodedFields.Statement (.paSetFreq k) :=
  encodedFields_commandWord (by decide) (by decide) k
theorem Laws.EncodedFields.paProcess (k : Inst) : Laws.EncodedFields.Statement (.paProcess k) :=
  encodedFields_commandWord (by decide) (by decide) k
theorem Laws.EncodedFields.paGet (k : Inst) : Laws.EncodedFields.Statement (.paGet k) :=
  encodedFields_commandWord (by decide) (by decide) k
theorem Laws.EncodedFields.paGetCfg (k : Inst) : Laws.EncodedFields.Statement (.paGetCfg k) :=
  encodedFields_commandWord (by decide) (by decide) k
theorem Laws.EncodedFields.wtInit (k : Inst) : Laws.EncodedFields.Statement (.wtInit k) :=
  encodedFields_commandWord (by decide) (by decide) k
theorem Laws.EncodedFields.wtSetFreq (k : Inst) : Laws.EncodedFields.Statement (.wtSetFreq k) :=
  encodedFields_commandWord (by decide) (by decide) k
theorem Laws.EncodedFields.wtSetAmp (k : Inst) : Laws.EncodedFields.Statement (.wtSetAmp k) :=
  encodedFields_commandWord (by decide) (by decide) k
theorem Laws.EncodedFields.wtSetInterp (k : Inst) : Laws.EncodedFields.Statement (.wtSetInterp k) :=
  encodedFields_commandWord (by decide) (by decide) k
theorem Laws.EncodedFields.wtProcess (k : Inst) : Laws.EncodedFields.Statement (.wtProcess k) :=
  encodedFields_commandWord (by decide) (by decide) k
theorem Laws.EncodedFields.wtTableWrite : Laws.EncodedFields.Statement .wtTableWrite :=
  encodedFields_commandWord (by decide) (by decide) 0
theorem Laws.EncodedFields.wtTableRead : Laws.EncodedFields.Statement .wtTableRead :=
  encodedFields_commandWord (by decide) (by decide) 0
theorem Laws.EncodedFields.wtGet (k : Inst) : Laws.EncodedFields.Statement (.wtGet k) :=
  encodedFields_commandWord (by decide) (by decide) k
theorem Laws.EncodedFields.wtGetCfg (k : Inst) : Laws.EncodedFields.Statement (.wtGetCfg k) :=
  encodedFields_commandWord (by decide) (by decide) k
theorem Laws.EncodedFields.crInit (k : Inst) : Laws.EncodedFields.Statement (.crInit k) :=
  encodedFields_commandWord (by decide) (by decide) k
theorem Laws.EncodedFields.crSetFreq (k : Inst) : Laws.EncodedFields.Statement (.crSetFreq k) :=
  encodedFields_commandWord (by decide) (by decide) k
theorem Laws.EncodedFields.crSetAmp (k : Inst) : Laws.EncodedFields.Statement (.crSetAmp k) :=
  encodedFields_commandWord (by decide) (by decide) k
theorem Laws.EncodedFields.crProcess (k : Inst) : Laws.EncodedFields.Statement (.crProcess k) :=
  encodedFields_commandWord (by decide) (by decide) k
theorem Laws.EncodedFields.crGet (k : Inst) : Laws.EncodedFields.Statement (.crGet k) :=
  encodedFields_commandWord (by decide) (by decide) k
theorem Laws.EncodedFields.crGetCfg (k : Inst) : Laws.EncodedFields.Statement (.crGetCfg k) :=
  encodedFields_commandWord (by decide) (by decide) k
theorem Laws.EncodedFields.crRenorm (k : Inst) : Laws.EncodedFields.Statement (.crRenorm k) :=
  encodedFields_commandWord (by decide) (by decide) k
theorem Laws.EncodedFields.bqInit (k : Inst) : Laws.EncodedFields.Statement (.bqInit k) :=
  encodedFields_commandWord (by decide) (by decide) k
theorem Laws.EncodedFields.bqCalc (k : Inst) : Laws.EncodedFields.Statement (.bqCalc k) :=
  encodedFields_commandWord (by decide) (by decide) k
theorem Laws.EncodedFields.bqSetCoef (k : Inst) : Laws.EncodedFields.Statement (.bqSetCoef k) :=
  encodedFields_commandWord (by decide) (by decide) k
theorem Laws.EncodedFields.bqProcess (k : Inst) : Laws.EncodedFields.Statement (.bqProcess k) :=
  encodedFields_commandWord (by decide) (by decide) k
theorem Laws.EncodedFields.bqGetCoef (k : Inst) : Laws.EncodedFields.Statement (.bqGetCoef k) :=
  encodedFields_commandWord (by decide) (by decide) k
theorem Laws.EncodedFields.bqGetHist (k : Inst) : Laws.EncodedFields.Statement (.bqGetHist k) :=
  encodedFields_commandWord (by decide) (by decide) k
theorem Laws.EncodedFields.qzInit (k : Inst) : Laws.EncodedFields.Statement (.qzInit k) :=
  encodedFields_commandWord (by decide) (by decide) k
theorem Laws.EncodedFields.qzSetLen (k : Inst) : Laws.EncodedFields.Statement (.qzSetLen k) :=
  encodedFields_commandWord (by decide) (by decide) k
theorem Laws.EncodedFields.qzTableWrite (k : Inst) : Laws.EncodedFields.Statement (.qzTableWrite k) :=
  encodedFields_commandWord (by decide) (by decide) k
theorem Laws.EncodedFields.qzTableRead (k : Inst) : Laws.EncodedFields.Statement (.qzTableRead k) :=
  encodedFields_commandWord (by decide) (by decide) k
theorem Laws.EncodedFields.qzSetTranspose (k : Inst) : Laws.EncodedFields.Statement (.qzSetTranspose k) :=
  encodedFields_commandWord (by decide) (by decide) k
theorem Laws.EncodedFields.qzIncTranspose (k : Inst) : Laws.EncodedFields.Statement (.qzIncTranspose k) :=
  encodedFields_commandWord (by decide) (by decide) k
theorem Laws.EncodedFields.qzQuantize (k : Inst) : Laws.EncodedFields.Statement (.qzQuantize k) :=
  encodedFields_commandWord (by decide) (by decide) k
theorem Laws.EncodedFields.qzChromatic (k : Inst) : Laws.EncodedFields.Statement (.qzChromatic k) :=
  encodedFields_commandWord (by decide) (by decide) k
theorem Laws.EncodedFields.qzGet (k : Inst) : Laws.EncodedFields.Statement (.qzGet k) :=
  encodedFields_commandWord (by decide) (by decide) k
theorem Laws.EncodedFields.ttInit (k : Inst) : Laws.EncodedFields.Statement (.ttInit k) :=
  encodedFields_commandWord (by decide) (by decide) k
theorem Laws.EncodedFields.ttSetPeriod (k : Inst) : Laws.EncodedFields.Statement (.ttSetPeriod k) :=
  encodedFields_commandWord (by decide) (by decide) k
theorem Laws.EncodedFields.ttSetBpm (k : Inst) : Laws.EncodedFields.Statement (.ttSetBpm k) :=
  encodedFields_commandWord (by decide) (by decide) k
theorem Laws.EncodedFields.ttSetDuration (k : Inst) : Laws.EncodedFields.Statement (.ttSetDuration k) :=
  encodedFields_commandWord (by decide) (by decide) k
theorem Laws.EncodedFields.ttSetMode (k : Inst) : Laws.EncodedFields.Statement (.ttSetMode k) :=
  encodedFields_commandWord (by decide) (by decide) k
theorem Laws.EncodedFields.ttProcess (k : Inst) : Laws.EncodedFields.Statement (.ttProcess k) :=
  encodedFields_commandWord (by decide) (by decide) k
theorem Laws.EncodedFields.ttGetState (k : Inst) : Laws.EncodedFields.Statement (.ttGetState k) :=
  encodedFields_commandWord (by decide) (by decide) k
theorem Laws.EncodedFields.ttGetCfg (k : Inst) : Laws.EncodedFields.Statement (.ttGetCfg k) :=
  encodedFields_commandWord (by decide) (by decide) k
theorem Laws.EncodedFields.nop : Laws.EncodedFields.Statement .nop :=
  encodedFields_commandWord (by decide) (by decide) 0
theorem Laws.EncodedFields.clrErr : Laws.EncodedFields.Statement .clrErr :=
  encodedFields_commandWord (by decide) (by decide) 0
theorem Laws.EncodedFields.softReset : Laws.EncodedFields.Statement .softReset :=
  encodedFields_commandWord (by decide) (by decide) 0
theorem Laws.EncodedFields.dac12 : Laws.EncodedFields.Statement .dac12 :=
  encodedFields_commandWord (by decide) (by decide) 0

end Sys2Proof
end

