-- ==== Sys2Proof/Laws/Round.lean ====
section
/-! SUPPORT. Once for `roundTo`, the one rounding of every operation of 00_scope.md R12, everything it does:
`roundsTo_roundTo`. It rests on where a tie goes (`roundNat_tie_even`) and on where the infinity begins
(`roundNat_lt_infinityBits_iff`). -/

namespace Sys2Proof.Machine

/-- Rounding to an integer takes a value halfway between two to the even one. -/
theorem nearestEven_tie {num den : Nat} (hd : 0 < den)
    (h : 2 * (nearestEven num den * den) = 2 * num + den ∨ 2 * num = 2 * (nearestEven num den * den) + den) :
    nearestEven num den % 2 = 0 := by
  have hdm : num / den * den + num % den = num := by rw [Nat.mul_comm]; exact Nat.div_add_mod num den
  have hlt : num % den < den := Nat.mod_lt _ hd
  unfold nearestEven at h ⊢
  split at h
  · next hc =>
    rw [if_pos hc]
    rw [Nat.add_mul] at h
    omega
  · next hc =>
    rw [if_neg hc]
    omega

/-- Of two nearest encodings rounding takes the even one (R12). -/
theorem roundNat_tie_even {num den : Nat} (hd : 0 < den) {b : Nat} (hb : b ≠ roundNat num den)
    (h : |(magBits (roundNat num den) * den : Int) - num| = |(magBits b * den : Int) - num|) :
    roundNat num den % 2 = 0 := by
  obtain ⟨e, m, hr, hm, hcase, hlow⟩ := roundNat_spec num den
  by_cases hpow : m = 2 ^ 23
  · omega
  have hD : 0 < den * 2 ^ e := Nat.mul_pos hd (Nat.two_pow_pos e)
  have herr := nearestEven_error (num := num) hD
  have hMd : magBits (roundNat num den) * den = nearestEven num (den * 2 ^ e) * (den * 2 ^ e) := by
    rw [hr, magBits_scaled hcase, ← hm]; ring
  have hwhole (q : Nat) (hq : e ≤ q) : den * 2 ^ e ≤ den * 2 ^ q :=
    Nat.mul_le_mul_left den (Nat.pow_le_pow_right (by decide) hq)
  have htie : nearestEven num (den * 2 ^ e) % 2 = 0 := by
    apply nearestEven_tie hD
    rw [← hMd] at herr ⊢
    rcases Nat.lt_or_gt_of_ne hb with hlt | hlt
    · have hmono : magBits b ≤ magBits (roundNat num den - 1) := magBits_strictMono.monotone (by omega)
      have hsucc := magBits_succ (roundNat num den - 1)
      rw [Nat.sub_add_cancel (by omega)] at hsucc
      have hexp : e ≤ (roundNat num den - 1) / 2 ^ 23 - 1 := by omega
      have hstep := hwhole _ hexp
      have hsum : (magBits b + 2 ^ ((roundNat num den - 1) / 2 ^ 23 - 1)) * den ≤ magBits (roundNat num den) * den :=
        Nat.mul_le_mul_right den (by omega)
      rw [Nat.add_mul, Nat.mul_comm (2 ^ _) den] at hsum
      zify at hsum hstep herr ⊢
      rcases abs_cases ((magBits (roundNat num den) * den : Int) - num) with ⟨h1, _⟩ | ⟨h1, _⟩ <;>
        rcases abs_cases ((magBits b * den : Int) - num) with ⟨h2, _⟩ | ⟨h2, _⟩ <;> omega
    · have hmono : magBits (roundNat num den + 1) ≤ magBits b := magBits_strictMono.monotone (by omega)
      rw [magBits_succ] at hmono
      have hexp : e ≤ roundNat num den / 2 ^ 23 - 1 := by omega
      have hstep := hwhole _ hexp
      have hsum : (magBits (roundNat num den) + 2 ^ (roundNat num den / 2 ^ 23 - 1)) * den ≤ magBits b * den :=
        Nat.mul_le_mul_right den hmono
      rw [Nat.add_mul, Nat.mul_comm (2 ^ _) den] at hsum
      zify at hsum hstep herr ⊢
      rcases abs_cases ((magBits (roundNat num den) * den : Int) - num) with ⟨h1, _⟩ | ⟨h1, _⟩ <;>
        rcases abs_cases ((magBits b * den : Int) - num) with ⟨h2, _⟩ | ⟨h2, _⟩ <;> omega
  omega

/-- The magnitude bits stay below the infinity exactly below the overflow bound. -/
theorem roundNat_lt_infinityBits_iff {num den : Nat} (hd : 0 < den) :
    roundNat num den < infinityBits ↔ num < (2 ^ 25 - 1) * 2 ^ 252 * den := by
  constructor
  · intro h
    by_contra hc
    have hge := roundNat_mono (n := (2 ^ 25 - 1) * 2 ^ 252) (d := 1) (n' := num) (by decide) hd (by omega)
    have heq : roundNat ((2 ^ 25 - 1) * 2 ^ 252) 1 = infinityBits := by decide +kernel
    omega
  · intro h
    by_contra hc
    have hM : magBits infinityBits ≤ magBits (roundNat num den) := magBits_strictMono.monotone (by omega)
    have hinf : magBits infinityBits = 2 ^ 24 * 2 ^ 253 := by decide +kernel
    have hmax : magBits (infinityBits - 1) = (2 ^ 24 - 1) * 2 ^ 253 := by decide +kernel
    have hnear := roundNat_nearest (num := num) hd (infinityBits - 1)
    have hMd : 2 ^ 24 * 2 ^ 253 * den ≤ magBits (roundNat num den) * den := Nat.mul_le_mul_right den (hinf ▸ hM)
    rw [hmax] at hnear
    zify at hMd h
    have hd' : (0 : Int) < den := by exact_mod_cast hd
    push_cast at hnear
    generalize (magBits (roundNat num den) * den : Int) = M at *
    rw [abs_of_nonneg (a := M - (num : Int)) (by omega)] at hnear
    rcases le_abs.mp hnear with h1 | h1 <;> omega

/-- A value's encoding below the sign gives its magnitude. -/
theorem valueOf_eq (v : F32) :
    valueOf v = if signOf v then -(magBits (v.toNat % 2 ^ 31) : Int) else (magBits (v.toNat % 2 ^ 31) : Int) := by
  rw [valueOf, magnitude_eq_magBits]

/-- What `roundTo` does with a sign and the value `num / den` units, whole: it rounds correctly (R12). -/
theorem roundsTo_roundTo (neg : Bool) (num : Nat) {den : Nat} (hd : 0 < den) :
    roundsTo (roundTo neg num den) (if neg then -(num : Int) else num) den := by
  have hle := roundBits_le num den
  have hlt31 : roundBits num den < 2 ^ 31 := lt_of_le_of_lt hle infinityBits_lt
  have hiff := roundNat_lt_infinityBits_iff (num := num) hd
  have habs : |if neg then -(num : Int) else num| = num := by cases neg <;> simp
  have hden : |(den : Int)| = den := abs_of_nonneg (by omega)
  unfold roundsTo overflowUnits
  rw [habs, hden]
  constructor
  · intro hsmall
    have hfin : roundNat num den < infinityBits := hiff.mpr (by zify; push_cast; exact hsmall)
    have hbits : roundBits num den = roundNat num den := by rw [roundBits_eq_min]; exact Nat.min_eq_left hfin.le
    refine ⟨by rw [roundTo, isFinite_pack hle, hbits]; exact decide_eq_true hfin, fun v _ => ?_⟩
    have hr : valueOf (roundTo neg num den)
        = if neg then -(magBits (roundNat num den) : Int) else magBits (roundNat num den) := by
      rw [roundTo, valueOf_pack hlt31, hbits]
    have heven : roundNat num den % 2 = 0 → (roundTo neg num den).toNat % 2 = 0 := by
      intro h; rw [roundTo, toNat_pack hlt31, hbits]; cases neg <;> simp <;> omega
    have hn := roundNat_nearest (num := num) hd (v.toNat % 2 ^ 31)
    have h0 := roundNat_nearest (num := num) hd 0
    have htie := fun hb h => heven (roundNat_tie_even (num := num) hd (b := v.toNat % 2 ^ 31) hb h)
    rw [hr, valueOf_eq v]
    have hz : magBits 0 = 0 := rfl
    rw [hz] at h0
    have hV : (0 : Int) ≤ magBits (v.toNat % 2 ^ 31) * den := by positivity
    have hVz : (magBits (v.toNat % 2 ^ 31) * den : Int) = 0 → magBits (v.toNat % 2 ^ 31) = 0 := by
      intro h
      rcases mul_eq_zero.mp h with h | h <;> omega
    have hflip (x y : Int) : |-x * den - -y| = |x * den - y| := by rw [← abs_neg]; congr 1; ring
    have hne : magBits (v.toNat % 2 ^ 31) ≠ magBits (roundNat num den) → v.toNat % 2 ^ 31 ≠ roundNat num den :=
      fun h hc => h (congrArg magBits hc)
    have hcross (x : Int) (hx : 0 ≤ x * den) : |x * den - num| ≤ |-x * den - num| := by
      rw [show -x * den - num = -(x * den + num) by ring, abs_neg, abs_of_nonneg (a := x * den + num) (by omega)]
      rw [abs_le]; constructor <;> omega
    have hcross' (x : Int) (hx : 0 ≤ x * den) (h : |magBits (roundNat num den) * den - (num : Int)| = |-x * den - num|) :
        x * den = 0 := by
      rw [show -x * den - num = -(x * den + num) by ring, abs_neg, abs_of_nonneg (a := x * den + num) (by omega)] at h
      rw [h] at h0
      push_cast at h0
      rw [zero_mul, zero_sub, abs_neg, abs_of_nonneg (by omega)] at h0
      omega
    generalize hR : magBits (roundNat num den) = R at *
    generalize hVv : magBits (v.toNat % 2 ^ 31) = V at *
    cases neg <;> cases signOf v <;> simp only [if_true, if_false, Bool.false_eq_true, hflip]
    · exact ⟨hn, fun h h' => htie (hne (by intro hc; exact h' (by rw [hc]))) h⟩
    · refine ⟨hn.trans (hcross V hV), fun h h' => ?_⟩
      have hv0 := hVz (hcross' V hV h)
      subst hv0
      exact htie (hne (by intro hc; exact h' (by rw [← hc]; rfl))) (by simpa using h)
    · have hs : |(V : Int) * den - -num| = |-(V : Int) * den - num| := by rw [← hflip (V : Int) (-num), neg_neg]
      rw [hs]
      refine ⟨hn.trans (hcross V hV), fun h h' => ?_⟩
      have hv0 := hVz (hcross' V hV h)
      subst hv0
      exact htie (hne (by intro hc; exact h' (by rw [← hc]; rfl))) (by simpa using h)
    · exact ⟨hn, fun h h' => htie (hne (by intro hc; exact h' (by rw [hc]))) h⟩
  · intro hbig
    have hnf : ¬roundNat num den < infinityBits := fun hc => by
      have := hiff.mp hc
      zify at this
      push_cast at hbig this
      omega
    have hbits : roundBits num den = infinityBits := by rw [roundBits_eq_min]; exact Nat.min_eq_right (by omega)
    have hnum : 0 < num := by
      have hd' : (0 : Int) < den := by exact_mod_cast hd
      have : (0 : Int) < (2 ^ 25 - 1) * 2 ^ 252 * den := by positivity
      omega
    rw [roundTo, hbits, signOf_pack infinityBits_lt]
    refine ⟨by cases neg <;> decide +kernel, ?_⟩
    have hpos : (0 : Int) < num * den := by positivity
    cases neg <;> simp only [if_true, if_false, Bool.false_eq_true, false_iff, true_iff, not_lt] <;> linarith

end Sys2Proof.Machine
end

