-- ==== Sys2Proof/Tests/Slice0.lean ====
section
/-! SUPPORT. Tests of the model, each on fixed values, and the witnesses that the hypotheses of the obligations can be
met. Expected values are those of 95_test_vectors.md (a vector's name stands in the docstring) or are written out by
hand from the rule named. -/

namespace Sys2Proof.Tests

open Sys2Proof.Machine

-- One theorem at a time: each would otherwise hold a thread of its own, with its stack.
set_option Elab.async false

/-! ## Helpers -/

/-- A state with ARG0..ARG2 set. -/
def withArgs (s : State) (a b c : Word) : State := { s with args := #v[a, b, c, 0] }

/-- The reset state with one event at the port. -/
def withEvent (e : PortEvent) : State := { State.reset with pending := [e] }

/-- RES0..RES3 and the STATUS word of a next state. -/
def answer : Host.Outcome State Fault Refusal → Option (List Word × Word)
  | .next t => some (t.res.toList, statusWord t.status)
  | .fault _ => none
  | .refused _ => none

/-- Something of a next state. -/
def after {α : Type} (read : State → α) : Host.Outcome State Fault Refusal → Option α
  | .next t => some (read t)
  | .fault _ => none
  | .refused _ => none

/-- The sine table of section 2.3 of the vectors. -/
def sineTable : Memory F32 :=
  [(1, 0x3F3504F3#32), (2, 0x3F800000#32), (3, 0x3F3504F3#32), (5, 0xBF3504F3#32), (6, 0xBF800000#32),
   (7, 0xBF3504F3#32)]

/-- WT[0] running over the sine table. -/
def sineState (inc phase amp : F32) (interp : Interp) : State :=
  { setWt State.reset 0 { wtReset with inc := inc, phase := phase, amp := amp, interp := interp } with
    wtab := sineTable }

/-- The scale table of section 2.6 of the vectors, T as given. -/
def scaleState (cv transpose : Word) : State :=
  { setQz (withArgs State.reset cv 0 0) 0 { n := 8, transpose := transpose } with
    qt := bankSet State.reset.qt 0
      [(0, ⟨0x3DAAAAAB#32, 0x00000000#32⟩), (1, ⟨0x3E800000#32, 0x3E2AAAAB#32⟩), (2, ⟨0x3EC00000#32, 0x3EAAAAAB#32⟩),
       (3, ⟨0x3F000000#32, 0x3ED55555#32⟩), (4, ⟨0x3F2AAAAB#32, 0x3F155555#32⟩), (5, ⟨0x3F555555#32, 0x3F400000#32⟩),
       (6, ⟨0x3F755555#32, 0x3F6AAAAB#32⟩), (7, ⟨0x3F800000#32, 0x3F800000#32⟩)] }

/-- The two-entry table of vector QZ-N1. -/
def shortScale (cv : Word) : State :=
  { setQz (withArgs State.reset cv 0 0) 0 { n := 2, transpose := 0 } with
    qt := bankSet State.reset.qt 0 [(0, ⟨0x3E800000#32, 0x00000000#32⟩), (1, ⟨0x3F000000#32, 0x3F000000#32⟩)] }

/-- PA[0] with a range, an increment and a phase. -/
def paState (range inc phase : F32) : State :=
  setPa State.reset 0 { paReset with range := range, inc := inc, phase := phase }

/-- The filter of vector BQ-8 with a history. -/
def filterState (x x1 x2 y1 y2 : F32) : State :=
  setBq (withArgs State.reset x 0 0) 0
    { b0 := 0x3F000000#32, b1 := 0x3E800000#32, b2 := 0x3E000000#32, a1 := 0xBF000000#32, a2 := 0x3E800000#32,
      x1 := x1, x2 := x2, y1 := y1, y2 := y2 }

/-- A timer: interval 8, duration 4, step 0.5 in mode 1 (vector TT-22), or mode 0. -/
def timerState (mode : TtMode) (counter : Word) (st : TtState) (ramp : F32) : State :=
  setTt State.reset 0
    { ttReset with interval := 8, duration := 4, step := 0x3F000000#32, mode := mode, counter := counter, state := st,
                   ramp := ramp }

/-- Functions for a block of the tests: constants, so that a design can be computed by hand. -/
def constTrig (v : F32) : Trig := { tan := fun _ => v, sin := fun _ => v, cos := fun _ => v }

/-! ## Well-formedness refuses what is ill formed (R5, R82) -/

theorem test_legal_build : Build.vectors.legal = true := by decide

theorem test_legal_largest_build :
    ({ nPA := 16, nWT := 16, nCR := 16, nBQ := 16, nQZ := 16, nTT := 16, wtLen := 65536, qzMax := 256, base := 64 }
      : Build).legal = true := by decide

theorem test_illegal_counts :
    { Build.vectors with nPA := 0 }.legal = false ∧ { Build.vectors with nPA := 17 }.legal = false
      ∧ { Build.vectors with nWT := 0 }.legal = false ∧ { Build.vectors with nWT := 17 }.legal = false
      ∧ { Build.vectors with nCR := 0 }.legal = false ∧ { Build.vectors with nCR := 17 }.legal = false
      ∧ { Build.vectors with nBQ := 0 }.legal = false ∧ { Build.vectors with nBQ := 17 }.legal = false
      ∧ { Build.vectors with nQZ := 0 }.legal = false ∧ { Build.vectors with nQZ := 17 }.legal = false
      ∧ { Build.vectors with nTT := 0 }.legal = false ∧ { Build.vectors with nTT := 17 }.legal = false := by decide

theorem test_illegal_sizes :
    { Build.vectors with wtLen := 3 }.legal = false ∧ { Build.vectors with wtLen := 65537 }.legal = false
      ∧ { Build.vectors with qzMax := 1 }.legal = false ∧ { Build.vectors with qzMax := 257 }.legal = false
      ∧ { Build.vectors with base := 4 }.legal = false := by decide

theorem test_ill_formed_commands :
    Instr.wellFormed Build.vectors (.paGet 1) = false ∧ Instr.wellFormed Build.vectors (.wtGet 1) = false
      ∧ Instr.wellFormed Build.vectors (.crGet 1) = false ∧ Instr.wellFormed Build.vectors (.bqGetHist 1) = false
      ∧ Instr.wellFormed Build.vectors (.qzGet 1) = false ∧ Instr.wellFormed Build.vectors (.ttGetCfg 15) = false
      ∧ Instr.wellFormed Build.vectors (.paGet 0) = true ∧ Instr.wellFormed Build.vectors .nop = true := by decide

/-! ## Decoding: every row of R87, its word written from the row's UNIT, OPC and an INST -/

theorem test_decode_pa :
    decode 0x00000000#32 = .ok (.paInit 0) ∧ decode 0x00001001#32 = .ok (.paSetRange 1)
      ∧ decode 0x00003002#32 = .ok (.paSetFreq 3) ∧ decode 0x0000F003#32 = .ok (.paProcess 15)
      ∧ decode 0x00002004#32 = .ok (.paGet 2) ∧ decode 0x00008005#32 = .ok (.paGetCfg 8) := by decide

theorem test_decode_wt :
    decode 0x00001100#32 = .ok (.wtInit 1) ∧ decode 0x00000101#32 = .ok (.wtSetFreq 0)
      ∧ decode 0x00002102#32 = .ok (.wtSetAmp 2) ∧ decode 0x00004103#32 = .ok (.wtSetInterp 4)
      ∧ decode 0x0000F104#32 = .ok (.wtProcess 15) ∧ decode 0x00003105#32 = .ok (.wtGet 3)
      ∧ decode 0x00000106#32 = .ok (.wtGetCfg 0) ∧ decode 0x00000107#32 = .ok .wtTableWrite
      ∧ decode 0x00000108#32 = .ok .wtTableRead := by decide

theorem test_decode_cr :
    decode 0x00000200#32 = .ok (.crInit 0) ∧ decode 0x00001201#32 = .ok (.crSetFreq 1)
      ∧ decode 0x0000A202#32 = .ok (.crSetAmp 10) ∧ decode 0x00000203#32 = .ok (.crProcess 0)
      ∧ decode 0x00005204#32 = .ok (.crGet 5) ∧ decode 0x00000205#32 = .ok (.crGetCfg 0)
      ∧ decode 0x00001206#32 = .ok (.crRenorm 1) := by decide

theorem test_decode_bq :
    decode 0x00000300#32 = .ok (.bqInit 0) ∧ decode 0x00000301#32 = .ok (.bqCalc 0)
      ∧ decode 0x00007302#32 = .ok (.bqSetCoef 7) ∧ decode 0x00001303#32 = .ok (.bqProcess 1)
      ∧ decode 0x00000304#32 = .ok (.bqGetCoef 0) ∧ decode 0x00002305#32 = .ok (.bqGetHist 2) := by decide

theorem test_decode_qz :
    decode 0x00000400#32 = .ok (.qzInit 0) ∧ decode 0x00001401#32 = .ok (.qzSetLen 1)
      ∧ decode 0x00000402#32 = .ok (.qzTableWrite 0) ∧ decode 0x00000403#32 = .ok (.qzTableRead 0)
      ∧ decode 0x00009404#32 = .ok (.qzSetTranspose 9) ∧ decode 0x00000405#32 = .ok (.qzIncTranspose 0)
      ∧ decode 0x00002406#32 = .ok (.qzQuantize 2) ∧ decode 0x00000407#32 = .ok (.qzChromatic 0)
      ∧ decode 0x00003408#32 = .ok (.qzGet 3) := by decide

theorem test_decode_tt :
    decode 0x00000500#32 = .ok (.ttInit 0) ∧ decode 0x00001501#32 = .ok (.ttSetPeriod 1)
      ∧ decode 0x00000502#32 = .ok (.ttSetBpm 0) ∧ decode 0x00002503#32 = .ok (.ttSetDuration 2)
      ∧ decode 0x00000504#32 = .ok (.ttSetMode 0) ∧ decode 0x00000505#32 = .ok (.ttProcess 0)
      ∧ decode 0x0000C506#32 = .ok (.ttGetState 12) ∧ decode 0x00000507#32 = .ok (.ttGetCfg 0) := by decide

theorem test_decode_core :
    decode 0x00000F00#32 = .ok .nop ∧ decode 0x00000F01#32 = .ok .clrErr ∧ decode 0x00000F02#32 = .ok .softReset
      ∧ decode 0x00000F03#32 = .ok .dac12 := by decide

/-- Vectors CORE-X1 to X9: refused by name. -/
theorem test_decode_refuses :
    decode 0x00010F00#32 = .error .reservedBits ∧ decode 0xFFFFFFFF#32 = .error .reservedBits
      ∧ decode 0x00000600#32 = .error .unlisted ∧ decode 0x00000E00#32 = .error .unlisted
      ∧ decode 0x00000006#32 = .error .unlisted ∧ decode 0x00000109#32 = .error .unlisted
      ∧ decode 0x00000F04#32 = .error .unlisted ∧ decode 0x00001F00#32 = .error .instNotZero
      ∧ decode 0x00001107#32 = .error .instNotZero ∧ decodeBytes [0, 0, 0] = .error .truncated := by decide

/-- The bytes of a command word in memory order (R64), with something after them. -/
theorem test_decode_bytes : decodeBytes [0x02, 0x30, 0x00, 0x00, 0xAA] = .ok (.paSetFreq 3, [0xAA]) := by decide

theorem test_decode_table_word : decodeTableWord 32 0xF03 = some .dac12 := by decide

/-! ## The port (20_memory.md) -/

/-- R31: a read of ID. -/
theorem test_read_id : after State.readData (step (withEvent (.read 0x00 4))) = some (some 0x50410007#32) := by decide

/-- R32: CFG of the vectors' build is 0; a build with three BQ and sixteen TT instances. -/
theorem test_read_cfg :
    after State.readData (step (withEvent (.read 0x04 4))) = some (some 0#32)
      ∧ cfgWord { Build.vectors with nBQ := 3, nTT := 16 } = 0x00F02000#32 := by decide

/-- R35: a write of ARG2 lands there. -/
theorem test_write_arg :
    after State.args (step (withEvent (.write 0x28 4 0x1234#32))) = some #v[0, 0, 0x1234#32, 0] := by decide

/-- R62, R237: a byte access and a misaligned one. -/
theorem test_bus_error :
    step (withEvent (.read 0x10 1)) = .fault (.busError 0x10 1)
      ∧ step (withEvent (.write 0x12 4 0)) = .fault (.busError 0x12 4) := ⟨rfl, rfl⟩

/-- R60: just past the window. -/
theorem test_outside_window : step (withEvent (.read 0x40 4)) = .fault (.outsideWindow 0x40) := rfl

/-- A write of CMD runs the command (CORE-X10: PA_INIT of an absent instance). -/
theorem test_cmd_write :
    answer (step (withEvent (.write 0x14 4 0x00001000#32))) = some ([0, 0, 0, 0], 0x00020203#32) := by decide

/-- Vector CORE-X1. -/
theorem test_cmd_illegal :
    answer (step (withEvent (.write 0x14 4 0x00010F00#32))) = some ([0, 0, 0, 0], 0x00010103#32) := by decide

/-- The lines R90 gives for a command (program P3, QZ_TABLE_WRITE 0, 2, ...). -/
theorem test_asm_command :
    expandLine Build.vectors (.command (.qzTableWrite 0) [.integer 2, .word 0x3EC00000#32, .decimal false 1 2])
      = [.write 0x20 4 2#32, .write 0x24 4 0x3EC00000#32, .write 0x28 4 0x3F000000#32, .write 0x14 4 0x402#32] := by
  decide +kernel

/-! ## Arithmetic (00_scope.md) -/

/-- Ties to even, a subnormal result kept, overflow, the canonical NaN. -/
theorem test_float_add :
    fadd 0x3F800000#32 0x33800000#32 = 0x3F800000#32 ∧ fadd 0x3F800001#32 0x33800000#32 = 0x3F800002#32
      ∧ fsub 0x00800000#32 0x00000001#32 = 0x007FFFFF#32 ∧ fadd 0x7F7FFFFF#32 0x7F7FFFFF#32 = 0x7F800000#32
      ∧ fsub 0x7F800000#32 0x7F800000#32 = 0x7FC00000#32 ∧ fadd 0x3F800000#32 0xBF800000#32 = 0#32 := by
  decide +kernel

/-- 1/3, a product that rounds to even, a root; 96000 and 411428.5625 of vectors TT-4 and TT-7. -/
theorem test_float_mul_div_sqrt :
    fdiv 0x3F800000#32 0x40400000#32 = 0x3EAAAAAB#32 ∧ fmul 0x473B8000#32 0x40000000#32 = 0x47BB8000#32
      ∧ fdiv (fmul 0x473B8000#32 fSIXTY) 0x40E00000#32 = 0x48C8E492#32 ∧ fsqrt 0x40000000#32 = 0x3FB504F3#32
      ∧ fmul 0x00000001#32 0x3F000000#32 = 0#32 ∧ fsqrt 0xBF800000#32 = 0x7FC00000#32 := by decide +kernel

/-- R15: 2^24 + 1 rounds to even; half rounds away from zero. -/
theorem test_float_convert :
    toF 16777217 = 0x4B800000#32 ∧ roundF 0x41B40000#32 = 0x41B80000#32 ∧ roundF 0xBF000000#32 = 0xBF800000#32
      ∧ floorI 0x402F0000#32 = 2 ∧ truncI 0x3F7FFFFF#32 = 0 := by decide +kernel

/-! ## CORE -/

/-- The last step of vector CORE-S1: ERR and FIRST_CODE are kept. -/
theorem test_nop : answer (exec .nop (reject .operand State.reset)) = some ([0, 0, 0, 0], 0x00000501#32) := by decide

/-- Vector CORE-S2. -/
theorem test_clr_err :
    answer (exec .clrErr (reject .config (reject .operand State.reset))) = some ([0, 0, 0, 0], 0#32) := by decide

/-- R112: everything but what waits at the port. -/
theorem test_soft_reset :
    after id (exec .softReset (reject .index (paState fTWO fHALF fHALF))) = some State.reset := by decide +kernel

/-- Vectors CORE-D1, D4, D7 and D12. -/
theorem test_dac12 :
    answer (exec .dac12 (withArgs State.reset 0x3F000000#32 0 0)) = some ([0x800, 0, 0, 0], 0)
      ∧ answer (exec .dac12 (withArgs State.reset 0x3E800000#32 0 0)) = some ([0x400, 0, 0, 0], 0)
      ∧ answer (exec .dac12 (withArgs State.reset 0x40200000#32 1 0)) = some ([0x7FF, 0, 0, 0], 0)
      ∧ answer (exec .dac12 (withArgs State.reset 0x7E967699#32 1 0)) = some ([0xFFF, 0, 0, 0], 0) := by decide +kernel

/-- Vectors CORE-D6, D13 and D14. -/
theorem test_dac12_rejects :
    answer (exec .dac12 (withArgs State.reset 0x3F800001#32 0 0)) = some ([0, 0, 0, 0], 0x00050503)
      ∧ answer (exec .dac12 (withArgs State.reset 0x7FC00000#32 1 0)) = some ([0, 0, 0, 0], 0x00050503)
      ∧ answer (exec .dac12 (withArgs State.reset 0x3F000000#32 2 0)) = some ([0, 0, 0, 0], 0x00050503) := by
  decide +kernel

/-! ## PA -/

/-- Vectors PA-3 and PA-4. -/
theorem test_pa_init :
    after (paAt · 0) (exec (.paInit 0) (withArgs (paState fTWO fONE fHALF) 0x472C4400#32 0 0))
        = some { paReset with fs := 0x472C4400#32 }
      ∧ answer (exec (.paInit 0) (withArgs State.reset 0 0 0)) = some ([0, 0, 0, 0], 0x00050503) := by decide +kernel

/-- Vector PA-13, from a phase that is not 0; vector PA-11's 2^25. -/
theorem test_pa_set_range :
    after (paAt · 0)
        (exec (.paSetRange 0)
          (withArgs (setPa State.reset 0 { paReset with freq := 0x447A0000#32, phase := fHALF }) 0x40C90FDB#32 0 0))
        = some { paReset with freq := 0x447A0000#32, range := 0x40C90FDB#32, inc := 0x3E060A92#32 }
      ∧ answer (exec (.paSetRange 0) (withArgs State.reset 0x4C000000#32 0 0)) = some ([0, 0, 0, 0], 0x00050503) := by
  decide +kernel

/-- Vectors PA-5's increment and PA-9's negative zero. -/
theorem test_pa_set_freq :
    after (paAt · 0) (exec (.paSetFreq 0) (withArgs State.reset 0x463B8000#32 0 0))
        = some { paReset with freq := 0x463B8000#32, inc := 0x3E800000#32 }
      ∧ after (paAt · 0) (exec (.paSetFreq 0) (withArgs State.reset 0x80000000#32 0 0))
        = some { paReset with freq := 0x80000000#32, inc := 0x80000000#32 } := by decide +kernel

/-- Vectors PA-7 and PA-8. -/
theorem test_pa_set_freq_edge :
    let s (hz : Word) :=
      withArgs (setPa State.reset 0 { paReset with fs := 0x47C04881#32, range := 0x45016BB9#32 }) hz 0 0
    answer (exec (.paSetFreq 0) (s 0x47C04880#32)) = some ([0, 0, 0, 0], 0x00050503)
      ∧ after (fun t => (paAt t 0).inc) (exec (.paSetFreq 0) (s 0x47C0487F#32)) = some 0x45016BB8#32 := by
  decide +kernel

/-- The fifth and second samples of PA-S1 (E4). -/
theorem test_pa_process :
    answer (exec (.paProcess 0) (paState fONE 0x3E555555#32 0x3F555555#32)) = some ([0x3D2AAAA0, 1, 0, 0], 0)
      ∧ answer (exec (.paProcess 0) (paState fONE 0x3E555555#32 0x3E555555#32)) = some ([0x3ED55555, 0, 0, 0], 0) := by
  decide +kernel

/-- Vector PA-1, and the order of the four fields (R128). -/
theorem test_pa_get :
    answer (exec (.paGet 0) State.reset) = some ([0, 0, 0, 0x3F800000], 0)
      ∧ answer (exec (.paGet 0) (setPa State.reset 0 { fs := 5, range := 4, freq := 3, inc := 2, phase := 1 }))
        = some ([1, 2, 3, 4], 0) := by decide +kernel

/-- Vector PA-2. -/
theorem test_pa_get_cfg : answer (exec (.paGetCfg 0) State.reset) = some ([0x473B8000, 0, 0, 0], 0) := by
  decide +kernel

/-! ## WT -/

/-- Vector WT-17. -/
theorem test_wt_init :
    after (fun t => (wtAt t 0, t.wtab)) (exec (.wtInit 0) (withArgs (sineState fHALF fTWO fONE .cubic) 0x473B8000#32 0 0))
      = some (wtReset, sineTable) := by decide +kernel

/-- Vectors WT-10 and WT-9. -/
theorem test_wt_set_freq :
    after (fun t => (wtAt t 0).inc) (exec (.wtSetFreq 0) (withArgs State.reset 0x473B7FFF#32 0 0))
        = some 0x40FFFFFF#32
      ∧ answer (exec (.wtSetFreq 0) (withArgs State.reset 0x473B8000#32 0 0)) = some ([0, 0, 0, 0], 0x00050503) := by
  decide +kernel

/-- R132 and vector WT-16. -/
theorem test_wt_set_amp :
    after (wtAt · 0) (exec (.wtSetAmp 0) (withArgs State.reset 0xBF000000#32 0 0))
        = some { wtReset with amp := 0xBF000000#32 }
      ∧ answer (exec (.wtSetAmp 0) (withArgs State.reset 0x7FC00000#32 0 0)) = some ([0, 0, 0, 0], 0x00050503) := by
  decide +kernel

/-- R133 and vector WT-11. -/
theorem test_wt_set_interp :
    after (wtAt · 0) (exec (.wtSetInterp 0) (withArgs State.reset 1 0 0)) = some { wtReset with interp := .cubic }
      ∧ answer (exec (.wtSetInterp 0) (withArgs State.reset 2 0 0)) = some ([0, 0, 0, 0], 0x00050503) := by
  decide +kernel

/-- Vector WT-4's first two samples (0, then a wrap) and WT-2's first. -/
theorem test_wt_process_linear :
    answer (exec (.wtProcess 0) (sineState 0x40D80000#32 0 fONE .linear)) = some ([0xBF47C3B6, 0, 0, 0], 0)
      ∧ answer (exec (.wtProcess 0) (sineState 0x40D80000#32 0x40D80000#32 fONE .linear))
        = some ([0xBF5A827A, 1, 0, 0], 0)
      ∧ answer (exec (.wtProcess 0) (sineState 0x3EAAAAAB#32 0 fONE .linear)) = some ([0x3E715BEF, 0, 0, 0], 0) := by
  decide +kernel

/-- The first samples of vectors WT-C4, WT-C1 and WT-C2. -/
theorem test_wt_process_cubic :
    answer (exec (.wtProcess 0) (sineState 0x40D80000#32 0 fONE .cubic)) = some ([0xBF52BC2D, 0, 0, 0], 0)
      ∧ answer (exec (.wtProcess 0) (sineState fHALF 0 fONE .cubic)) = some ([0x3EC24630, 0, 0, 0], 0)
      ∧ answer (exec (.wtProcess 0) (sineState 0x3EAAAAAB#32 0 fONE .cubic)) = some ([0x3E8088C6, 0, 0, 0], 0) := by
  decide +kernel

/-- R138, vectors WT-13 and WT-12 (with the STATUS R101 gives, log 13). -/
theorem test_wt_table_write :
    after State.wtab (exec .wtTableWrite (withArgs (sineState 0 0 0 .linear) 1 0 0)) = some (sineTable.drop 1)
      ∧ answer (exec .wtTableWrite (withArgs State.reset 3 0x7F800000#32 0)) = some ([0, 0, 0, 0], 0x00050503)
      ∧ answer (exec .wtTableWrite (withArgs State.reset 8 fONE 0)) = some ([0, 0, 0, 0], 0x00030303) := by
  decide +kernel

/-- Vectors WT-15 and WT-14. -/
theorem test_wt_table_read :
    answer (exec .wtTableRead (withArgs (sineState 0 0 0 .linear) 3 0 0)) = some ([0x3F3504F3, 0, 0, 0], 0)
      ∧ answer (exec .wtTableRead (withArgs State.reset 8 0 0)) = some ([0, 0, 0, 0], 0x00030303) := by decide +kernel

/-- The order of the four fields (R140). -/
theorem test_wt_get :
    answer (exec (.wtGet 0)
        (setWt State.reset 0 { fs := 5, freq := 3, inc := 2, phase := 1, amp := 4, interp := .cubic }))
      = some ([1, 2, 3, 4], 0) := by decide +kernel

/-- Vector WT-7, and the cubic mode (R141). -/
theorem test_wt_get_cfg :
    answer (exec (.wtGetCfg 0) State.reset) = some ([0x473B8000, 0, 0, 0], 0)
      ∧ answer (exec (.wtGetCfg 0) (sineState 0 0 0 .cubic)) = some ([0x473B8000, 1, 0, 0], 0) := by decide +kernel

/-! ## CR -/

/-- R150: the multiplier and value are (1, 0). -/
theorem test_cr_init :
    after (crAt · 0)
        (exec (.crInit 0) (withArgs (setCr State.reset 0 ⟨0, 1, 2, 3, 4, 5, 6⟩) 0x472C4400#32 0 0))
      = some { crReset with fs := 0x472C4400#32 } := by decide +kernel

/-- R153 with constant functions; vectors CR-12 and CR-13. -/
theorem test_cr_set_freq :
    after (crAt · 0) (crSetFreqWith (constTrig fHALF) 0 (withArgs State.reset 0x447A0000#32 0 0))
        = some { crReset with freq := 0x447A0000#32, mre := fHALF, mim := fHALF }
      ∧ answer (crSetFreqWith (constTrig fHALF) 0 (withArgs State.reset 0x7F800000#32 0 0))
        = some ([0, 0, 0, 0], 0x00050503)
      ∧ answer (crSetFreqWith (constTrig fHALF) 0 (withArgs State.reset 0x7E800000#32 0 0))
        = some ([0, 0, 0, 0], 0x00050503) := by decide +kernel

/-- R152: DPhi of vectors CR-3 and CR-7. -/
theorem test_cr_phase_delta :
    phaseDelta 0x447A0000#32 fFS_RESET = 0x3E060A92#32 ∧ phaseDelta 0x463B8000#32 fFS_RESET = 0x3FC90FDB#32 := by
  decide +kernel

/-- R154: any finite amplitude. -/
theorem test_cr_set_amp :
    after (crAt · 0) (exec (.crSetAmp 0) (withArgs State.reset 0xBF800000#32 0 0))
        = some { crReset with amp := 0xBF800000#32 }
      ∧ answer (exec (.crSetAmp 0) (withArgs State.reset 0xFF800000#32 0 0)) = some ([0, 0, 0, 0], 0x00050503) := by
  decide +kernel

/-- The second samples of vectors CR-4 and CR-8. -/
theorem test_cr_process :
    answer (exec (.crProcess 0) (setCr State.reset 0
        { crReset with mre := 0x3F7DCF55#32, mim := 0x3E05A8A9#32, vre := 0x3F7DCF55#32, vim := 0x3E05A8A9#32,
                       amp := 0x3F000000#32 }))
        = some ([0x3E0483EF, 0x3F7746EB, 0x3E8483EF, 0], 0)
      ∧ answer (exec (.crProcess 0) (setCr State.reset 0
        { crReset with mre := 0xB33BBD2E#32, mim := 0x3F800000#32, vre := 0xB33BBD2E#32, vim := 0x3F800000#32,
                       amp := 0x3F800000#32 }))
        = some ([0xB3BBBD2E, 0xBF800000, 0xB3BBBD2E, 0], 0) := by decide +kernel

/-- Vector CR-5; a zero value is a CONFIG (R157). -/
theorem test_cr_renorm :
    after (crAt · 0) (exec (.crRenorm 0) (setCr State.reset 0 { crReset with vre := 0x3F5DB3D9#32, vim := 0x3F000001#32 }))
        = some { crReset with vre := 0x3F5DB3D7#32, vim := 0x3F000000#32 }
      ∧ answer (exec (.crRenorm 0) (setCr State.reset 0 { crReset with vre := 0, vim := 0x80000000#32 }))
        = some ([0, 0, 0, 0], 0x00040403) := by decide +kernel

/-- Vector CR-1, and the order of the four fields (R158). -/
theorem test_cr_get :
    answer (exec (.crGet 0) State.reset) = some ([0x3F800000, 0, 0x3F800000, 0], 0)
      ∧ answer (exec (.crGet 0) (setCr State.reset 0 ⟨7, 6, 3, 4, 1, 2, 5⟩)) = some ([1, 2, 3, 4], 0) := by
  decide +kernel

/-- The order of the three fields (R159). -/
theorem test_cr_get_cfg :
    answer (exec (.crGetCfg 0) (setCr State.reset 0 ⟨1, 2, 4, 5, 6, 7, 3⟩)) = some ([1, 2, 3, 0], 0) := by
  decide +kernel

/-! ## BQ -/

/-- Vector BQ-16. -/
theorem test_bq_init : after (bqAt · 0) (exec (.bqInit 0) (filterState 0 1 2 3 4)) = some bqReset := by decide +kernel

/-- Vector BQ-1, whose tangent is 1.0 (E10), with the history kept. -/
theorem test_bq_calc :
    after (bqAt · 0)
        (bqCalcWith (constTrig fONE) 0
          (withArgs (setBq State.reset 0 { bqReset with x1 := 1, y2 := 2 }) 0x473B8000#32 0x463B8000#32 fONE))
      = some { bqReset with b0 := 0x3EAAAAAB#32, b1 := 0x3F2AAAAB#32, b2 := 0x3EAAAAAB#32, a1 := 0,
                            a2 := 0x3EAAAAAB#32, x1 := 1, y2 := 2 } := by decide +kernel

/-- Vectors BQ-2, BQ-4 and the first of BQ-6; the design of BQ-7 with the tangent E6 lists. -/
theorem test_bq_calc_edges :
    answer (bqCalcWith (constTrig fONE) 0 (withArgs State.reset 0x473B8000#32 0x46BB8000#32 fONE))
        = some ([0, 0, 0, 0], 0x00050503)
      ∧ answer (bqCalcWith (constTrig fONE) 0 (withArgs State.reset 0x473B8000#32 0x447A0000#32 0))
        = some ([0, 0, 0, 0], 0x00050503)
      ∧ answer (bqCalcWith (constTrig fONE) 0 (withArgs State.reset 0 0x447A0000#32 fONE))
        = some ([0, 0, 0, 0], 0x00050503)
      ∧ designWith (fun _ => 0x3D863BA7#32) fFS_RESET 0x447A0000#32 0x3F34FDF4#32
        = ⟨0x3B80526F#32, 0x3C00526F#32, 0x3B80526F#32, 0xBFE85C56#32, 0x3F54BB40#32⟩ := by decide +kernel

/-- R173's selectors 3 and 4; vectors BQ-10 and BQ-13. -/
theorem test_bq_set_coef :
    after (bqAt · 0) (exec (.bqSetCoef 0) (withArgs State.reset 3 fTWO 0)) = some { bqReset with a1 := fTWO }
      ∧ after (bqAt · 0) (exec (.bqSetCoef 0) (withArgs State.reset 1 fTWO 0)) = some { bqReset with b1 := fTWO }
      ∧ answer (exec (.bqSetCoef 0) (withArgs State.reset 5 fONE 0)) = some ([0, 0, 0, 0], 0x00030303)
      ∧ answer (exec (.bqSetCoef 0) (withArgs State.reset 0 0x7FC00000#32 0)) = some ([0, 0, 0, 0], 0x00050503) := by
  decide +kernel

/-- The third and fifth outputs of vector BQ-8. -/
theorem test_bq_process :
    answer (exec (.bqProcess 0) (filterState 0 0 0x3F800000#32 0x3F000000#32 0x3F000000#32))
        = some ([0x3E800000, 0, 0, 0], 0)
      ∧ after (bqAt · 0) (exec (.bqProcess 0) (filterState 0 0 0 0 0x3E800000#32))
        = some (bqAt (filterState 0 0 0 0xBD800000#32 0) 0) := by decide +kernel

/-- R175 with all coefficients +0.0 and three negative inputs running: -0.0 (log 14); after two, +0.0. -/
theorem test_bq_process_zero_coefficients :
    let s (x2 : F32) := withArgs (setBq State.reset 0 { bqReset with x1 := 0xBF800000#32, x2 := x2 }) 0xBF800000#32 0 0
    answer (exec (.bqProcess 0) (s 0xBF800000#32)) = some ([0x80000000, 0, 0, 0], 0)
      ∧ answer (exec (.bqProcess 0) (s 0)) = some ([0, 0, 0, 0], 0) := by decide +kernel

/-- Vector BQ-12, and the second and third outputs of BQ-D1: infinity minus infinity is the canonical NaN. -/
theorem test_bq_process_edges :
    answer (exec (.bqProcess 0) (withArgs State.reset 0x7F800000#32 0 0)) = some ([0, 0, 0, 0], 0x00050503)
      ∧ answer (exec (.bqProcess 0) (setBq State.reset 0
          { bqReset with b0 := 0x7149F2CA#32, a1 := 0xF149F2CA#32, a2 := 0x7149F2CA#32, x1 := fONE, y1 := 0x7149F2CA#32 }))
        = some ([0x7F800000, 0, 0, 0], 0)
      ∧ answer (exec (.bqProcess 0) (setBq State.reset 0
          { bqReset with b0 := 0x7149F2CA#32, a1 := 0xF149F2CA#32, a2 := 0x7149F2CA#32, x2 := fONE, y1 := 0x7F800000#32,
                         y2 := 0x7149F2CA#32 })) = some ([0x7FC00000, 0, 0, 0], 0) := by
  decide +kernel

/-- R174's selectors; vector BQ-11. -/
theorem test_bq_get_coef :
    answer (exec (.bqGetCoef 0) (withArgs (filterState 0 0 0 0 0) 2 0 0)) = some ([0x3E000000, 0, 0, 0], 0)
      ∧ answer (exec (.bqGetCoef 0) (withArgs (filterState 0 0 0 0 0) 4 0 0)) = some ([0x3E800000, 0, 0, 0], 0)
      ∧ answer (exec (.bqGetCoef 0) (withArgs State.reset 5 0 0)) = some ([0, 0, 0, 0], 0x00030303) := by
  decide +kernel

/-- The order of the four histories (R177). -/
theorem test_bq_get_hist : answer (exec (.bqGetHist 0) (filterState 0 1 2 3 4)) = some ([1, 2, 3, 4], 0) := by
  decide +kernel

/-! ## QZ -/

/-- R190: the instance and its table. -/
theorem test_qz_init : after id (exec (.qzInit 0) (scaleState 0 5)) = some State.reset := by decide +kernel

/-- R191 and vector QZ-17. -/
theorem test_qz_set_len :
    after (qzAt · 0) (exec (.qzSetLen 0) (withArgs State.reset 16 0 0)) = some { n := 16, transpose := 0 }
      ∧ answer (exec (.qzSetLen 0) (withArgs State.reset 17 0 0)) = some ([0, 0, 0, 0], 0x00050503)
      ∧ answer (exec (.qzSetLen 0) (withArgs State.reset 1 0 0)) = some ([0, 0, 0, 0], 0x00050503) := by decide +kernel

/-- R192 and vector QZ-18. -/
theorem test_qz_table_write :
    after (qtAt · 0 15) (exec (.qzTableWrite 0) (withArgs State.reset 15 fHALF fTWO)) = some ⟨fHALF, fTWO⟩
      ∧ answer (exec (.qzTableWrite 0) (withArgs State.reset 16 fHALF fHALF)) = some ([0, 0, 0, 0], 0x00030303) := by
  decide +kernel

/-- R193: an entry, and an unwritten one (vector QZ-19). -/
theorem test_qz_table_read :
    answer (exec (.qzTableRead 0) (withArgs (scaleState 0 0) 2 0 0)) = some ([0x3EC00000, 0x3EAAAAAB, 0, 0], 0)
      ∧ answer (exec (.qzTableRead 0) (withArgs State.reset 0 0 0)) = some ([0, 0, 0, 0], 0) := by decide +kernel

/-- R194. -/
theorem test_qz_set_transpose :
    after (qzAt · 0) (exec (.qzSetTranspose 0) (withArgs (scaleState 0 1) 0xFFFFFFFF#32 0 0))
      = some { n := 8, transpose := 0xFFFFFFFF#32 } := by decide +kernel

/-- Vector QZ-20. -/
theorem test_qz_inc_transpose :
    after (qzAt · 0) (exec (.qzIncTranspose 0) (scaleState 0 0xFFFFFFFF#32)) = some { n := 8, transpose := 0 }
      ∧ after (qzAt · 0) (exec (.qzIncTranspose 0) (scaleState 0 6)) = some { n := 8, transpose := 7 } := by
  decide +kernel

/-- Vectors QZ-3, QZ-5, QZ-11 and QZ-D1 at T = 1. -/
theorem test_qz_quantize :
    answer (exec (.qzQuantize 0) (scaleState 0x3F000000#32 6)) = some ([0x3F2AAAAA, 0, 2, 4], 0)
      ∧ answer (exec (.qzQuantize 0) (scaleState 0x3E4CCCCD#32 3)) = some ([0x3EF77778, 1, 3, 0], 0)
      ∧ answer (exec (.qzQuantize 0) (scaleState 0x3F800000#32 6)) = some ([0x3FB11111, 1, 6, 0], 0)
      ∧ answer (exec (.qzQuantize 0) (scaleState 0x3E4BC6A8#32 1)) = some ([0, 3, 0, 7], 0) := by decide +kernel

/-- Vectors QZ-15, QZ-16 and QZ-N1. -/
theorem test_qz_quantize_rejects :
    answer (exec (.qzQuantize 0) (withArgs State.reset 0x40000000#32 0 0)) = some ([0, 0, 0, 0], 0x00040403)
      ∧ answer (exec (.qzQuantize 0) (scaleState 0x3F800001#32 0)) = some ([0, 0, 0, 0], 0x00050503)
      ∧ answer (exec (.qzQuantize 0) (shortScale 0x3E23D70A#32)) = some ([0, 0, 0, 0], 0x00060603) := by decide +kernel

/-- Vectors QZ-C3 and QZ-C4: halves round away from zero. -/
theorem test_qz_chromatic :
    answer (exec (.qzChromatic 0) (withArgs State.reset 0x3EC00000#32 0 0)) = some ([0x3EC44444, 0, 0, 0], 0)
      ∧ answer (exec (.qzChromatic 0) (withArgs State.reset 0x3E000000#32 0 0)) = some ([0x3E088889, 0, 0, 0], 0) := by
  decide +kernel

/-- R198. -/
theorem test_qz_get : answer (exec (.qzGet 0) (scaleState 0 5)) = some ([8, 5, 0, 0], 0) := by decide +kernel

/-! ## TT -/

/-- Vector TT-17. -/
theorem test_tt_init :
    after (ttAt · 0) (exec (.ttInit 0) (withArgs (timerState .ramped 3 .triggered fHALF) 0x40800000#32 0 0))
      = some { ttReset with fs := 0x40800000#32 } := by decide +kernel

/-- Vectors TT-1 and TT-3. -/
theorem test_tt_set_period :
    let s (sec : Word) := withArgs (setTt State.reset 0 { ttReset with fs := 0x40800000#32, counter := 9 }) sec 0 0
    after (ttAt · 0) (exec (.ttSetPeriod 0) (s 0x3F400000#32))
        = some { ttReset with fs := 0x40800000#32, counter := 9, interval := 3 }
      ∧ answer (exec (.ttSetPeriod 0) (s 0x3E4CCCCD#32)) = some ([0, 0, 0, 0], 0x00050503) := by decide +kernel

/-- Vectors TT-7 and TT-9. -/
theorem test_tt_set_bpm :
    after (fun t => (ttAt t 0).interval) (exec (.ttSetBpm 0) (withArgs State.reset 0x40E00000#32 0 0)) = some 411428
      ∧ answer (exec (.ttSetBpm 0) (withArgs State.reset 0xC2700000#32 0 0)) = some ([0, 0, 0, 0], 0x00050503) := by
  decide +kernel

/-- Vectors TT-10 (duration 3), TT-11 and TT-12. -/
theorem test_tt_set_duration :
    after (ttAt · 0) (exec (.ttSetDuration 0) (withArgs State.reset 3 0 0))
        = some { ttReset with duration := 3, step := 0x3F2AAAAB#32 }
      ∧ after (fun t => (ttAt t 0).step) (exec (.ttSetDuration 0) (withArgs State.reset 16777217 0 0))
        = some 0x34000000#32
      ∧ answer (exec (.ttSetDuration 0) (withArgs State.reset 0 0 0)) = some ([0, 0, 0, 0], 0x00050503) := by
  decide +kernel

/-- R215: state and ramp return to 0, the counter is kept; vector TT-13. -/
theorem test_tt_set_mode :
    after (ttAt · 0) (exec (.ttSetMode 0) (withArgs (timerState .basic 3 .triggered fHALF) 1 0 0))
        = some (ttAt (timerState .ramped 3 .idle 0) 0)
      ∧ answer (exec (.ttSetMode 0) (withArgs State.reset 2 0 0)) = some ([0, 0, 0, 0], 0x00050503) := by decide +kernel

/-- R216 in mode 0: fires when the count reaches the interval; vector TT-14. -/
theorem test_tt_process_basic :
    answer (exec (.ttProcess 0) (timerState .basic 7 .idle 0)) = some ([0x3F800000, 1, 0, 0], 0)
      ∧ after (ttAt · 0) (exec (.ttProcess 0) (timerState .basic 6 .triggered 0))
        = some (ttAt (timerState .basic 7 .idle 0) 0)
      ∧ answer (exec (.ttProcess 0) State.reset) = some ([0, 0, 0, 0], 0x00040403) := by decide +kernel

/-- Vector TT-22, commands 8 and 12; vector TT-15. -/
theorem test_tt_process_ramped :
    answer (exec (.ttProcess 0) (timerState .ramped 7 .idle 0)) = some ([0x3F000000, 1, 0, 0], 0)
      ∧ after (ttAt · 0) (exec (.ttProcess 0) (timerState .ramped 3 .triggered fONE))
        = some (ttAt (timerState .ramped 4 .idle fHALF) 0)
      ∧ answer (exec (.ttProcess 0) (setTt State.reset 0 { ttReset with interval := 3, mode := .ramped }))
        = some ([0, 0, 0, 0], 0x00040403) := by decide +kernel

/-- The order of the four fields (R218). -/
theorem test_tt_get_state :
    answer (exec (.ttGetState 0) (timerState .ramped 9 .triggered fONE))
      = some ([9, 1, 0x3F800000, 0x3F000000], 0) := by decide +kernel

/-- The order of the four fields (R219). -/
theorem test_tt_get_cfg :
    answer (exec (.ttGetCfg 0) (timerState .ramped 9 .triggered fONE))
      = some ([0x473B8000, 8, 4, 1], 0) := by decide +kernel

/-! ## Witnesses: the hypotheses of each obligation, clause by clause, met on concrete states, at the edges of their
ranges. One theorem for each obligation that has hypotheses. -/

theorem witness_EncodeDecodeAgree : decode 0x0000F507#32 = .ok (.ttGetCfg 15) := by decide

/-- Both sides of every edge of R88's list. -/
theorem witness_ReservedWordsAreIllegal :
    (∀ w ∈ [0x00010F00, 0xFFFFFFFF, 0x00000600, 0x00000E00, 0x00000006, 0x000000FF, 0x00000109, 0x00000207, 0x00000306,
        0x00000409, 0x00000508, 0x00000F04, 0x00001107, 0x0000F108, 0x00001F00], illegalWord (BitVec.ofNat 32 w))
      ∧ (∀ w ∈ [0x0000F005, 0x00000108, 0x0000F106, 0x00000206, 0x00000305, 0x00000408, 0x00000507, 0x00000F03],
        ¬illegalWord (BitVec.ofNat 32 w))
      ∧ decode 0x00001000#32 = .ok (.paInit 1) ∧ (Instr.paInit 1).address = (.pa, some 1)
      ∧ State.reset.build.count .pa ≤ (1 : Inst).toNat := by
  simp only [illegalWord]; decide +kernel

theorem witness_MissingInstanceIsRejected :
    (Instr.ttProcess 1).address = (.tt, some 1) ∧ State.reset.build.count .tt ≤ (1 : Inst).toNat
      ∧ (Instr.qzQuantize 15).address = (.qz, some 15) ∧ State.reset.build.count .qz ≤ (15 : Inst).toNat := by decide

/-- A word that decodes, and an illegal one. -/
theorem witness_StepRunsDecodedCommand :
    State.reset.build.legal = true ∧ decode 0x00000F03#32 = .ok .dac12 ∧ illegalWord 0x00010F00#32
      ∧ (withEvent (.write 0x14 4 0x00000F03#32)).pending
        = .write (State.reset.build.base + 0x14) 4 0x00000F03#32 :: []
      ∧ (withEvent (.write 0x14 4 0x00010F00#32)).pending
        = .write (State.reset.build.base + 0x14) 4 0x00010F00#32 :: [] := by
  simp only [illegalWord]; decide +kernel

theorem witness_ReadsReturnRegisters :
    State.reset.build.legal = true
      ∧ ∀ offset ∈ [0x00, 0x04, 0x08, 0x0C, 0x10, 0x14, 0x18, 0x1C, 0x20, 0x2C, 0x30, 0x3C],
        (withEvent (.read offset 4)).pending = .read (State.reset.build.base + offset) 4 :: [] := by decide

theorem witness_ReadOnlyWordLayouts : Build.vectors.legal = true := by decide

theorem witness_RegisterWrites :
    State.reset.build.legal = true
      ∧ (∀ n : Fin 4, (withEvent (.write (0x20 + 4 * n.val) 4 7)).pending
        = .write (State.reset.build.base + 0x20 + 4 * n.val) 4 7 :: [])
      ∧ ∀ offset ∈ [0x00, 0x04, 0x08, 0x0C, 0x10, 0x18, 0x1C, 0x30, 0x34, 0x38, 0x3C],
        (withEvent (.write offset 4 7)).pending = .write (State.reset.build.base + offset) 4 7 :: [] := by decide

/-- Just inside and just outside a window at 64. -/
theorem witness_UnadmittedAccessesFault :
    let b : Build := { Build.vectors with base := 64 }
    b.legal = true
      ∧ (∀ access ∈ [(64, 1), (64, 8), (66, 2), (65, 4), (127, 4), (126, 1)],
        b.base ≤ access.1 ∧ access.1 < b.base + 64 ∧ (access.2 ≠ 4 ∨ access.1 % 4 ≠ 0))
      ∧ (∀ addr ∈ [63, 128], addr < b.base ∨ b.base + 64 ≤ addr)
      ∧ (∀ addr ∈ [64, 124], b.base ≤ addr ∧ addr < b.base + 64 ∧ addr % 4 = 0)
      ∧ ({ State.resetOf b with pending := [.read 64 1] } : State).pending = .read 64 1 :: []
      ∧ ({ State.resetOf b with pending := [.write 128 4 0] } : State).pending = .write 128 4 0 :: [] := by decide

theorem witness_IdleAndResetInput : State.reset.pending = [] ∧ (withEvent .reset).pending = .reset :: [] := by decide

theorem witness_ResetSetsEveryField :
    ((∃ rest, (withEvent .reset).pending = .reset :: rest) ∧ ∃ t, step (withEvent .reset) = .next t)
      ∧ ∃ t, exec .softReset (paState fTWO fHALF fHALF) = .next t := ⟨⟨⟨_, rfl⟩, _, rfl⟩, _, rfl⟩

/-- With ERR 0 and with ERR already 1. -/
theorem witness_RejectionIsPrecise :
    (∃ t, executeWord 0x00001000#32 State.reset = .next t ∧ t.status.lastRej = true)
      ∧ ∃ t, executeWord 0x00000600#32 (reject .config State.reset) = .next t ∧ t.status.lastRej = true :=
  ⟨⟨_, rfl, rfl⟩, _, rfl, rfl⟩

theorem witness_AcceptedCommandStatus :
    (∃ t, exec .nop (reject .config State.reset) = .next t ∧ t.status.lastRej = false)
      ∧ Instr.nop ≠ .clrErr ∧ Instr.nop ≠ .softReset := ⟨⟨_, rfl, rfl⟩, by decide, by decide⟩

theorem witness_CommandsRaiseOnlyTheirCodes :
    after (·.status.lastRej) (exec (.bqGetCoef 0) (withArgs State.reset 5 0 0)) = some true
      ∧ ∃ t, exec (.bqGetCoef 0) (withArgs State.reset 5 0 0) = .next t := ⟨by decide +kernel, _, rfl⟩

theorem witness_ObserversChangeOnlyResults :
    observesOnly (.paGet 0) = true ∧ observesOnly .clrErr = true
      ∧ after (fun t => t.res != State.reset.res) (exec (.paGet 0) State.reset) = some true := by decide +kernel

/-- A command of each unit, and of each table, that changes what it addresses. -/
theorem witness_CommandsTouchOnlyTheirInstance :
    let s := withArgs State.reset 3 fONE fONE
    Instr.paInit 0 ≠ .softReset
      ∧ after (fun t => paAt t 0 != paAt s 0) (exec (.paInit 0) s) = some true
      ∧ after (fun t => wtAt t 0 != wtAt s 0) (exec (.wtSetAmp 0) s) = some true
      ∧ after (fun t => crAt t 0 != crAt s 0) (exec (.crSetAmp 0) s) = some true
      ∧ after (fun t => bqAt t 0 != bqAt s 0) (exec (.bqSetCoef 0) s) = some true
      ∧ after (fun t => qzAt t 0 != qzAt s 0) (exec (.qzSetLen 0) s) = some true
      ∧ after (fun t => ttAt t 0 != ttAt s 0) (exec (.ttSetDuration 0) s) = some true
      ∧ after (fun t => t.wtab != s.wtab) (exec .wtTableWrite s) = some true
      ∧ after (fun t => bankGet t.qt 0 != bankGet s.qt 0) (exec (.qzTableWrite 0) s) = some true := by decide +kernel

/-- A rejected command, and the registers next to the results of an accepted one. -/
theorem witness_ResultsOnlyWhereNamed :
    after (·.status.lastRej) (exec (.ttProcess 0) State.reset) = some true
      ∧ after (·.status.lastRej) (exec (.qzGet 0) State.reset) = some false
      ∧ resultCount (.qzGet 0) ≤ (2 : Fin 4).val ∧ resultCount .dac12 ≤ (1 : Fin 4).val := by decide +kernel

/-- A state that is not the reset state, one command away from the next. -/
def running : State :=
  { withArgs (setTt (setBq (paState fONE 0x3E555555#32 0x3F555555#32) 0
      { bqReset with b0 := fONE, y1 := 0x7FC00000#32, y2 := 0x7F800000#32 }) 0
      { ttReset with interval := 0xFFFFFFFF#32, counter := 0xFFFFFFFE#32, ramp := fONE }) 7 fONE fONE with
    pa := bankSet State.reset.pa 0
      { paReset with freq := 0x461C4000#32, inc := 0x3E555555#32, phase := 0x3F555555#32 }
    wtab := sineTable }

theorem witness_StepKeepsStatusConsistent :
    statusInv (reject .config State.reset).status
      ∧ ∃ t, step ((reject .config State.reset).withFetchWord 32 0xF00) = .next t :=
  ⟨by unfold statusInv; decide, _, rfl⟩

theorem witness_StepKeepsTablesCanonical :
    tablesInv (running.withFetchWord 32 0x107)
      ∧ after (fun t => wtabAt t 7) (step (running.withFetchWord 32 0x107)) = some fONE := by
  refine ⟨⟨by decide +kernel, fun k => ?_⟩, by decide +kernel⟩
  revert k; decide +kernel

theorem witness_StepKeepsPhasesInRange :
    (running.withFetchWord 32 0x003).build.legal = true ∧ oscillatorInv (running.withFetchWord 32 0x003)
      ∧ after (fun t => (paAt t 0).phase) (step (running.withFetchWord 32 0x003)) = some 0x3D2AAAA0#32 := by
  unfold oscillatorInv paInv wtInv rateOk inHalfOpen
  decide +kernel

theorem witness_StepKeepsSettingsInRange :
    settingsInv (running.withFetchWord 32 0x302)
      ∧ after id (step (running.withFetchWord 32 0x302)) ≠ none := by
  unfold settingsInv crInv bqInv qzInv rateOk nanIsCanonical
  decide +kernel

/-- The counter at its largest value, at the edge of the largest interval. -/
theorem witness_StepKeepsTimersInRange :
    timerInv (running.withFetchWord 32 0x505)
      ∧ after (fun t => ttAt t 0) (step (running.withFetchWord 32 0x505))
        = some { ttReset with interval := 0xFFFFFFFF#32, state := .triggered, ramp := fONE } := by
  unfold timerInv ttInv rateOk
  decide +kernel

theorem witness_ResetMeetsInvariants : Build.vectors.legal = true := by decide

/-- On each side of the overflow bound, and at a sum halfway between two values, whose neighbour is odd. -/
theorem witness_AdditionIsNearest :
    let exact (a b : F32) := (valueOf a + valueOf b).natAbs
    isFinite fONE = true ∧ isFinite 0x33800000#32 = true ∧ isFinite 0x3F800001#32 = true
      ∧ exact fONE 0x33800000#32 < overflowUnits.natAbs ∧ valueOf 0x3F800001#32 ≠ valueOf (fadd fONE 0x33800000#32)
      ∧ (valueOf (fadd fONE 0x33800000#32) - (valueOf fONE + valueOf 0x33800000#32)).natAbs
        = (valueOf 0x3F800001#32 - (valueOf fONE + valueOf 0x33800000#32)).natAbs
      ∧ isFinite 0x7F7FFFFF#32 = true ∧ isFinite 0x73000000#32 = true ∧ isFinite 0x72FFFFFF#32 = true
      ∧ exact 0x7F7FFFFF#32 0x73000000#32 = overflowUnits.natAbs
      ∧ exact 0x7F7FFFFF#32 0x72FFFFFF#32 < overflowUnits.natAbs := by decide +kernel

/-- Below the overflow bound and beyond it, and a subnormal product halfway between two values. -/
theorem witness_MultiplicationIsNearest :
    let exact (a b : F32) := (valueOf a * valueOf b).natAbs
    isFinite 0x7F7FFFFF#32 = true ∧ isFinite fHALF = true ∧ isFinite fTWO = true ∧ isFinite 0x80000001#32 = true
      ∧ exact 0x7F7FFFFF#32 fHALF < overflowUnits.natAbs * 2 ^ 149
      ∧ overflowUnits.natAbs * 2 ^ 149 ≤ exact 0x7F7FFFFF#32 fTWO
      ∧ 2 * exact 0x80000001#32 fHALF = 2 ^ 149 := by decide +kernel

/-- Below the overflow bound and beyond it, and a subnormal quotient halfway between two values. -/
theorem witness_DivisionIsNearest :
    let below (a b : F32) := (valueOf a * 2 ^ 149).natAbs < overflowUnits.natAbs * (valueOf b).natAbs
    isFinite fONE = true ∧ isFinite 0x40400000#32 = true ∧ valueOf 0x40400000#32 ≠ 0 ∧ below fONE 0x40400000#32
      ∧ isFinite 0x00000001#32 = true ∧ valueOf 0x80000001#32 ≠ 0 ∧ below 0x00000001#32 fTWO
      ∧ isFinite 0x7F7FFFFF#32 = true ∧ valueOf fHALF ≠ 0 ∧ ¬below 0x7F7FFFFF#32 fHALF := by decide +kernel

/-- A value on each side of the root of 2, and the root of the least value. -/
theorem witness_SquareRootIsNearest :
    isFinite fTWO = true ∧ 0 ≤ valueOf fTWO ∧ isFinite 0x00000001#32 = true ∧ 0 ≤ valueOf 0x00000001#32
      ∧ valueOf 0x3FB504F2#32 < valueOf (fsqrt fTWO) ∧ valueOf (fsqrt fTWO) < valueOf 0x3FB504F4#32 := by
  decide +kernel

/-- Halves of both signs, an integral value, a value below 1, and the integers on each side of 2^24. -/
theorem witness_ConstantsAndConversions :
    (isFinite 0x3F7FFFFF#32 = true ∧ 0 ≤ valueOf 0x3F7FFFFF#32 ∧ isFinite 0x80000000#32 = true
        ∧ 0 ≤ valueOf 0x80000000#32)
      ∧ (isFinite 0xBF000000#32 = true ∧ 2 * (valueOf (roundF 0xBF000000#32) - valueOf 0xBF000000#32).natAbs = 2 ^ 149)
      ∧ ((16777216 : Nat) ≤ 2 ^ 24 ∧ ¬((16777217 : Nat) ≤ 2 ^ 24))
      ∧ (16777217 * 2 ^ 149 : Nat) < overflowUnits.natAbs := by decide +kernel

/-- The largest range, with a sample that wraps onto 0, one that stays just below, and the largest sum. -/
theorem witness_WrapKeepsPhaseInRange :
    (isFinite fRANGE_MAX = true ∧ fgt fRANGE_MAX fZERO = true ∧ fle fRANGE_MAX fRANGE_MAX = true)
      ∧ (let meets (phase inc : F32) (wraps : Bool) :=
          inHalfOpen phase fRANGE_MAX ∧ inHalfOpen inc fRANGE_MAX ∧ (phaseStep phase inc fRANGE_MAX).2 = wraps
        meets 0x4B000000#32 0x4B000000#32 true ∧ meets 0x4AFFFFFE#32 0x4B000000#32 false
          ∧ meets 0x4B7FFFFF#32 0x4B7FFFFF#32 true) := by
  unfold inHalfOpen; decide +kernel

/-- The ends of [0, 1] in mode 0, a clamped value in mode 1, and each ground of a rejection. -/
theorem witness_DacConvertsBothMappings :
    (isFinite 0x80000000#32 = true ∧ fge 0x80000000#32 fZERO = true ∧ fle fONE fONE = true)
      ∧ (argU (withArgs State.reset 0x40C00000#32 1 0) 1 = 1 ∧ isFinite 0x40C00000#32 = true)
      ∧ 1 < argU (withArgs State.reset fONE 2 0) 1
      ∧ isFinite (argF (withArgs State.reset 0x7F800000#32 1 0) 0) = false
      ∧ argU (withArgs State.reset 0x3F800001#32 0 0) 1 = 0
      ∧ (fge 0x3F800001#32 fZERO && fle 0x3F800001#32 fONE) = false := by decide +kernel

theorem witness_DacCodeIsTwelveBits :
    after (·.status.lastRej) (exec .dac12 (withArgs State.reset 0x3F800000#32 0 0)) = some false
      ∧ after (·.status.lastRej) (exec .dac12 (withArgs State.reset 0x7F7FFFFF#32 1 0)) = some false := by decide +kernel

/-- Instance 0 of every unit; the least positive rate, and rates of 0 and infinity. -/
theorem witness_InitCommandsResetTheirInstance :
    (0 : Inst).toNat < State.reset.build.nPA ∧ (0 : Inst).toNat < State.reset.build.nWT
      ∧ (0 : Inst).toNat < State.reset.build.nCR ∧ (0 : Inst).toNat < State.reset.build.nTT
      ∧ (0 : Inst).toNat < State.reset.build.nBQ ∧ (0 : Inst).toNat < State.reset.build.nQZ
      ∧ (isFinite 0x00000001#32 = true ∧ fgt 0x00000001#32 fZERO = true)
      ∧ ¬(isFinite fZERO = true ∧ fgt fZERO fZERO = true)
      ∧ ¬(isFinite 0x7F800000#32 = true ∧ fgt 0x7F800000#32 fZERO = true) := by decide +kernel

/-- The largest range, and a range at which the increment reaches it (vector PA-7's rounding). -/
theorem witness_PaSetRangeRescales :
    let good (u : PaInst) (r : F32) :=
      isFinite r = true ∧ fgt r fZERO = true ∧ fle r fRANGE_MAX = true ∧ flt (fdiv (fmul r u.freq) u.fs) r = true
    (0 : Inst).toNat < State.reset.build.nPA ∧ good paReset fRANGE_MAX ∧ ¬good paReset 0x4B800001#32
      ∧ ¬good paReset fZERO ∧ ¬good { paReset with fs := 0x47C04881#32, freq := 0x47C04880#32 } 0x45016BB9#32 := by
  decide +kernel

/-- The edges of vectors PA-7, PA-8, WT-9 and WT-10. -/
theorem witness_SetFreqAdmitsBelowRate :
    let good (hz r fs : F32) :=
      isFinite hz = true ∧ fge hz fZERO = true ∧ flt hz fs = true ∧ flt (fdiv (fmul r hz) fs) r = true
    (0 : Inst).toNat < State.reset.build.nPA ∧ (0 : Inst).toNat < State.reset.build.nWT
      ∧ good 0x47C0487F#32 0x45016BB9#32 0x47C04881#32 ∧ ¬good 0x47C04880#32 0x45016BB9#32 0x47C04881#32
      ∧ good 0x80000000#32 fONE fFS_RESET ∧ ¬good fFS_RESET fONE fFS_RESET
      ∧ good 0x473B7FFF#32 (toF State.reset.build.wtLen) fFS_RESET
      ∧ ¬good fFS_RESET (toF State.reset.build.wtLen) fFS_RESET := by decide +kernel

/-- A sum equal to the range, and one just below it. -/
theorem witness_PaProcessAdvances :
    (0 : Inst).toNat < State.reset.build.nPA ∧ fge (fadd 0x3F400000#32 0x3E800000#32) fONE = true
      ∧ fge (fadd 0x3F3FFFFF#32 0x3E800000#32) fONE = false := by decide +kernel

theorem witness_AmplitudeAndInterpolationSettings :
    (0 : Inst).toNat < State.reset.build.nWT ∧ (0 : Inst).toNat < State.reset.build.nCR
      ∧ isFinite (argF (withArgs State.reset 0xFF7FFFFF#32 0 0) 0) = true
      ∧ isFinite (argF (withArgs State.reset 0xFF800000#32 0 0) 0) = false
      ∧ argU (withArgs State.reset 0 0 0) 0 = 0 ∧ argU (withArgs State.reset 1 0 0) 0 = 1
      ∧ 1 < argU (withArgs State.reset 2 0 0) 0 := by decide +kernel

theorem witness_WtProcessInterpolates :
    (0 : Inst).toNat < (sineState fHALF 0 fONE .cubic).build.nWT
      ∧ (wtAt (sineState fHALF 0 fONE .linear) 0).interp = .linear
      ∧ (wtAt (sineState fHALF 0 fONE .cubic) 0).interp = .cubic := by decide +kernel

/-- An amplitude of +0.0 and one of -0.0, over a negative sample (vector WT-S1's ninth). -/
theorem witness_ZeroAmplitudeIsSilent :
    let meets (amp : F32) :=
      let s := sineState fHALF 0x40800000#32 amp .linear
      (0 : Inst).toNat < s.build.nWT ∧ feq (wtAt s 0).amp fZERO = true
        ∧ isFinite (interpolate s (wtAt s 0).interp (phaseStep 0x40800000#32 fHALF (toF s.build.wtLen)).1) = true
    meets 0x00000000#32 ∧ meets 0x80000000#32 := by decide +kernel

theorem witness_WavetableWriteSetsOneEntry :
    let s (i v : Word) := withArgs (sineState 0 0 0 .linear) i v 0
    (argU (s 7 fONE) 0 < (s 7 fONE).build.wtLen ∧ isFinite (argF (s 7 fONE) 1) = true
        ∧ Memory.wf wtabDefault (s 7 fONE).wtab = true)
      ∧ (s 8 fONE).build.wtLen ≤ argU (s 8 fONE) 0
      ∧ (argU (s 7 0x7F800000#32) 0 < State.reset.build.wtLen ∧ isFinite (argF (s 7 0x7F800000#32) 1) = false) := by
  decide +kernel

/-- Vectors CR-10, CR-13 and CR-12, with constant functions. -/
theorem witness_CrSetFreqSetsMultiplier :
    let good (m : Trig) (hz : F32) :=
      let d := fdiv (fmul fTWO_PI hz) fFS_RESET
      isFinite hz = true ∧ isFinite d = true ∧ isFinite (m.cos d) = true ∧ isFinite (m.sin d) = true
    (0 : Inst).toNat < State.reset.build.nCR ∧ good (constTrig fONE) 0x46BB8000#32
      ∧ ¬good (constTrig fONE) 0x7E800000#32 ∧ ¬good (constTrig fONE) 0x7F800000#32
      ∧ ¬good (constTrig 0x7F800000#32) fZERO := by decide +kernel

theorem witness_CrProcessRotates : (0 : Inst).toNat < State.reset.build.nCR := by decide

/-- Magnitude 1, 0, and an overflow to infinity. -/
theorem witness_CrRenormDividesByMagnitude :
    let good (vre vim : F32) :=
      let mag := fsqrt (fadd (fmul vre vre) (fmul vim vim))
      isFinite mag = true ∧ fgt mag fZERO = true
    (0 : Inst).toNat < State.reset.build.nCR ∧ good fONE fZERO ∧ ¬good fZERO 0x80000000#32
      ∧ ¬good 0x7F000000#32 fZERO := by decide +kernel

/-- Just below and at half the rate (vectors BQ-5 and BQ-2), with a constant tangent. -/
theorem witness_BqCalcDesignsLowpass :
    let good (fs f q : F32) :=
      let c := designWith (fun _ => fONE) fs f q
      (isFinite fs = true ∧ fgt fs fZERO = true) ∧ isFinite f = true ∧ fgt f fZERO = true
        ∧ flt f (fmul fs fHALF) = true ∧ isFinite q = true ∧ fgt q fZERO = true
        ∧ (isFinite c.b0 = true ∧ isFinite c.b1 = true ∧ isFinite c.a1 = true ∧ isFinite c.a2 = true)
    (0 : Inst).toNat < State.reset.build.nBQ ∧ good fFS_RESET 0x46BB7FFF#32 fONE
      ∧ ¬good fFS_RESET 0x46BB8000#32 fONE ∧ ¬good fFS_RESET fZERO fONE ∧ ¬good fFS_RESET 0x447A0000#32 fZERO := by
  decide +kernel

theorem witness_BqSetCoefWritesOne :
    (0 : Inst).toNat < State.reset.build.nBQ
      ∧ (∀ sel ∈ [0, 1, 2, 3, 4], argU (withArgs State.reset (BitVec.ofNat 32 sel) fONE 0) 0 = sel
        ∧ isFinite (argF (withArgs State.reset (BitVec.ofNat 32 sel) fONE 0) 1) = true)
      ∧ 5 ≤ argU (withArgs State.reset 5 fONE 0) 0
      ∧ (argU (withArgs State.reset 4 0x7FC00000#32 0) 0 < 5
        ∧ isFinite (argF (withArgs State.reset 4 0x7FC00000#32 0) 1) = false) := by decide +kernel

theorem witness_BqProcessFilters :
    (0 : Inst).toNat < State.reset.build.nBQ ∧ isFinite (argF (filterState 0x7F7FFFFF#32 0 0 0 0) 0) = true
      ∧ isFinite (argF (filterState 0x7F800000#32 0 0 0 0) 0) = false := by decide +kernel

theorem witness_QzLengthAndTranspose :
    (0 : Inst).toNat < State.reset.build.nQZ
      ∧ (∀ n ∈ [2, 16], 2 ≤ n ∧ n ≤ State.reset.build.qzMax
        ∧ argU (withArgs State.reset (BitVec.ofNat 32 n) 0 0) 0 = n)
      ∧ argU (withArgs State.reset 1 0 0) 0 < 2
      ∧ State.reset.build.qzMax < argU (withArgs State.reset 17 0 0) 0 := by decide +kernel

theorem witness_ScaleTableWriteSetsOneEntry :
    let good (s : State) := isFinite (argF s 1) = true ∧ isFinite (argF s 2) = true
    (0 : Inst).toNat < State.reset.build.nQZ
      ∧ (argU (withArgs State.reset 15 fONE fONE) 0 < State.reset.build.qzMax ∧ good (withArgs State.reset 15 fONE fONE)
        ∧ Memory.wf qtDefault (bankGet State.reset.qt 0) = true)
      ∧ State.reset.build.qzMax ≤ argU (withArgs State.reset 16 fONE fONE) 0
      ∧ (argU (withArgs State.reset 15 fONE 0x7F800000#32) 0 < State.reset.build.qzMax
        ∧ ¬good (withArgs State.reset 15 fONE 0x7F800000#32)) := by decide +kernel

/-- The first and the last entry found (vectors QZ-10 and QZ-D1), and one for each rejection. -/
theorem witness_QuantizeTakesFirstBound :
    let frac (cv : F32) := fsub (fmul cv fFIVE) (toF (floorI (fmul cv fFIVE)))
    let above (s : State) (cv : F32) (i : Nat) := fgt (qtAt s 0 i).bound (frac cv)
    let inRange (cv : F32) := isFinite cv = true ∧ fge cv fZERO = true ∧ fle cv fONE = true
    (0 : Inst).toNat < State.reset.build.nQZ
      ∧ (2 ≤ (qzAt (scaleState fONE 6) 0).n.toNat ∧ inRange fONE ∧ above (scaleState fONE 6) fONE 0 = true)
      ∧ (inRange 0x3E4BC6A8#32 ∧ above (scaleState 0x3E4BC6A8#32 1) 0x3E4BC6A8#32 7 = true
        ∧ ∀ i, i < 7 → above (scaleState 0x3E4BC6A8#32 1) 0x3E4BC6A8#32 i = false)
      ∧ (qzAt State.reset 0).n.toNat < 2 ∧ ¬inRange 0x3F800001#32
      ∧ ((qzAt (shortScale 0x3E23D70A#32) 0).n.toNat = 2 ∧ inRange 0x3E23D70A#32
        ∧ ∀ i, i < 2 → above (shortScale 0x3E23D70A#32) 0x3E23D70A#32 i = false) := by decide +kernel

theorem witness_ChromaticRoundsToSemitone :
    let inRange (cv : F32) := isFinite cv = true ∧ fge cv fZERO = true ∧ fle cv fONE = true
    (0 : Inst).toNat < State.reset.build.nQZ ∧ inRange fZERO ∧ inRange fONE ∧ ¬inRange 0x3F800001#32 := by
  decide +kernel

/-- Vectors TT-2 and TT-3 (an interval of 1, and below it), TT-6 and TT-8 (not below 2^32). -/
theorem witness_TempoSetsInterval :
    let good (x samples : F32) :=
      isFinite x = true ∧ fgt x fZERO = true ∧ isFinite samples = true ∧ fge samples fONE = true
        ∧ flt samples fTWO32 = true
    (0 : Inst).toNat < State.reset.build.nTT
      ∧ good 0x3E800000#32 (fmul 0x40800000#32 0x3E800000#32) ∧ ¬good 0x3E4CCCCD#32 (fmul 0x40800000#32 0x3E4CCCCD#32)
      ∧ good 0x42F00000#32 (fdiv (fmul fFS_RESET fSIXTY) 0x42F00000#32)
      ∧ ¬good 0x38D1B717#32 (fdiv (fmul fFS_RESET fSIXTY) 0x38D1B717#32) := by decide +kernel

theorem witness_DurationAndModeSettings :
    (0 : Inst).toNat < State.reset.build.nTT ∧ argU (withArgs State.reset 0 0 0) 0 = 0
      ∧ argU (withArgs State.reset 1 0 0) 0 = 1 ∧ 1 < argU (withArgs State.reset 2 0 0) 0 := by decide +kernel

/-- One below the interval, at it, and without one. -/
theorem witness_TtProcessBasicPulse :
    let u (c : Word) := ttAt (timerState .basic c .idle 0) 0
    (0 : Inst).toNat < State.reset.build.nTT ∧ (u 7).mode = .basic
      ∧ (1 ≤ (u 7).interval.toNat ∧ (u 7).interval.toNat ≤ (u 7).counter.toNat + 1)
      ∧ (u 6).counter.toNat + 1 < (u 6).interval.toNat
      ∧ ((ttAt State.reset 0).mode = .basic ∧ (ttAt State.reset 0).interval.toNat = 0) := by decide +kernel

theorem witness_TtProcessRampedTrigger :
    let u := ttAt (timerState .ramped 7 .idle 0) 0
    (0 : Inst).toNat < State.reset.build.nTT ∧ u.mode = .ramped ∧ 1 ≤ u.interval.toNat ∧ 1 ≤ u.duration.toNat
      ∧ (ttAt (setTt State.reset 0 { ttReset with interval := 3, mode := .ramped }) 0).duration.toNat = 0 := by
  decide +kernel

theorem witness_OscillatorReadback :
    (0 : Inst).toNat < State.reset.build.nPA ∧ (0 : Inst).toNat < State.reset.build.nWT
      ∧ (0 : Inst).toNat < State.reset.build.nCR := by decide

theorem witness_TableFilterAndTimerReadback :
    (0 : Inst).toNat < State.reset.build.nBQ ∧ (0 : Inst).toNat < State.reset.build.nQZ
      ∧ (0 : Inst).toNat < State.reset.build.nTT
      ∧ argU (withArgs State.reset 7 0 0) 0 < State.reset.build.wtLen
      ∧ State.reset.build.wtLen ≤ argU (withArgs State.reset 8 0 0) 0
      ∧ (∀ sel ∈ [0, 1, 2, 3, 4], argU (withArgs State.reset (BitVec.ofNat 32 sel) 0 0) 0 = sel)
      ∧ 5 ≤ argU (withArgs State.reset 5 0 0) 0
      ∧ argU (withArgs State.reset 15 0 0) 0 < State.reset.build.qzMax
      ∧ State.reset.build.qzMax ≤ argU (withArgs State.reset 16 0 0) 0 := by decide +kernel

/-- An interval of 8, and of 1. -/
theorem witness_PulseEveryIntervalSamples :
    let meets (s : State) :=
      (0 : Inst).toNat < s.build.nTT ∧ (ttAt s 0).mode = .basic ∧ (ttAt s 0).counter = 0
        ∧ 1 ≤ (ttAt s 0).interval.toNat
    meets (timerState .basic 0 .idle 0) ∧ meets (setTt State.reset 0 { ttReset with interval := 1 }) := by
  decide +kernel

theorem witness_GateOpenForDuration :
    let u := ttAt (timerState .ramped 0 .idle 0) 0
    (0 : Inst).toNat < State.reset.build.nTT ∧ u.mode = .ramped ∧ u.state = .idle ∧ u.counter = 0
      ∧ 1 ≤ u.duration.toNat ∧ u.duration.toNat < u.interval.toNat := by decide +kernel

end Sys2Proof.Tests
end

section
/-! # The step (00_scope.md R6; 20_memory.md R65) and the settings of CR, BQ and QZ that it keeps -/

namespace Sys2Proof.Machine

/-! ## What an accepted computation leaves

`Ensures P r`: whatever `r` commits meets `P`. One rule per way a command's body is built. -/

/-- Every state (or value) that `r` answers without a rejection meets `P`. -/
def Ensures {α : Type} (P : α → Prop) (r : Except Code α) : Prop := ∀ a, r = .ok a → P a

@[simp] theorem ensures_ok {α : Type} {P : α → Prop} {a : α} : Ensures P (.ok a) ↔ P a := by
  simp [Ensures]

@[simp] theorem ensures_error {α : Type} {P : α → Prop} {c : Code} : Ensures P (.error c) := by
  simp [Ensures]

@[simp] theorem ensures_bind {α β : Type} {P : β → Prop} {x : Except Code α} {f : α → Except Code β} :
    Ensures P (x >>= f) ↔ ∀ a, x = .ok a → Ensures P (f a) := by
  simp only [Ensures, bind_ok_iff]
  exact ⟨fun h a ha b hb => h b ⟨a, ha, hb⟩, fun h b ⟨a, ha, hb⟩ => h a ha b hb⟩

@[simp] theorem ensures_instanced {P : State → Prop} {n : Nat} {k : Inst} {body : Except Code State} :
    Ensures P (instanced n k body) ↔ (k.toNat < n → Ensures P body) := by
  simp only [Ensures, instanced_ok_iff]
  exact ⟨fun h hk t ht => h t ⟨hk, ht⟩, fun h t ⟨hk, ht⟩ => h hk t ht⟩

@[simp] theorem needOperand_ok_iff {b : Bool} {u : Unit} : needOperand b = .ok u ↔ b = true := need_ok_iff

@[simp] theorem needConfig_ok_iff {b : Bool} {u : Unit} : needConfig b = .ok u ↔ b = true := need_ok_iff

@[simp] theorem needFinite_ok_iff {v : F32} {u : Unit} : needFinite v = .ok u ↔ isFinite v = true := need_ok_iff

@[simp] theorem needIndex_ok_iff {i n : Nat} {u : Unit} : needIndex i n = .ok u ↔ i < n := by
  rw [needIndex, need_ok_iff, decide_eq_true_iff]

@[simp] theorem needFs_ok_iff {v : F32} {u : Unit} : needFs v = .ok u ↔ rateOk v := by
  rw [needFs, need_ok_iff, Bool.and_eq_true, rateOk]

/-- A predicate that looks at nothing STATUS holds is kept by a command that commits only states that meet it. -/
theorem finish_keeps {P : State → Prop} {s t : State} {r : Except Code State}
    (haccept : ∀ u, P u → P (accept u)) (hreject : ∀ c, P (reject c s)) (hr : Ensures P r)
    (h : finish s r = .next t) : P t := by
  rcases finish_eq_next_iff.mp h with ⟨u, hu, rfl⟩ | ⟨c, -, rfl⟩
  · exact haccept u (hr u hu)
  · exact hreject c

/-! ## What a step can do (20_memory.md R65, R66) -/

/-- The state in which the next event is performed: the event is off the list, and nothing has been read. -/
def State.takeEvent (s : State) (rest : List PortEvent) : State := { s with pending := rest, readData := none }

theorem step_idle {s : State} (h : s.pending = []) : step s = .next s := by
  simp only [step, portStep, h]

theorem step_reset {s : State} {rest : List PortEvent} (h : s.pending = .reset :: rest) :
    step s = .next (resetBlock (s.takeEvent rest)) := by
  simp only [step, portStep, h, State.takeEvent]

theorem step_read {s : State} {addr size : Nat} {rest : List PortEvent} (h : s.pending = .read addr size :: rest) :
    step s = busRead addr size (s.takeEvent rest) := by
  simp only [step, portStep, h, State.takeEvent]

theorem step_write {s : State} {addr size : Nat} {w : Word} {rest : List PortEvent}
    (h : s.pending = .write addr size w :: rest) : step s = busWrite addr size w (s.takeEvent rest) := by
  simp only [step, portStep, h, State.takeEvent]

/-- A read that the block answers puts a word in `readData` and leaves the rest alone (R67). -/
theorem busRead_eq_next {s t : State} {addr size : Nat} (h : busRead addr size s = .next t) :
    ∃ w, t = { s with readData := some w } := by
  unfold busRead at h
  split at h
  · next r _ => exact ⟨readReg s r, (Host.Outcome.next.inj h).symm⟩
  · cases h

/-- A word written to CMD is a command, or is rejected with ILLEGAL (R88, R100). -/
theorem executeWord_eq_next {s t : State} {w : Word} (h : executeWord w s = .next t) :
    (∃ i, decode w = .ok i ∧ exec i s = .next t) ∨ t = reject .illegal s := by
  unfold executeWord at h
  split at h
  · next i hi => exact .inl ⟨i, hi, h⟩
  · exact .inr (Host.Outcome.next.inj h).symm

/-- A write is ignored, sets an ARG register or executes a command word (R34, R35, R63). -/
theorem busWrite_eq_next {s t : State} {addr size : Nat} {w : Word} (h : busWrite addr size w s = .next t) :
    t = s ∨ (∃ n, t = setArg s n w) ∨ executeWord w s = .next t := by
  unfold busWrite at h
  split at h
  · next r _ =>
    cases r with
    | arg n => exact .inr (.inl ⟨n, (Host.Outcome.next.inj h).symm⟩)
    | cmd => exact .inr (.inr h)
    | _ => exact .inl (Host.Outcome.next.inj h).symm
  · cases h

/-- Every state predicate that an event's removal, a read, a write of ARG, a rejection, a reset and every command keep
is kept by every step: the one case analysis behind the invariants of 10_state.md. -/
theorem step_keeps {P : State → Prop} {s t : State}
    (hport : ∀ (s : State) (rest : List PortEvent) (d : Option Word),
      P s → P { s with pending := rest, readData := d })
    (harg : ∀ s n w, P s → P (setArg s n w))
    (hreject : ∀ s c, P s → P (reject c s))
    (hreset : ∀ s, P s → P (resetBlock s))
    (hexec : ∀ i s t, P s → exec i s = .next t → P t)
    (hs : P s) (h : step s = .next t) : P t := by
  have htake (rest : List PortEvent) : P (s.takeEvent rest) := hport s rest none hs
  match hp : s.pending with
  | [] =>
    obtain rfl := Host.Outcome.next.inj ((step_idle hp).symm.trans h)
    exact hs
  | .reset :: rest =>
    obtain rfl := Host.Outcome.next.inj ((step_reset hp).symm.trans h)
    exact hreset _ (htake rest)
  | .read addr size :: rest =>
    obtain ⟨w, rfl⟩ := busRead_eq_next ((step_read hp).symm.trans h)
    exact hport s rest (some w) hs
  | .write addr size w :: rest =>
    rcases busWrite_eq_next ((step_write hp).symm.trans h) with rfl | ⟨n, rfl⟩ | hw
    · exact htake rest
    · exact harg _ n w (htake rest)
    · rcases executeWord_eq_next hw with ⟨i, -, hi⟩ | rfl
      · exact hexec i _ t (htake rest) hi
      · exact hreject _ _ (htake rest)

/-- Settles O11: an empty list of events leaves the state, a reset event leaves `State.resetOf` of the build with the
events behind it. -/
theorem idleAndResetInput : Obligations.IdleAndResetInput :=
  ⟨fun _ h => step_idle h, fun _ _ h => step_reset h⟩

/-! ## NaNs that operations answer (00_scope.md R13) -/

theorem nanIsCanonical_of_not_isNaN {v : F32} (h : isNaN v = false) : nanIsCanonical v :=
  fun hn => absurd hn (by simp [h])

theorem nanIsCanonical_of_isFinite {v : F32} (h : isFinite v = true) : nanIsCanonical v :=
  nanIsCanonical_of_not_isNaN (isFinite_iff.mp h).1

theorem nanIsCanonical_canonicalNaN : nanIsCanonical canonicalNaN := fun _ => rfl

theorem nanIsCanonical_pack {neg : Bool} {bits : Nat} (h : bits ≤ infinityBits) : nanIsCanonical (pack neg bits) :=
  nanIsCanonical_of_not_isNaN (isNaN_pack h)

theorem nanIsCanonical_roundTo (neg : Bool) (num den : Nat) : nanIsCanonical (roundTo neg num den) :=
  nanIsCanonical_of_not_isNaN (isNaN_roundTo neg num den)

/-- A sum is a NaN only as the canonical one. -/
theorem nanIsCanonical_fadd (a b : F32) : nanIsCanonical (fadd a b) := by
  unfold fadd faddFinite
  split
  · exact nanIsCanonical_canonicalNaN
  · next hn =>
    obtain ⟨ha, hb⟩ : isNaN a = false ∧ isNaN b = false := by simpa using hn
    split
    · split
      · exact nanIsCanonical_canonicalNaN
      · exact nanIsCanonical_of_not_isNaN ha
    · split
      · exact nanIsCanonical_of_not_isNaN hb
      · split
        · exact nanIsCanonical_pack (Nat.zero_le _)
        · exact nanIsCanonical_roundTo _ _ _

/-- A difference is a NaN only as the canonical one. -/
theorem nanIsCanonical_fsub (a b : F32) : nanIsCanonical (fsub a b) := nanIsCanonical_fadd a (fneg b)

/-- A quotient is a NaN only as the canonical one. -/
theorem nanIsCanonical_fdiv (a b : F32) : nanIsCanonical (fdiv a b) := by
  have hinf : nanIsCanonical (infinity (signOf a != signOf b)) := nanIsCanonical_pack le_rfl
  unfold fdiv
  split
  · exact nanIsCanonical_canonicalNaN
  · split
    · split
      · exact nanIsCanonical_canonicalNaN
      · exact hinf
    · split
      · exact nanIsCanonical_pack (Nat.zero_le _)
      · split
        · split
          · exact nanIsCanonical_canonicalNaN
          · exact hinf
        · exact nanIsCanonical_roundTo _ _ _

/-! ## The settings of CR, BQ and QZ (10_state.md R42, R43, R44) -/

/-- The settings' invariants look at the build and the three banks alone. -/
theorem settingsInv_congr {s t : State} (hbuild : t.build = s.build) (hcr : t.cr = s.cr) (hbq : t.bq = s.bq)
    (hqz : t.qz = s.qz) : settingsInv t ↔ settingsInv s := by
  simp only [settingsInv, crAt, bqAt, qzAt, hbuild, hcr, hbq, hqz]

section
variable {s : State}

@[simp] theorem settingsInv_setArg {n : Fin 4} {w : Word} : settingsInv (setArg s n w) ↔ settingsInv s :=
  settingsInv_congr rfl rfl rfl rfl
@[simp] theorem settingsInv_setRes {n : Fin 4} {w : Word} : settingsInv (setRes s n w) ↔ settingsInv s :=
  settingsInv_congr rfl rfl rfl rfl
@[simp] theorem settingsInv_setPa {k : Inst} {u : PaInst} : settingsInv (setPa s k u) ↔ settingsInv s :=
  settingsInv_congr rfl rfl rfl rfl
@[simp] theorem settingsInv_setWt {k : Inst} {u : WtInst} : settingsInv (setWt s k u) ↔ settingsInv s :=
  settingsInv_congr rfl rfl rfl rfl
@[simp] theorem settingsInv_setTt {k : Inst} {u : TtInst} : settingsInv (setTt s k u) ↔ settingsInv s :=
  settingsInv_congr rfl rfl rfl rfl
@[simp] theorem settingsInv_setWtab {i : Nat} {v : F32} : settingsInv (setWtab s i v) ↔ settingsInv s :=
  settingsInv_congr rfl rfl rfl rfl
@[simp] theorem settingsInv_setQt {k : Inst} {i : Nat} {e : QtEntry} : settingsInv (setQt s k i e) ↔ settingsInv s :=
  settingsInv_congr rfl rfl rfl rfl
@[simp] theorem settingsInv_clearQt {k : Inst} : settingsInv (clearQt s k) ↔ settingsInv s :=
  settingsInv_congr rfl rfl rfl rfl
@[simp] theorem settingsInv_accept : settingsInv (accept s) ↔ settingsInv s := settingsInv_congr rfl rfl rfl rfl
@[simp] theorem settingsInv_reject {c : Code} : settingsInv (reject c s) ↔ settingsInv s :=
  settingsInv_congr rfl rfl rfl rfl
@[simp] theorem settingsInv_status {st : Status} : settingsInv { s with status := st } ↔ settingsInv s :=
  settingsInv_congr rfl rfl rfl rfl

theorem settingsInv_setCr (hs : settingsInv s) {k : Inst} {u : CrInst} (hu : crInv u) : settingsInv (setCr s k u) := by
  obtain ⟨hcr, hbq, hqz⟩ := hs
  refine ⟨fun j => ?_, hbq, hqz⟩
  rw [crAt_setCr]
  split
  · exact hu
  · exact hcr j

theorem settingsInv_setBq (hs : settingsInv s) {k : Inst} {u : BqInst} (hu : bqInv u) : settingsInv (setBq s k u) := by
  obtain ⟨hcr, hbq, hqz⟩ := hs
  refine ⟨hcr, fun j => ?_, hqz⟩
  rw [bqAt_setBq]
  split
  · exact hu
  · exact hbq j

theorem settingsInv_setQz (hs : settingsInv s) {k : Inst} {u : QzInst} (hu : qzInv s.build u) :
    settingsInv (setQz s k u) := by
  obtain ⟨hcr, hbq, hqz⟩ := hs
  refine ⟨hcr, hbq, fun j => ?_⟩
  rw [qzAt_setQz]
  split
  · exact hu
  · exact hqz j

end

theorem crInv_crReset {fs : F32} (h : rateOk fs) : crInv { crReset with fs := fs } := by
  have hone : isFinite fONE = true := by decide
  have hzero : isFinite fZERO = true := by decide
  exact ⟨h, hzero, hzero, ⟨hone, hzero⟩, nanIsCanonical_of_isFinite hone, nanIsCanonical_of_isFinite hzero⟩

theorem bqInv_bqReset : bqInv bqReset := by
  have hzero : isFinite fZERO = true := by decide
  have hnan := nanIsCanonical_of_isFinite hzero
  exact ⟨⟨hzero, hzero, hzero, hzero, hzero⟩, ⟨hzero, hzero⟩, hnan, hnan⟩

theorem qzInv_qzReset (b : Build) : qzInv b qzReset := .inl rfl

/-- The reset state of every build meets the settings' invariants. -/
theorem settingsInv_resetBlock (s : State) : settingsInv (resetBlock s) := by
  refine ⟨fun k => ?_, fun k => ?_, fun k => ?_⟩
  · rw [crAt_resetBlock]; exact crInv_crReset (fs := fFS_RESET) (by unfold rateOk; decide)
  · rw [bqAt_resetBlock]; exact bqInv_bqReset
  · rw [qzAt_resetBlock]; exact qzInv_qzReset _

/-! ### What each command writes -/

/-- Replacing a coefficient by a finite value keeps the filter's invariant (R173). -/
theorem bqInv_setCoef {u : BqInst} (hu : bqInv u) (sel : Nat) {v : F32} (hv : isFinite v = true) :
    bqInv (setCoef u sel v) := by
  obtain ⟨⟨h0, h1, h2, h3, h4⟩, hhist⟩ := hu
  match sel with
  | 0 => exact ⟨⟨hv, h1, h2, h3, h4⟩, hhist⟩
  | 1 => exact ⟨⟨h0, hv, h2, h3, h4⟩, hhist⟩
  | 2 => exact ⟨⟨h0, h1, hv, h3, h4⟩, hhist⟩
  | 3 => exact ⟨⟨h0, h1, h2, hv, h4⟩, hhist⟩
  | _ + 4 => exact ⟨⟨h0, h1, h2, h3, hv⟩, hhist⟩

/-- Finite coefficients keep the filter's invariant, whatever they are (R172). -/
theorem bqInv_coefs {u : BqInst} (hu : bqInv u) {c : Coefs} (hc : coefsFinite c = true) :
    bqInv { u with b0 := c.b0, b1 := c.b1, b2 := c.b2, a1 := c.a1, a2 := c.a2 } := by
  obtain ⟨⟨⟨⟨h0, h1⟩, h2⟩, h3⟩, h4⟩ : (((isFinite c.b0 = true ∧ isFinite c.b1 = true) ∧ isFinite c.b2 = true)
      ∧ isFinite c.a1 = true) ∧ isFinite c.a2 = true := by simpa only [coefsFinite, Bool.and_eq_true] using hc
  exact ⟨⟨h0, h1, h2, h3, h4⟩, hu.2⟩

/-- A sample shifts a finite input and an output of the difference equation into the histories (R176). -/
theorem bqInv_process {u : BqInst} (hu : bqInv u) {x : F32} (hx : isFinite x = true) :
    bqInv { u with x1 := x, x2 := u.x1, y1 := difference u x, y2 := u.y1 } := by
  obtain ⟨hcoefs, ⟨hx1, -⟩, hy1, -⟩ := hu
  exact ⟨hcoefs, ⟨hx, hx1⟩, nanIsCanonical_fsub _ _, hy1⟩

/-- A length that QZ_SET_LEN admits is stored whole (R191). -/
theorem qzInv_length {b : Build} {w t : Word} (hlo : 2 ≤ w.toNat) (hhi : w.toNat ≤ b.qzMax) :
    qzInv b { n := zext w.toNat, transpose := t } := by
  have hw : zext w.toNat = w := by simp [zext]
  rw [hw]
  exact .inr ⟨hlo, hhi⟩

/-! ### Every command -/

theorem finish_keeps_settings {s t : State} {r : Except Code State} (hs : settingsInv s)
    (hr : Ensures settingsInv r) (h : finish s r = .next t) : settingsInv t :=
  finish_keeps (fun _ => settingsInv_accept.mpr) (fun _ => settingsInv_reject.mpr hs) hr h

/-- Every command keeps the settings: CR, BQ and QZ commands by what they write into their instance, every other
because it writes no field of these units. -/
theorem exec_keeps_settings {s t : State} (i : Instr) (hs : settingsInv s) (h : exec i s = .next t) :
    settingsInv t := by
  obtain ⟨hcr, hbq, hqz⟩ := id hs
  cases i with
  | crInit k =>
    refine finish_keeps_settings hs ?_ h
    simp only [ensures_instanced, ensures_bind, needFs_ok_iff, pure_eq_ok, ensures_ok]
    exact fun _ _ hfs => settingsInv_setCr hs (crInv_crReset hfs)
  | crSetFreq k =>
    obtain ⟨hfs, -, hamp, -, hre, him⟩ := hcr k
    refine finish_keeps_settings hs ?_ h
    simp only [ensures_instanced, ensures_bind, needFinite_ok_iff, needOperand_ok_iff, Bool.and_eq_true, pure_eq_ok,
      ensures_ok]
    exact fun _ _ hhz _ _ _ hm => settingsInv_setCr hs ⟨hfs, hhz, hamp, hm, hre, him⟩
  | crSetAmp k =>
    obtain ⟨hfs, hfreq, -, hrest⟩ := hcr k
    refine finish_keeps_settings hs ?_ h
    simp only [ensures_instanced, ensures_bind, needFinite_ok_iff, pure_eq_ok, ensures_ok]
    exact fun _ _ hg => settingsInv_setCr hs ⟨hfs, hfreq, hg, hrest⟩
  | crProcess k =>
    obtain ⟨hfs, hfreq, hamp, hm, -, -⟩ := hcr k
    refine finish_keeps_settings hs ?_ h
    simp only [ensures_instanced, pure_eq_ok, ensures_ok, settingsInv_setRes]
    exact fun _ => settingsInv_setCr hs ⟨hfs, hfreq, hamp, hm, nanIsCanonical_fsub _ _, nanIsCanonical_fadd _ _⟩
  | crRenorm k =>
    obtain ⟨hfs, hfreq, hamp, hm, -, -⟩ := hcr k
    refine finish_keeps_settings hs ?_ h
    simp only [ensures_instanced, ensures_bind, pure_eq_ok, ensures_ok]
    exact fun _ _ _ =>
      settingsInv_setCr hs ⟨hfs, hfreq, hamp, hm, nanIsCanonical_fdiv _ _, nanIsCanonical_fdiv _ _⟩
  | bqInit k =>
    refine finish_keeps_settings hs ?_ h
    simp only [ensures_instanced, pure_eq_ok, ensures_ok]
    exact fun _ => settingsInv_setBq hs bqInv_bqReset
  | bqCalc k =>
    refine finish_keeps_settings hs ?_ h
    simp only [ensures_instanced, ensures_bind, needOperand_ok_iff, pure_eq_ok, ensures_ok]
    intros
    exact settingsInv_setBq hs (bqInv_coefs (hbq k) ‹coefsFinite _ = true›)
  | bqSetCoef k =>
    refine finish_keeps_settings hs ?_ h
    simp only [ensures_instanced, ensures_bind, needFinite_ok_iff, pure_eq_ok, ensures_ok]
    exact fun _ _ _ _ hv => settingsInv_setBq hs (bqInv_setCoef (hbq k) _ hv)
  | bqProcess k =>
    refine finish_keeps_settings hs ?_ h
    simp only [ensures_instanced, ensures_bind, needFinite_ok_iff, pure_eq_ok, ensures_ok, settingsInv_setRes]
    exact fun _ _ hx => settingsInv_setBq hs (bqInv_process (hbq k) hx)
  | qzInit k =>
    refine finish_keeps_settings hs ?_ h
    simp only [ensures_instanced, pure_eq_ok, ensures_ok, settingsInv_clearQt]
    exact fun _ => settingsInv_setQz hs (qzInv_qzReset s.build)
  | qzSetLen k =>
    refine finish_keeps_settings hs ?_ h
    simp only [ensures_instanced, ensures_bind, needOperand_ok_iff, Bool.and_eq_true, decide_eq_true_eq, pure_eq_ok,
      ensures_ok]
    exact fun _ _ ⟨hlo, hhi⟩ => settingsInv_setQz hs (qzInv_length hlo hhi)
  | qzSetTranspose k | qzIncTranspose k =>
    refine finish_keeps_settings hs ?_ h
    simp only [ensures_instanced, pure_eq_ok, ensures_ok]
    exact fun _ => settingsInv_setQz hs (hqz k)
  | ttProcess k =>
    refine finish_keeps_settings hs ?_ h
    simp only [ensures_instanced, ensures_bind]
    intro _ _ _ _ _
    split <;> simp only [pure_eq_ok, ensures_ok, settingsInv_setRes, settingsInv_setTt, hs]
  | nop => exact finish_keeps_settings hs (ensures_ok.mpr hs) h
  | clrErr => exact finish_keeps_settings hs (ensures_ok.mpr (settingsInv_status.mpr hs)) h
  | softReset => exact finish_keeps_settings hs (ensures_ok.mpr (settingsInv_resetBlock s)) h
  -- what is left writes RES, a PA, WT or TT field, or a table
  | _ => exact finish_keeps_settings hs (by simp [hs]) h

/-- Settles O23: `step_keeps` for the settings' invariants, which see only the build and the CR, BQ and QZ banks. -/
theorem stepKeepsSettingsInRange : Obligations.StepKeepsSettingsInRange := by
  intro s t hs h
  exact step_keeps (fun _ _ _ hs => (settingsInv_congr rfl rfl rfl rfl).mpr hs) (fun _ _ _ => settingsInv_setArg.mpr)
    (fun _ _ => settingsInv_reject.mpr) (fun s _ => settingsInv_resetBlock s)
    (fun i _ _ hs h => exec_keeps_settings i hs h) hs h

end Sys2Proof.Machine
end

section
/-! # Arithmetic: every operation of R12 rounds correctly, every conversion of R15 is what R15 says -/

namespace Sys2Proof.Machine

/-! ## Correct rounding of the operations (00_scope.md R12) -/

/-! ### Values -/

theorem valueOf_natAbs (v : F32) : (valueOf v).natAbs = magnitude v := by
  unfold valueOf; split <;> omega

theorem magnitude_eq_zero_iff {v : F32} : magnitude v = 0 ↔ valueOf v = 0 := by
  rw [← valueOf_natAbs, Int.natAbs_eq_zero]

/-- A value that is not negative is its magnitude. -/
theorem valueOf_eq_magnitude {v : F32} (h : 0 ≤ valueOf v) : valueOf v = magnitude v := by
  rw [← valueOf_natAbs, Int.natAbs_of_nonneg h]

theorem isNaN_of_isFinite {v : F32} (h : isFinite v = true) : isNaN v = false := (isFinite_iff.mp h).1

theorem isInf_of_isFinite {v : F32} (h : isFinite v = true) : isInf v = false := (isFinite_iff.mp h).2

/-- The change of sign leaves the bits below it alone. -/
theorem isFinite_fneg {v : F32} (h : isFinite v = true) : isFinite (fneg v) = true := by
  have hlt := bits_lt_of_isFinite h
  rw [fneg, isFinite_pack hlt.le]
  exact decide_eq_true hlt

theorem valueOf_fneg (v : F32) : valueOf (fneg v) = -valueOf v := by
  have hlt : v.toNat % 2 ^ 31 < 2 ^ 31 := Nat.mod_lt _ (by decide)
  rw [fneg, valueOf_pack hlt, valueOf_eq]
  cases signOf v <;> simp

/-- The exact product's sign is the exclusive-or of the signs (log 11). -/
theorem valueOf_mul (a b : F32) :
    valueOf a * valueOf b
      = if (signOf a != signOf b) = true then -((magnitude a * magnitude b : Nat) : Int)
        else ((magnitude a * magnitude b : Nat) : Int) := by
  unfold valueOf
  cases signOf a <;> cases signOf b <;> simp

/-! ### The operations -/

/-- The sign of a ratio may stand in its denominator or in its numerator. -/
theorem roundsTo_neg_neg {r : F32} {num den : Int} : roundsTo r (-num) (-den) ↔ roundsTo r num den := by
  have hflip (x : Int) : |x * -den - -num| = |x * den - num| := by rw [← abs_neg]; congr 1; ring
  simp only [roundsTo, abs_neg, hflip, neg_mul_neg]

/-- Rounding an exact integer of units. -/
theorem roundsTo_roundTo_int (x : Int) : roundsTo (roundTo (decide (x < 0)) x.natAbs 1) x 1 := by
  have hx : (if decide (x < 0) = true then -(x.natAbs : Int) else x.natAbs) = x := by
    simp only [decide_eq_true_eq]; omega
  simpa only [hx, Nat.cast_one] using roundsTo_roundTo (decide (x < 0)) x.natAbs Nat.one_pos

/-- Either zero is the exact zero, rounded. -/
theorem roundsTo_zero (neg : Bool) : roundsTo (pack neg 0) 0 1 := by
  have h := roundsTo_roundTo neg 0 Nat.one_pos
  simpa [roundTo] using h

theorem fadd_of_isFinite {a b : F32} (ha : isFinite a = true) (hb : isFinite b = true) :
    fadd a b = faddFinite a b := by
  simp [fadd, isNaN_of_isFinite, isInf_of_isFinite, ha, hb]

theorem fmul_of_isFinite {a b : F32} (ha : isFinite a = true) (hb : isFinite b = true) :
    fmul a b = roundTo (signOf a != signOf b) (magnitude a * magnitude b) (2 ^ 149) := by
  simp [fmul, isNaN_of_isFinite, isInf_of_isFinite, ha, hb]

theorem fdiv_of_isFinite {a b : F32} (ha : isFinite a = true) (hb : isFinite b = true) (h0 : magnitude b ≠ 0) :
    fdiv a b = roundTo (signOf a != signOf b) (magnitude a * 2 ^ 149) (magnitude b) := by
  simp [fdiv, isNaN_of_isFinite, isInf_of_isFinite, ha, hb, h0]

theorem roundsTo_fadd {a b : F32} (ha : isFinite a = true) (hb : isFinite b = true) :
    roundsTo (fadd a b) (valueOf a + valueOf b) 1 := by
  rw [fadd_of_isFinite ha hb, faddFinite]
  split
  · next h0 => rw [h0]; exact roundsTo_zero _
  · exact roundsTo_roundTo_int _

theorem roundsTo_fsub {a b : F32} (ha : isFinite a = true) (hb : isFinite b = true) :
    roundsTo (fsub a b) (valueOf a - valueOf b) 1 := by
  have h := roundsTo_fadd ha (isFinite_fneg hb)
  rwa [valueOf_fneg] at h

/-- Settles O26: the exact sum is an integer of units, which `roundTo` rounds. -/
theorem additionIsNearest : Obligations.AdditionIsNearest :=
  fun _ _ ha hb => ⟨roundsTo_fadd ha hb, roundsTo_fsub ha hb⟩

/-- Settles O27: the exact product is the product of the magnitudes over 2^149, with the signs' exclusive-or. -/
theorem multiplicationIsNearest : Obligations.MultiplicationIsNearest := by
  intro a b ha hb
  rw [fmul_of_isFinite ha hb, valueOf_mul]
  exact_mod_cast roundsTo_roundTo _ (magnitude a * magnitude b) (Nat.two_pow_pos 149)

/-- Settles O28: the ratio of the magnitudes is rounded; a negative divisor moves its sign into the numerator. -/
theorem divisionIsNearest : Obligations.DivisionIsNearest := by
  intro a b ha hb hb0
  have hmag : magnitude b ≠ 0 := mt magnitude_eq_zero_iff.mp hb0
  rw [fdiv_of_isFinite ha hb hmag]
  have h := roundsTo_roundTo (signOf a != signOf b) (magnitude a * 2 ^ 149) (Nat.pos_of_ne_zero hmag)
  unfold valueOf
  cases hsa : signOf a <;> cases hsb : signOf b <;> rw [hsa, hsb] at h
  · simpa using h
  · rw [← roundsTo_neg_neg]; simpa using h
  · simpa using h
  · rw [← roundsTo_neg_neg]; simpa using h

/-! ### The square root (R12, D12) -/

/-- The bits tried from the top down end at the integer root, if the root lies in their reach. -/
theorem sqrtFrom_spec (bits n r : Nat) (hlo : r * r ≤ n) (hhi : n < (r + 2 ^ bits) * (r + 2 ^ bits)) :
    sqrtFrom bits n r * sqrtFrom bits n r ≤ n ∧ n < (sqrtFrom bits n r + 1) * (sqrtFrom bits n r + 1) := by
  induction bits generalizing r with
  | zero => exact ⟨hlo, hhi⟩
  | succ bits ih =>
    rw [sqrtFrom]
    split
    · next h => exact ih _ h (by rwa [Nat.add_assoc, ← Nat.two_mul, ← Nat.pow_succ'])
    · next h => exact ih _ hlo (Nat.not_le.mp h)

theorem integerSqrt_spec {n : Nat} (h : n < 2 ^ 213 * 2 ^ 213) :
    integerSqrt n * integerSqrt n ≤ n ∧ n < (integerSqrt n + 1) * (integerSqrt n + 1) :=
  sqrtFrom_spec 213 n 0 (Nat.zero_le n) (by simpa only [Nat.zero_add] using h)

/-- Every finite magnitude is below 2^277 units. -/
theorem magnitude_lt_of_isFinite {v : F32} (h : isFinite v = true) : magnitude v < 2 ^ 24 * 2 ^ 253 := by
  have hinf : magBits infinityBits = 2 ^ 24 * 2 ^ 253 := by decide +kernel
  rw [magnitude_eq_magBits, ← hinf]
  exact magBits_strictMono (bits_lt_of_isFinite h)

/-- From exponent 2 on, a magnitude is an even number of units. -/
theorem magBits_even {b : Nat} (h : 2 ^ 24 ≤ b) : magBits b % 2 = 0 := by
  obtain ⟨e, f, he, hf, rfl⟩ : ∃ e f, 2 ≤ e ∧ f < 2 ^ 23 ∧ b = e * 2 ^ 23 + f :=
    ⟨b / 2 ^ 23, b % 2 ^ 23, by omega, Nat.mod_lt _ (by decide), by omega⟩
  obtain ⟨k, rfl⟩ : ∃ k, e = k + 2 := ⟨e - 2, by omega⟩
  rw [magBits_of_fields hf, if_neg (by omega), show k + 2 - 1 = k + 1 by rfl,
    Nat.pow_succ 2 k, ← Nat.mul_assoc]
  exact Nat.mul_mod_left _ 2

/-- Of two numbers, one at least as far from `n` as the other, `n` is on the near one's side of the midpoint. -/
theorem midpoint_of_abs_le {near far n : Int} (h : |near - n| ≤ |far - n|) :
    (far < near → far + near ≤ 2 * n) ∧ (near < far → 2 * n ≤ far + near) := by
  rcases abs_cases (near - n) with ⟨h1, h1'⟩ | ⟨h1, h1'⟩ <;>
    rcases abs_cases (far - n) with ⟨h2, h2'⟩ | ⟨h2, h2'⟩ <;> constructor <;> intro <;> linarith

/-- The value rounded is on the result's side of the midpoint between the result and any other encoding (R12). -/
theorem roundNat_midpoint {num den : Nat} (hd : 0 < den) (b : Nat) :
    (b < roundNat num den → (magBits b + magBits (roundNat num den)) * den ≤ 2 * num)
      ∧ (roundNat num den < b → 2 * num ≤ (magBits b + magBits (roundNat num den)) * den) := by
  obtain ⟨hbelow, habove⟩ := midpoint_of_abs_le (roundNat_nearest (num := num) hd b)
  have hord {x y : Nat} (h : x < y) : magBits x * den < magBits y * den :=
    Nat.mul_lt_mul_of_pos_right (magBits_strictMono h) hd
  rw [Nat.add_mul]
  exact ⟨fun h => by exact_mod_cast hbelow (by exact_mod_cast hord h),
    fun h => by exact_mod_cast habove (by exact_mod_cast hord h)⟩

/-- The halves that `fsqrt` rounds: twice the integer root, and one more if the root is not exact. -/
def rootHalves (n : Nat) : Nat := 2 * integerSqrt n + if integerSqrt n * integerSqrt n = n then 0 else 1

theorem fsqrt_of_pos {a : F32} (ha : isFinite a = true) (hpos : 0 < valueOf a) :
    fsqrt a = roundTo false (rootHalves (magnitude a * 2 ^ 149)) 2 := by
  have h0 : magnitude a ≠ 0 := mt magnitude_eq_zero_iff.mp hpos.ne'
  have hs : signOf a = false := by
    by_contra hc
    rw [valueOf, if_pos (by simpa using hc)] at hpos
    omega
  simp [fsqrt, rootHalves, isNaN_of_isFinite ha, isInf_of_isFinite ha, h0, hs]

/-- An even number of halves is on the side of the exact root that it is on of the halves rounded: the bit that marks
an inexact root stands for everything strictly between two integers. -/
theorem even_halves_root {n m : Nat} (hn : n < 2 ^ 213 * 2 ^ 213) (hm : m % 2 = 0) :
    (m ≤ rootHalves n → m * m ≤ 4 * n) ∧ (rootHalves n ≤ m → 4 * n ≤ m * m) := by
  obtain ⟨hlo, hhi⟩ := integerSqrt_spec hn
  obtain ⟨k, rfl⟩ : ∃ k, m = 2 * k := ⟨m / 2, by omega⟩
  have hsq : 2 * k * (2 * k) = 4 * (k * k) := by ring
  rw [hsq, rootHalves]
  generalize integerSqrt n = r at *
  constructor
  · intro h
    have hk : k ≤ r := by split at h <;> omega
    have := Nat.mul_le_mul hk hk
    omega
  · intro h
    split at h
    · next hexact =>
      have hk : r ≤ k := by omega
      have := Nat.mul_le_mul hk hk
      omega
    · have hk : r + 1 ≤ k := by omega
      have := Nat.mul_le_mul hk hk
      omega

/-- Twice an integer root that has more than 25 bits rounds into the range of even magnitudes. -/
theorem two_pow_24_lt_roundNat {num : Nat} (h : 2 ^ 27 ≤ num) : 2 ^ 24 < roundNat num 2 := by
  have hmag : magBits (2 ^ 24 + 1) = 2 ^ 24 + 2 := by decide +kernel
  have hmono := roundNat_mono (n := magBits (2 ^ 24 + 1) * 1) (d := 1) (n' := num) (d' := 2) Nat.one_pos Nat.two_pos
    (by rw [hmag]; omega)
  rwa [roundNat_exact Nat.one_pos] at hmono

/-- The rounded halves of a root: the root of `n` is on the result's side of the midpoint between the result and any
other encoding. The midpoint to a neighbour is even, so the halves decide it as the root does. -/
theorem root_midpoint {n r : Nat} (hn : n < 2 ^ 213 * 2 ^ 213) (hlarge : 2 ^ 27 ≤ rootHalves n)
    (hroot : roundNat (rootHalves n) 2 = r) (b : Nat) :
    (b < r → (magBits b + magBits r) * (magBits b + magBits r) ≤ 4 * n)
      ∧ (r < b → 4 * n ≤ (magBits b + magBits r) * (magBits b + magBits r)) := by
  have hr : 2 ^ 24 < r := hroot ▸ two_pow_24_lt_roundNat hlarge
  have hmono {x y : Nat} (h : x ≤ y) : magBits x ≤ magBits y := magBits_strictMono.monotone h
  have heven (c : Nat) (hc : 2 ^ 24 ≤ c) : (magBits c + magBits r) % 2 = 0 := by
    have := magBits_even hc
    have := magBits_even hr.le
    omega
  have hnear := roundNat_midpoint (num := rootHalves n) Nat.two_pos
  rw [hroot] at hnear
  constructor
  · intro hb
    have hmid := (hnear (r - 1)).1 (by omega)
    have hsq := (even_halves_root hn (heven (r - 1) (by omega))).1 (by omega)
    have hle : magBits b + magBits r ≤ magBits (r - 1) + magBits r := Nat.add_le_add_right (hmono (by omega)) _
    exact (Nat.mul_le_mul hle hle).trans hsq
  · intro hb
    have hmid := (hnear (r + 1)).2 (by omega)
    have hsq := (even_halves_root hn (heven (r + 1) (by omega))).2 (by omega)
    have hle : magBits (r + 1) + magBits r ≤ magBits b + magBits r := Nat.add_le_add_right (hmono hb) _
    exact hsq.trans (Nat.mul_le_mul hle hle)

/-- The radicand `fsqrt` takes the integer root of is within reach of `integerSqrt`, and its root has over 26 bits. -/
theorem radicand_bounds {m : Nat} (hpos : 0 < m) (hlt : m < 2 ^ 24 * 2 ^ 253) :
    m * 2 ^ 149 < 2 ^ 213 * 2 ^ 213 ∧ 2 ^ 27 ≤ rootHalves (m * 2 ^ 149) ∧ rootHalves (m * 2 ^ 149) < 2 ^ 215 := by
  have hn : m * 2 ^ 149 < 2 ^ 213 * 2 ^ 213 := by
    calc m * 2 ^ 149 < 2 ^ 24 * 2 ^ 253 * 2 ^ 149 := Nat.mul_lt_mul_of_pos_right hlt (Nat.two_pow_pos _)
      _ = 2 ^ 213 * 2 ^ 213 := by norm_num
  obtain ⟨hlo, hhi⟩ := integerSqrt_spec hn
  refine ⟨hn, ?_, ?_⟩
  all_goals
    unfold rootHalves
    generalize integerSqrt (m * 2 ^ 149) = r at *
  · have hr : 2 ^ 26 ≤ r := by
      by_contra hc
      have hle : r + 1 ≤ 2 ^ 26 := by omega
      have := Nat.mul_le_mul hle hle
      omega
    omega
  · have hr : r < 2 ^ 213 := by
      by_contra hc
      have hle : 2 ^ 213 ≤ r := by omega
      exact absurd ((Nat.mul_le_mul hle hle).trans hlo) (by omega)
    split <;> omega

/-- Settles O29: a zero is its own root; otherwise the rounded halves of the integer root are the result's magnitude
bits, and `root_midpoint` compares the root with every midpoint. -/
theorem squareRootIsNearest : Obligations.SquareRootIsNearest := by
  intro a v ha ha0 _ hv0
  rcases ha0.eq_or_lt with hzero | hpos
  · have hroot : fsqrt a = a := by
      simp [fsqrt, isNaN_of_isFinite ha, magnitude_eq_zero_iff.mpr hzero.symm]
    rw [hroot, ← hzero]
    exact ⟨ha, le_rfl, fun h => absurd h hv0.not_gt, fun _ => by simpa using sq_nonneg (valueOf v)⟩
  · have hmag := valueOf_eq_magnitude ha0
    obtain ⟨hn, hlarge, hsmall⟩ := radicand_bounds (m := magnitude a) (by omega) (magnitude_lt_of_isFinite ha)
    have hfin : roundNat (rootHalves (magnitude a * 2 ^ 149)) 2 < infinityBits :=
      (roundNat_lt_infinityBits_iff Nat.two_pos).mpr (by omega)
    have hroot : fsqrt a = pack false (roundNat (rootHalves (magnitude a * 2 ^ 149)) 2) := by
      rw [fsqrt_of_pos ha hpos, roundTo, roundBits_eq_min, Nat.min_eq_left hfin.le]
    obtain ⟨hbelow, habove⟩ := root_midpoint hn hlarge rfl (v.toNat % 2 ^ 31)
    rw [hroot, isFinite_pack hfin.le, valueOf_pack (hfin.trans infinityBits_lt), valueOf_eq_magnitude hv0,
      magnitude_eq_magBits v, hmag, if_neg Bool.false_ne_true, sq]
    refine ⟨decide_eq_true hfin, Int.natCast_nonneg _, fun h => ?_, fun h => ?_⟩
    · exact_mod_cast hbelow (magBits_strictMono.lt_iff_lt.mp (by exact_mod_cast h))
    · exact_mod_cast habove (magBits_strictMono.lt_iff_lt.mp (by exact_mod_cast h))

/-! ## Conversions (R15) -/

/-- The integer part of a finite value that is not negative (log 12 says what it is elsewhere). -/
theorem floorI_bounds {v : F32} (h : 0 ≤ valueOf v) :
    (floorI v : Int) * 2 ^ 149 ≤ valueOf v ∧ valueOf v < ((floorI v : Int) + 1) * 2 ^ 149 := by
  rw [valueOf_eq_magnitude h, floorI]
  omega

/-- The integers up to 2^24 have an encoding. -/
theorem exists_magBits_of_le {n : Nat} (h : n ≤ 2 ^ 24) : ∃ b < infinityBits, magBits b = n * 2 ^ 149 := by
  obtain ⟨hfin, -, hmag⟩ := toF_exact h
  exact ⟨_, bits_lt_of_isFinite hfin, by rw [← magnitude_eq_magBits, hmag]⟩

/-- Rounding a magnitude that has an encoding gives that encoding. -/
theorem roundTo_magBits (neg : Bool) {b : Nat} (h : b < infinityBits) : roundTo neg (magBits b) 1 = pack neg b := by
  have hexact := roundBits_exact Nat.one_pos h.le
  rw [Nat.mul_one] at hexact
  rw [roundTo, hexact]

/-- The integer that `roundF` takes a magnitude to: the nearest, ties up. -/
def nearestUp (m : Nat) : Nat := (2 * m + 2 ^ 149) / 2 ^ 150

theorem nearestUp_bounds (m : Nat) :
    2 * (nearestUp m * 2 ^ 149) ≤ 2 * m + 2 ^ 149 ∧ 2 * m < 2 * (nearestUp m * 2 ^ 149) + 2 ^ 149 := by
  unfold nearestUp
  omega

/-- A finite magnitude is an integer already, or is below 2^23. -/
theorem magnitude_integral_or_small (v : F32) : 2 ^ 149 ∣ magnitude v ∨ magnitude v < 2 ^ 23 * 2 ^ 149 := by
  have hfrac : fractionOf v < 2 ^ 23 := Nat.mod_lt _ (by decide)
  rcases Nat.lt_or_ge (exponentOf v) 150 with he | he
  · right
    have hpow : 2 ^ (exponentOf v - 1) ≤ 2 ^ 148 := Nat.pow_le_pow_right (by decide) (by omega)
    unfold magnitude
    split
    · omega
    · calc (fractionOf v + 2 ^ 23) * 2 ^ (exponentOf v - 1)
          ≤ (fractionOf v + 2 ^ 23) * 2 ^ 148 := Nat.mul_le_mul_left _ hpow
        _ < 2 ^ 23 * 2 ^ 149 := by omega
  · left
    rw [magnitude, if_neg (by omega)]
    exact Dvd.dvd.mul_left (pow_dvd_pow 2 (by omega)) _

/-- What a finite value rounds to has an encoding. -/
theorem exists_magBits_nearestUp {v : F32} (h : isFinite v = true) :
    ∃ b < infinityBits, magBits b = nearestUp (magnitude v) * 2 ^ 149 := by
  have hb := nearestUp_bounds (magnitude v)
  rcases magnitude_integral_or_small v with ⟨q, hq⟩ | hsmall
  · have hint : nearestUp (magnitude v) * 2 ^ 149 = magnitude v := by omega
    exact ⟨_, bits_lt_of_isFinite h, by rw [hint, magnitude_eq_magBits]⟩
  · exact exists_magBits_of_le (by omega)

theorem roundF_of_isFinite {v : F32} (h : isFinite v = true) :
    roundF v = roundTo (signOf v) (nearestUp (magnitude v) * 2 ^ 149) 1 := by
  simp [roundF, nearestUp, isNaN_of_isFinite h, isInf_of_isFinite h]

/-- `roundF` of a finite value is finite, with the value's sign and the nearest integer as its magnitude. -/
theorem roundF_spec {v : F32} (h : isFinite v = true) :
    isFinite (roundF v) = true
      ∧ valueOf (roundF v)
        = (if signOf v then -(nearestUp (magnitude v) : Int) else nearestUp (magnitude v)) * 2 ^ 149 := by
  obtain ⟨b, hb, hmag⟩ := exists_magBits_nearestUp h
  rw [roundF_of_isFinite h, ← hmag, roundTo_magBits _ hb]
  refine ⟨by rw [isFinite_pack hb.le]; exact decide_eq_true hb, ?_⟩
  rw [valueOf_pack (hb.trans infinityBits_lt), hmag]
  split <;> push_cast <;> ring

/-- `roundF`'s result is an integer at most a half away, and of two such integers the one farther from zero. -/
theorem roundF_nearest {v : F32} (h : isFinite v = true) :
    ∃ m : Int, valueOf (roundF v) = m * 2 ^ 149 ∧ 2 * |m * 2 ^ 149 - valueOf v| ≤ 2 ^ 149
      ∧ (2 * |m * 2 ^ 149 - valueOf v| = 2 ^ 149 → |valueOf v| < |m * 2 ^ 149|) := by
  refine ⟨_, (roundF_spec h).2, ?_⟩
  obtain ⟨hlo, hhi⟩ := nearestUp_bounds (magnitude v)
  have key : 2 * |(nearestUp (magnitude v) : Int) * 2 ^ 149 - magnitude v| ≤ 2 ^ 149
      ∧ (2 * |(nearestUp (magnitude v) : Int) * 2 ^ 149 - magnitude v| = 2 ^ 149 →
        |(magnitude v : Int)| < |(nearestUp (magnitude v) : Int) * 2 ^ 149|) := by
    zify at hlo hhi
    rw [abs_of_nonneg (a := (magnitude v : Int)) (by omega),
      abs_of_nonneg (a := (nearestUp (magnitude v) : Int) * 2 ^ 149) (by omega)]
    rcases abs_cases ((nearestUp (magnitude v) : Int) * 2 ^ 149 - magnitude v) with ⟨habs, -⟩ | ⟨habs, -⟩ <;>
      rw [habs] <;> omega
  unfold valueOf
  split
  · have hflip (x y : Int) : |-x * 2 ^ 149 - -y| = |x * 2 ^ 149 - y| := by rw [← abs_neg]; congr 1; ring
    rw [hflip, neg_mul, abs_neg, abs_neg]
    exact key
  · exact key

/-- `toF` rounds the integer, and keeps one that fits 24 bits (R15). -/
theorem toF_spec (n : Nat) :
    roundsTo (toF n) (n * 2 ^ 149) 1
      ∧ (n ≤ 2 ^ 24 → isFinite (toF n) = true ∧ valueOf (toF n) = n * 2 ^ 149) := by
  constructor
  · have h := roundsTo_roundTo false (n * 2 ^ 149) Nat.one_pos
    rw [if_neg Bool.false_ne_true] at h
    exact_mod_cast h
  · intro h
    obtain ⟨hfin, hsign, hmag⟩ := toF_exact h
    refine ⟨hfin, ?_⟩
    rw [valueOf, hsign, hmag]
    exact_mod_cast rfl

/-- Settles O31: the constants by evaluation, the conversions by `floorI_bounds`, `roundF_nearest` and `toF_spec`. -/
theorem constantsAndConversions : Obligations.ConstantsAndConversions := by
  refine ⟨by decide +kernel, fun v _ h0 => ?_, fun v hv => ⟨(roundF_spec hv).1, roundF_nearest hv⟩, toF_spec⟩
  obtain ⟨hlo, hhi⟩ := floorI_bounds h0
  exact ⟨hlo, hhi, rfl⟩

end Sys2Proof.Machine
end

section
/-! # What a command may touch (10_state.md R35, R36, R46; 20_memory.md R68, R69; 60_exceptions.md R244)

`Footprint i s u` says everything that command `i`, accepted in `s`, leaves alone in the state `u` it commits.
`exec_answers` is the one case analysis over the commands; what is claimed of all commands follows from it. -/

namespace Sys2Proof.Machine

/-- The state `u` differs from `s` only where the command `i` may write. -/
structure Footprint (i : Instr) (s u : State) : Prop where
  build : u.build = s.build
  args : u.args = s.args
  pending : u.pending = s.pending
  readData : u.readData = s.readData
  status : u.status = if i = .clrErr then statusClear s.status else s.status
  res : ∀ n : Fin 4, resultCount i ≤ n.val → resWord u n = resWord s n
  pa : ∀ j, i.address ≠ (.pa, some j) → paAt u j = paAt s j
  wt : ∀ j, i.address ≠ (.wt, some j) → wtAt u j = wtAt s j
  cr : ∀ j, i.address ≠ (.cr, some j) → crAt u j = crAt s j
  bq : ∀ j, i.address ≠ (.bq, some j) → bqAt u j = bqAt s j
  qz : ∀ j, i.address ≠ (.qz, some j) → qzAt u j = qzAt s j
  tt : ∀ j, i.address ≠ (.tt, some j) → ttAt u j = ttAt s j
  wtab : i ≠ .wtTableWrite → u.wtab = s.wtab
  qt : ∀ j, i ≠ .qzInit j → i ≠ .qzTableWrite j → bankGet u.qt j = bankGet s.qt j
  observed : observesOnly i = true → u = { s with res := u.res, status := u.status }

/-! ### One rule per operation on the state -/

section
variable {i : Instr} {s u : State}

theorem footprint_refl (hi : i ≠ .clrErr) : Footprint i s s := by
  constructor <;> simp [hi]

theorem footprint_statusClear : Footprint .clrErr s { s with status := statusClear s.status } := by
  constructor <;> intros <;> rfl

/-- What a command leaves in the registers past its results decides, whatever it leaves in its results. -/
theorem Footprint.withRes (h : Footprint i s u) {r : Vector Word 4}
    (hr : ∀ n : Fin 4, resultCount i ≤ n.val → r[n.val] = resWord s n) : Footprint i s { u with res := r } :=
  { h with res := hr, observed := fun ho => congrArg (fun v : State => { v with res := r }) (h.observed ho) }

/-- A result register that the command's rule names. -/
theorem footprint_setRes {n : Fin 4} {w : Word} (hn : decide (n.val < resultCount i) = true) (h : Footprint i s u) :
    Footprint i s (setRes u n w) := by
  refine h.withRes fun m hm => (Eq.trans ?_ (h.res m hm) : resWord (setRes u n w) m = resWord s m)
  have hn := of_decide_eq_true hn
  rw [resWord_setRes, if_neg (by rintro rfl; omega)]

theorem footprint_setPa {k : Inst} {v : PaInst} (ha : i.address = (.pa, some k)) (ho : observesOnly i = false) :
    Footprint i s (setPa s k v) :=
  { footprint_refl (i := i) (by rintro rfl; cases ho) with
    pa := fun j hj => by rw [paAt_setPa, if_neg (by rintro rfl; exact hj ha)]
    observed := by simp [ho] }

theorem footprint_setWt {k : Inst} {v : WtInst} (ha : i.address = (.wt, some k)) (ho : observesOnly i = false) :
    Footprint i s (setWt s k v) :=
  { footprint_refl (i := i) (by rintro rfl; cases ho) with
    wt := fun j hj => by rw [wtAt_setWt, if_neg (by rintro rfl; exact hj ha)]
    observed := by simp [ho] }

theorem footprint_setCr {k : Inst} {v : CrInst} (ha : i.address = (.cr, some k)) (ho : observesOnly i = false) :
    Footprint i s (setCr s k v) :=
  { footprint_refl (i := i) (by rintro rfl; cases ho) with
    cr := fun j hj => by rw [crAt_setCr, if_neg (by rintro rfl; exact hj ha)]
    observed := by simp [ho] }

theorem footprint_setBq {k : Inst} {v : BqInst} (ha : i.address = (.bq, some k)) (ho : observesOnly i = false) :
    Footprint i s (setBq s k v) :=
  { footprint_refl (i := i) (by rintro rfl; cases ho) with
    bq := fun j hj => by rw [bqAt_setBq, if_neg (by rintro rfl; exact hj ha)]
    observed := by simp [ho] }

theorem footprint_setQz {k : Inst} {v : QzInst} (ha : i.address = (.qz, some k)) (ho : observesOnly i = false) :
    Footprint i s (setQz s k v) :=
  { footprint_refl (i := i) (by rintro rfl; cases ho) with
    qz := fun j hj => by rw [qzAt_setQz, if_neg (by rintro rfl; exact hj ha)]
    observed := by simp [ho] }

theorem footprint_setTt {k : Inst} {v : TtInst} (ha : i.address = (.tt, some k)) (ho : observesOnly i = false) :
    Footprint i s (setTt s k v) :=
  { footprint_refl (i := i) (by rintro rfl; cases ho) with
    tt := fun j hj => by rw [ttAt_setTt, if_neg (by rintro rfl; exact hj ha)]
    observed := by simp [ho] }

theorem footprint_setWtab {n : Nat} {v : F32} : Footprint .wtTableWrite s (setWtab s n v) :=
  { footprint_refl (i := .wtTableWrite) (by simp) with
    wtab := fun h => absurd rfl h
    observed := by simp [observesOnly] }

theorem footprint_setQt {k : Inst} {n : Nat} {e : QtEntry} : Footprint (.qzTableWrite k) s (setQt s k n e) :=
  { footprint_refl (i := .qzTableWrite k) (by simp) with
    qt := fun j _ hj => bankGet_bankSet_of_ne s.qt _ (by rintro rfl; exact hj rfl)
    observed := by simp [observesOnly] }

theorem footprint_clearQt {k : Inst} (h : Footprint (.qzInit k) s u) : Footprint (.qzInit k) s (clearQt u k) :=
  { h with
    qt := fun j hj hj' => by
      rw [clearQt_qt, bankGet_bankSet_of_ne _ _ (by rintro rfl; exact hj rfl)]
      exact h.qt j hj hj'
    observed := by simp [observesOnly] }

end

/-! ### Every command -/

/-- What every command but SOFT_RESET can answer: a rejection, or the acceptance of a state within its footprint. -/
def Answers (i : Instr) (s t : State) : Prop := (∃ c, t = reject c s) ∨ ∃ u, Footprint i s u ∧ t = accept u

theorem finish_answers {i : Instr} {s t : State} {r : Except Code State} (hr : Ensures (Footprint i s) r)
    (h : finish s r = .next t) : Answers i s t := by
  rcases finish_eq_next_iff.mp h with ⟨u, hu, rfl⟩ | ⟨c, -, rfl⟩
  · exact .inr ⟨u, hr u hu, rfl⟩
  · exact .inl ⟨c, rfl⟩

/-- Every command but SOFT_RESET keeps to its footprint: one that is accepted writes the instance or the table it
addresses, and the results its rule names. -/
theorem exec_answers {s t : State} (i : Instr) (hi : i ≠ .softReset) (h : exec i s = .next t) : Answers i s t := by
  cases i with
  | softReset => exact absurd rfl hi
  | nop => exact finish_answers (ensures_ok.mpr (footprint_refl (by simp))) h
  | clrErr => exact finish_answers (ensures_ok.mpr footprint_statusClear) h
  | ttProcess k =>
    refine finish_answers ?_ h
    simp only [ensures_instanced, ensures_bind]
    intro _ _ _ _ _
    split <;> exact ensures_ok.mpr (footprint_setRes rfl (footprint_setRes rfl (footprint_setTt rfl rfl)))
  | paInit k | paSetRange k | paSetFreq k | paProcess k =>
    refine finish_answers ?_ h
    simp only [ensures_instanced, ensures_bind, pure_eq_ok, ensures_ok]
    intros
    repeat refine footprint_setRes rfl ?_
    exact footprint_setPa rfl rfl
  | wtInit k | wtSetFreq k | wtSetAmp k | wtSetInterp k | wtProcess k =>
    refine finish_answers ?_ h
    simp only [ensures_instanced, ensures_bind, pure_eq_ok, ensures_ok]
    intros
    repeat refine footprint_setRes rfl ?_
    exact footprint_setWt rfl rfl
  | crInit k | crSetFreq k | crSetAmp k | crProcess k | crRenorm k =>
    refine finish_answers ?_ h
    simp only [ensures_instanced, ensures_bind, pure_eq_ok, ensures_ok]
    intros
    repeat refine footprint_setRes rfl ?_
    exact footprint_setCr rfl rfl
  | bqInit k | bqCalc k | bqSetCoef k | bqProcess k =>
    refine finish_answers ?_ h
    simp only [ensures_instanced, ensures_bind, pure_eq_ok, ensures_ok]
    intros
    repeat refine footprint_setRes rfl ?_
    exact footprint_setBq rfl rfl
  | qzSetLen k | qzSetTranspose k | qzIncTranspose k =>
    refine finish_answers ?_ h
    simp only [ensures_instanced, ensures_bind, pure_eq_ok, ensures_ok]
    intros
    exact footprint_setQz rfl rfl
  | ttInit k | ttSetPeriod k | ttSetBpm k | ttSetDuration k | ttSetMode k =>
    refine finish_answers ?_ h
    simp only [ensures_instanced, ensures_bind, pure_eq_ok, ensures_ok]
    intros
    exact footprint_setTt rfl rfl
  | wtTableWrite =>
    refine finish_answers ?_ h
    simp only [ensures_bind, pure_eq_ok, ensures_ok]
    intros
    exact footprint_setWtab
  | qzInit k =>
    refine finish_answers ?_ h
    simp only [ensures_instanced, pure_eq_ok, ensures_ok]
    intros
    exact footprint_clearQt (footprint_setQz rfl rfl)
  | qzTableWrite k =>
    refine finish_answers ?_ h
    simp only [ensures_instanced, ensures_bind, pure_eq_ok, ensures_ok]
    intros
    exact footprint_setQt
  -- what is left observes: it writes the results its rule names and nothing else
  | _ =>
    refine finish_answers ?_ h
    simp only [ensures_instanced, ensures_bind, pure_eq_ok, ensures_ok]
    intros
    repeat refine footprint_setRes rfl ?_
    exact footprint_refl (by simp)

/-- SOFT_RESET has no check: it is accepted, and resets the block (R112). -/
theorem exec_softReset (s : State) : exec .softReset s = .next (accept (resetBlock s)) := rfl

/-! ### What follows for every command -/

/-- Settles O17: the `observed` part of the footprint; a rejection changes STATUS alone. -/
theorem observersChangeOnlyResults : Obligations.ObserversChangeOnlyResults := by
  intro i s t ho h
  rcases exec_answers i (by rintro rfl; cases ho) h with ⟨c, rfl⟩ | ⟨u, hu, rfl⟩
  · rfl
  · exact congrArg accept (hu.observed ho)

/-- Settles O18: each clause is the footprint's, read contrapositively; a rejection leaves units and tables alone. -/
theorem commandsTouchOnlyTheirInstance : Obligations.CommandsTouchOnlyTheirInstance := by
  intro i s t hi h
  rcases exec_answers i hi h with ⟨c, rfl⟩ | ⟨u, hu, rfl⟩
  · simp
  · refine ⟨fun j => not_imp_comm.mp (hu.pa j), fun j => not_imp_comm.mp (hu.wt j), fun j => not_imp_comm.mp (hu.cr j),
      fun j => not_imp_comm.mp (hu.bq j), fun j => not_imp_comm.mp (hu.qz j), fun j => not_imp_comm.mp (hu.tt j),
      not_imp_comm.mp hu.wtab, fun j hj => ?_, hu.args, hu.build, hu.pending, hu.readData⟩
    by_contra hc
    obtain ⟨hinit, hwrite⟩ := not_or.mp hc
    exact hj (hu.qt j hinit hwrite)

/-- Settles O19: the `res` part of the footprint; SOFT_RESET is never rejected and names all four results. -/
theorem resultsOnlyWhereNamed : Obligations.ResultsOnlyWhereNamed := by
  intro i s t h
  by_cases hi : i = .softReset
  · subst hi
    obtain rfl := Host.Outcome.next.inj ((exec_softReset s).symm.trans h)
    exact ⟨fun hrej => by simp at hrej, fun n hn => absurd n.isLt (Nat.not_lt.mpr hn)⟩
  · rcases exec_answers i hi h with ⟨c, rfl⟩ | ⟨u, hu, rfl⟩
    · exact ⟨fun _ => rfl, fun _ _ => rfl⟩
    · exact ⟨fun hrej => by simp at hrej, hu.res⟩

/-! ### The invariants of STATUS (10_state.md R33) -/

theorem statusInv_reset : statusInv Status.reset := by unfold statusInv; decide

theorem statusInv_accept {st : Status} (h : statusInv st) : statusInv (statusAccept st) :=
  ⟨h.1, by simp⟩

theorem statusInv_clear {st : Status} (h : statusInv st) : statusInv (statusClear st) :=
  ⟨fun _ => rfl, h.2⟩

theorem statusInv_statusReject (c : Code) (st : Status) : statusInv (statusReject c st) :=
  ⟨by simp, iff_of_false (by simp) (codeByte_ne_zero c)⟩

theorem exec_keeps_status {s t : State} (i : Instr) (hs : statusInv s.status) (h : exec i s = .next t) :
    statusInv t.status := by
  by_cases hi : i = .softReset
  · subst hi
    obtain rfl := Host.Outcome.next.inj ((exec_softReset s).symm.trans h)
    exact statusInv_accept statusInv_reset
  · rcases exec_answers i hi h with ⟨c, rfl⟩ | ⟨u, hu, rfl⟩
    · exact statusInv_statusReject c s.status
    · apply statusInv_accept
      rw [hu.status]
      split
      · exact statusInv_clear hs
      · exact hs

/-- Settles O20: acceptance, rejection, CLR_ERR and reset are all that ever writes STATUS. -/
theorem stepKeepsStatusConsistent : Obligations.StepKeepsStatusConsistent := by
  intro s t hs h
  exact step_keeps (P := fun s => statusInv s.status) (fun _ _ _ hs => hs) (fun _ _ _ hs => hs)
    (fun s c _ => statusInv_statusReject c s.status) (fun _ _ => statusInv_reset)
    (fun i _ _ hs h => exec_keeps_status i hs h) hs h

end Sys2Proof.Machine
end

section
/-! # Bounds through rounding (00_scope.md R12, R14), and the phases and timers they keep in range (10_state.md R40,
R41, R45)

A correctly rounded result lies between any two finite values that the exact one lies between (`roundsTo_between`):
the one fact about rounding that the ranges of phases, steps and ramps rest on. -/

namespace Sys2Proof.Machine

/-! ## Values and classes -/

theorem isFinite_fZERO : isFinite fZERO = true := by decide
theorem isFinite_fONE : isFinite fONE = true := by decide
theorem isFinite_fTWO : isFinite fTWO = true := by decide
theorem valueOf_fZERO : valueOf fZERO = 0 := by decide
theorem valueOf_fONE : valueOf fONE = 2 ^ 149 := by decide +kernel
theorem valueOf_fTWO : valueOf fTWO = 2 * 2 ^ 149 := by decide +kernel

theorem signOf_of_valueOf_pos {v : F32} (h : 0 < valueOf v) : signOf v = false := by
  by_contra hs
  rw [valueOf, if_pos (by simpa using hs)] at h
  omega

/-- The largest finite value is (2^24 - 1) * 2^253 units, below the first value that rounds to an infinity. -/
theorem abs_valueOf_le {v : F32} (h : isFinite v = true) : |valueOf v| ≤ (2 ^ 24 - 1) * 2 ^ 253 := by
  have hmax : magBits (infinityBits - 1) = (2 ^ 24 - 1) * 2 ^ 253 := by decide +kernel
  have hmono : magnitude v ≤ magBits (infinityBits - 1) := by
    rw [magnitude_eq_magBits]
    exact magBits_strictMono.monotone (Nat.le_sub_one_of_lt (bits_lt_of_isFinite h))
  rw [Int.abs_eq_natAbs, valueOf_natAbs]
  omega

theorem magnitude_of_isInf {v : F32} (h : isInf v = true) : magnitude v = 2 ^ 24 * 2 ^ 253 := by
  obtain ⟨he, hf⟩ : exponentOf v = 255 ∧ fractionOf v = 0 := by simpa [isInf] using h
  rw [magnitude, he, hf, if_neg (by decide)]
  norm_num

/-- What is no NaN and lies between 0 and a finite value is finite. -/
theorem isFinite_of_le {v b : F32} (hn : isNaN v = false) (h0 : 0 ≤ valueOf v) (hb : isFinite b = true)
    (h : valueOf v ≤ valueOf b) : isFinite v = true := by
  refine isFinite_iff.mpr ⟨hn, Bool.eq_false_iff.mpr fun hi => ?_⟩
  have hv := valueOf_eq_magnitude h0
  rw [magnitude_of_isInf hi] at hv
  have := (abs_le.mp (abs_valueOf_le hb)).2
  omega

/-! ### Comparisons of finite values (R14) -/

theorem flt_iff {a b : F32} (ha : isFinite a = true) (hb : isFinite b = true) :
    flt a b = true ↔ valueOf a < valueOf b := by
  simp [flt, isNaN_of_isFinite, ha, hb]

theorem fle_iff {a b : F32} (ha : isFinite a = true) (hb : isFinite b = true) :
    fle a b = true ↔ valueOf a ≤ valueOf b := by
  simp [fle, isNaN_of_isFinite, ha, hb]

theorem rateOk_iff {fs : F32} : rateOk fs ↔ isFinite fs = true ∧ 0 < valueOf fs := by
  refine and_congr_right fun hfs => ?_
  rw [fgt, flt_iff isFinite_fZERO hfs, valueOf_fZERO]

theorem inHalfOpen_iff {x bound : F32} (hb : isFinite bound = true) :
    inHalfOpen x bound ↔ isFinite x = true ∧ 0 ≤ valueOf x ∧ valueOf x < valueOf bound := by
  constructor
  · rintro ⟨h0, hlt⟩
    obtain ⟨⟨hn, -⟩, hlt⟩ : (isNaN x = false ∧ isNaN bound = false) ∧ valueOf x < valueOf bound := by
      simpa [flt] using hlt
    have h0 : 0 ≤ valueOf x := by
      have := (by simpa [fge, fle] using h0 : _ ∧ valueOf fZERO ≤ valueOf x).2
      rwa [valueOf_fZERO] at this
    exact ⟨isFinite_of_le hn h0 hb hlt.le, h0, hlt⟩
  · rintro ⟨hx, h0, hlt⟩
    exact ⟨(fle_iff isFinite_fZERO hx).mpr (by rwa [valueOf_fZERO]), (flt_iff hx hb).mpr hlt⟩

theorem inHalfOpen_fZERO {bound : F32} (hb : isFinite bound = true) (hpos : 0 < valueOf bound) :
    inHalfOpen fZERO bound :=
  (inHalfOpen_iff hb).mpr ⟨isFinite_fZERO, valueOf_fZERO.ge, by rwa [valueOf_fZERO]⟩

/-! ## Bounds through rounding -/

/-- A result lies between any two finite values that the exact one lies between, and so is finite. -/
theorem roundsTo_between {r lo hi : F32} {num den : Int} (hr : roundsTo r num den) (hd : 0 < den)
    (hlof : isFinite lo = true) (hhif : isFinite hi = true) (hlo : valueOf lo * den ≤ num)
    (hhi : num ≤ valueOf hi * den) : isFinite r = true ∧ valueOf lo ≤ valueOf r ∧ valueOf r ≤ valueOf hi := by
  have hmin := (abs_le.mp (abs_valueOf_le hlof)).1
  have hmax := (abs_le.mp (abs_valueOf_le hhif)).2
  have hsmall : |num| < overflowUnits * |den| := by
    rw [abs_of_pos hd, abs_lt, overflowUnits]
    constructor <;> nlinarith
  obtain ⟨hfin, hnear⟩ := hr.1 hsmall
  refine ⟨hfin, ?_, ?_⟩
  · by_contra hc
    have hlt : valueOf r * den < valueOf lo * den := mul_lt_mul_of_pos_right (not_le.mp hc) hd
    have := (hnear lo hlof).1
    rw [abs_of_nonpos (by omega), abs_of_nonpos (by omega)] at this
    omega
  · by_contra hc
    have hlt : valueOf hi * den < valueOf r * den := mul_lt_mul_of_pos_right (not_le.mp hc) hd
    have := (hnear hi hhif).1
    rw [abs_of_nonneg (by omega), abs_of_nonneg (by omega)] at this
    omega

/-- A value that is not negative rounds to one that is not, also to an infinity. -/
theorem roundsTo_nonneg {r : F32} {num den : Int} (hr : roundsTo r num den) (hd : 0 < den) (hnum : 0 ≤ num) :
    0 ≤ valueOf r := by
  rcases lt_or_ge |num| (overflowUnits * |den|) with hsmall | hbig
  · have hnear := ((hr.1 hsmall).2 fZERO isFinite_fZERO).1
    rw [valueOf_fZERO, zero_mul, zero_sub, abs_neg, abs_of_nonneg hnum] at hnear
    by_contra hc
    have hneg : valueOf r * den < 0 := mul_neg_of_neg_of_pos (not_le.mp hc) hd
    rw [abs_of_nonpos (by omega)] at hnear
    omega
  · have hsign : ¬signOf r = true := fun hs => absurd ((hr.2 hbig).2.mp hs) (mul_nonneg hnum hd.le).not_gt
    rw [valueOf, if_neg hsign]
    exact Int.natCast_nonneg _

/-- Twice a magnitude has an encoding. -/
theorem exists_magBits_double (b : Nat) : ∃ c, magBits c = 2 * magBits b := by
  obtain ⟨e, f, hf, rfl⟩ : ∃ e f, f < 2 ^ 23 ∧ b = e * 2 ^ 23 + f :=
    ⟨b / 2 ^ 23, b % 2 ^ 23, Nat.mod_lt _ (by decide), by omega⟩
  cases e with
  | zero =>
    refine ⟨0 * 2 ^ 23 + 2 * f, ?_⟩
    rw [magBits_scaled (.inl ⟨rfl, by omega⟩), magBits_of_fields hf, if_pos rfl, pow_zero, Nat.mul_one]
  | succ e =>
    refine ⟨(e + 2) * 2 ^ 23 + f, ?_⟩
    rw [magBits_of_fields hf, magBits_of_fields hf, if_neg (by omega), if_neg (by omega),
      show e + 2 - 1 = e + 1 by rfl, show e + 1 - 1 = e by rfl, pow_succ]
    ring

/-- Twice a value of the size of a phase is a binary32 value. -/
theorem exists_double {m : F32} (h0 : 0 ≤ valueOf m) (hle : valueOf m ≤ valueOf fRANGE_MAX) :
    ∃ d, isFinite d = true ∧ valueOf d = 2 * valueOf m := by
  obtain ⟨c, hc⟩ := exists_magBits_double (m.toNat % 2 ^ 31)
  rw [← magnitude_eq_magBits] at hc
  have hmax : 0 ≤ valueOf fRANGE_MAX ∧ 2 * magnitude fRANGE_MAX < magBits infinityBits := by decide +kernel
  rw [valueOf_eq_magnitude h0, valueOf_eq_magnitude hmax.1, Nat.cast_le] at hle
  have hlt : c < infinityBits :=
    magBits_strictMono.lt_iff_lt.mp (hc ▸ (Nat.mul_le_mul_left 2 hle).trans_lt hmax.2)
  refine ⟨pack false c, by rw [isFinite_pack hlt.le]; exact decide_eq_true hlt, ?_⟩
  rw [valueOf_pack (hlt.trans infinityBits_lt), if_neg Bool.false_ne_true, hc, valueOf_eq_magnitude h0]
  push_cast
  ring

/-! ## The phase accumulator (41_phase_accumulator.md R120 to R123) -/

/-- A range that R125 admits, or the length of a wavetable (R41): finite, above 0, at most 2^24. -/
def rangeOk (r : F32) : Prop := isFinite r = true ∧ fgt r fZERO = true ∧ fle r fRANGE_MAX = true

theorem rangeOk_iff {r : F32} :
    rangeOk r ↔ isFinite r = true ∧ 0 < valueOf r ∧ valueOf r ≤ valueOf fRANGE_MAX := by
  have hmax : isFinite fRANGE_MAX = true := by decide
  refine and_congr_right fun hr => ?_
  rw [fgt, flt_iff isFinite_fZERO hr, valueOf_fZERO, fle_iff hr hmax]

theorem phaseStep_of_fge {phase inc r : F32} (h : fge (fadd phase inc) r = true) :
    phaseStep phase inc r = (fsub (fadd phase inc) r, true) := if_pos h

theorem phaseStep_of_not_fge {phase inc r : F32} (h : ¬fge (fadd phase inc) r = true) :
    phaseStep phase inc r = (fadd phase inc, false) := if_neg h

/-- The source's phase wrap invariant (R123): a sample keeps the phase in its range. The sum is at most twice the
larger operand `m`, which is a binary32 value, so the wrapped phase is at most `m`. -/
theorem phaseStep_inHalfOpen {phase inc r : F32} (hr : rangeOk r) (hphase : inHalfOpen phase r)
    (hinc : inHalfOpen inc r) : inHalfOpen (phaseStep phase inc r).1 r := by
  obtain ⟨hrf, hr0, hrmax⟩ := rangeOk_iff.mp hr
  rw [inHalfOpen_iff hrf] at hphase hinc ⊢
  obtain ⟨m, ⟨hmf, hm0, hmr⟩, hpm, him⟩ : ∃ m, (isFinite m = true ∧ 0 ≤ valueOf m ∧ valueOf m < valueOf r)
      ∧ valueOf phase ≤ valueOf m ∧ valueOf inc ≤ valueOf m := by
    rcases le_total (valueOf phase) (valueOf inc) with h | h
    · exact ⟨inc, hinc, h, le_rfl⟩
    · exact ⟨phase, hphase, le_rfl, h⟩
  obtain ⟨hpf, hp0, -⟩ := hphase
  obtain ⟨hif, hi0, -⟩ := hinc
  obtain ⟨d, hdf, hd⟩ := exists_double hm0 (hmr.le.trans hrmax)
  obtain ⟨hsf, hs0, hsd⟩ := roundsTo_between (roundsTo_fadd hpf hif) one_pos isFinite_fZERO hdf
    (by rw [valueOf_fZERO]; omega) (by omega)
  rw [valueOf_fZERO] at hs0
  by_cases hge : fge (fadd phase inc) r = true
  · rw [phaseStep_of_fge hge]
    have hle := (fle_iff hrf hsf).mp hge
    obtain ⟨hwf, hw0, hwm⟩ := roundsTo_between (roundsTo_fsub hsf hrf) one_pos isFinite_fZERO hmf
      (by rw [valueOf_fZERO]; omega) (by omega)
    rw [valueOf_fZERO] at hw0
    exact ⟨hwf, hw0, hwm.trans_lt hmr⟩
  · rw [phaseStep_of_not_fge hge]
    exact ⟨hsf, hs0, not_le.mp (mt (fle_iff hrf hsf).mpr hge)⟩

/-- An infinity over a finite value is an infinity (log 11). -/
theorem fdiv_of_isInf {a b : F32} (ha : isInf a = true) (hb : isFinite b = true) :
    fdiv a b = infinity (signOf a != signOf b) := by
  have hn : isNaN a = false := by
    have hf : fractionOf a = 0 := (by simpa [isInf] using ha : exponentOf a = 255 ∧ fractionOf a = 0).2
    simp [isNaN, hf]
  simp [fdiv, hn, ha, isNaN_of_isFinite hb, isInf_of_isFinite hb]

/-- An increment that R120 computes is not negative: one that is below the range is in it. -/
theorem incOf_inHalfOpen {r hz fs : F32} (hr : rangeOk r) (hhz : isFinite hz = true) (h0 : 0 ≤ valueOf hz)
    (hfs : rateOk fs) (hlt : flt (incOf r hz fs) r = true) : inHalfOpen (incOf r hz fs) r := by
  obtain ⟨hrf, hr0, -⟩ := rangeOk_iff.mp hr
  obtain ⟨hfsf, hfs0⟩ := rateOk_iff.mp hfs
  have hprod := multiplicationIsNearest r hz hrf hhz
  have hprod0 := roundsTo_nonneg hprod (by positivity) (mul_nonneg hr0.le h0)
  have hinc0 : 0 ≤ valueOf (incOf r hz fs) := by
    by_cases hpf : isFinite (fmul r hz) = true
    · exact roundsTo_nonneg (divisionIsNearest _ fs hpf hfsf hfs0.ne') hfs0 (by positivity)
    · have hbig := not_lt.mp fun hsmall => hpf (hprod.1 hsmall).1
      obtain ⟨hinf, hsign⟩ := hprod.2 hbig
      have hpos : signOf (fmul r hz) = false := by
        rw [Bool.eq_false_iff]
        exact fun hs => absurd (hsign.mp hs) (mul_nonneg (mul_nonneg hr0.le h0) (by positivity)).not_gt
      rw [incOf, fdiv_of_isInf hinf hfsf, hpos, signOf_of_valueOf_pos hfs0]
      decide +kernel
  obtain ⟨⟨hn, -⟩, hltv⟩ : (isNaN (incOf r hz fs) = false ∧ isNaN r = false)
      ∧ valueOf (incOf r hz fs) < valueOf r := by simpa [flt] using hlt
  exact (inHalfOpen_iff hrf).mpr ⟨isFinite_of_le hn hinc0 hrf hltv.le, hinc0, hltv⟩

theorem incOf_fZERO {r fs : F32} (hr : rangeOk r) (hfs : rateOk fs) : incOf r fZERO fs = fZERO := by
  obtain ⟨hrf, hr0, -⟩ := rangeOk_iff.mp hr
  obtain ⟨hfsf, hfs0⟩ := rateOk_iff.mp hfs
  have hzero : magnitude fZERO = 0 ∧ signOf fZERO = false ∧ pack false 0 = fZERO := by decide
  obtain ⟨hmag, hsign, hpack⟩ := hzero
  have hne : magnitude fs ≠ 0 := mt magnitude_eq_zero_iff.mp hfs0.ne'
  rw [incOf, fmul_of_isFinite hrf isFinite_fZERO, hmag, Nat.mul_zero, hsign, signOf_of_valueOf_pos hr0, roundTo,
    roundBits_zero, bne_self_eq_false, hpack, fdiv_of_isFinite isFinite_fZERO hfsf hne, hmag, Nat.zero_mul, hsign,
    signOf_of_valueOf_pos hfs0, roundTo, roundBits_zero, bne_self_eq_false, hpack]

/-- What R121 admits, and the increment it computes. -/
theorem admitFreq_ok_iff {r hz fs inc : F32} :
    admitFreq r hz fs = .ok inc
      ↔ isFinite hz = true ∧ fge hz fZERO = true ∧ flt hz fs = true ∧ flt (incOf r hz fs) r = true
        ∧ incOf r hz fs = inc := by
  simp [admitFreq, bind_ok_iff]

/-! ## The oscillators (10_state.md R40, R41) -/

/-- The length of a legal build's wavetable is a range as R125 admits it. -/
theorem rangeOk_lenF {b : Build} (hb : b.legal = true) : rangeOk (lenF b) := by
  obtain ⟨hlo, hhi⟩ : 4 ≤ b.wtLen ∧ b.wtLen ≤ 65536 := by
    simp only [Build.legal, Bool.and_eq_true, decide_eq_true_eq] at hb
    exact hb.1.1.2
  obtain ⟨hfin, hval⟩ := (toF_spec b.wtLen).2 (by omega)
  have hmax : valueOf fRANGE_MAX = 2 ^ 24 * 2 ^ 149 := by decide +kernel
  rw [rangeOk_iff, lenF, hval, hmax]
  exact ⟨hfin, by positivity, by omega⟩

theorem paInv_paReset {fs : F32} (hfs : rateOk fs) : paInv { paReset with fs := fs } := by
  have hr : rangeOk fONE := by unfold rangeOk; decide +kernel
  have h0 := inHalfOpen_fZERO isFinite_fONE (rangeOk_iff.mp hr).2.1
  obtain ⟨hfsf, hfs0⟩ := rateOk_iff.mp hfs
  exact ⟨hfs, hr, ⟨isFinite_fZERO, inHalfOpen_fZERO hfsf hfs0⟩, ⟨(incOf_fZERO hr hfs).symm, h0⟩, h0⟩

/-- A range that R125 admits, with the increment it checks; the phase is zeroed. -/
theorem paInv_setRange {u : PaInst} (hu : paInv u) {r : F32} (hr : rangeOk r)
    (hlt : flt (incOf r u.freq u.fs) r = true) :
    paInv { u with range := r, inc := incOf r u.freq u.fs, phase := fZERO } := by
  obtain ⟨hfs, -, ⟨hff, hfreq⟩, -, -⟩ := hu
  obtain ⟨hrf, hr0, -⟩ := rangeOk_iff.mp hr
  obtain ⟨-, hf0, -⟩ := (inHalfOpen_iff hfs.1).mp hfreq
  exact ⟨hfs, hr, ⟨hff, hfreq⟩, ⟨rfl, incOf_inHalfOpen hr hff hf0 hfs hlt⟩, inHalfOpen_fZERO hrf hr0⟩

/-- What R121 admits is in range. -/
theorem admitFreq_inHalfOpen {r hz fs inc : F32} (hr : rangeOk r) (hfs : rateOk fs)
    (h : admitFreq r hz fs = .ok inc) :
    (isFinite hz = true ∧ inHalfOpen hz fs) ∧ inc = incOf r hz fs ∧ inHalfOpen inc r := by
  obtain ⟨hzf, h0, hltfs, hltr, rfl⟩ := admitFreq_ok_iff.mp h
  have hhz : inHalfOpen hz fs := ⟨h0, hltfs⟩
  obtain ⟨-, hz0, -⟩ := (inHalfOpen_iff hfs.1).mp hhz
  exact ⟨⟨hzf, hhz⟩, rfl, incOf_inHalfOpen hr hzf hz0 hfs hltr⟩

theorem paInv_setFreq {u : PaInst} (hu : paInv u) {hz inc : F32} (h : admitFreq u.range hz u.fs = .ok inc) :
    paInv { u with freq := hz, inc := inc } := by
  obtain ⟨hfs, hr, -, -, hphase⟩ := hu
  obtain ⟨hhz, hinc⟩ := admitFreq_inHalfOpen hr hfs h
  exact ⟨hfs, hr, hhz, hinc, hphase⟩

theorem paInv_process {u : PaInst} (hu : paInv u) :
    paInv { u with phase := (phaseStep u.phase u.inc u.range).1 } := by
  obtain ⟨hfs, hr, hfreq, hinc, hphase⟩ := hu
  exact ⟨hfs, hr, hfreq, hinc, phaseStep_inHalfOpen hr hphase hinc.2⟩

section
variable {b : Build}

theorem wtInv_wtReset (hb : b.legal = true) {fs : F32} (hfs : rateOk fs) : wtInv b { wtReset with fs := fs } := by
  have hr := rangeOk_lenF hb
  obtain ⟨hrf, hr0, -⟩ := rangeOk_iff.mp hr
  have h0 := inHalfOpen_fZERO hrf hr0
  obtain ⟨hfsf, hfs0⟩ := rateOk_iff.mp hfs
  exact ⟨hfs, ⟨isFinite_fZERO, inHalfOpen_fZERO hfsf hfs0⟩, ⟨(incOf_fZERO hr hfs).symm, h0⟩, h0, isFinite_fZERO⟩

theorem wtInv_setFreq (hb : b.legal = true) {u : WtInst} (hu : wtInv b u) {hz inc : F32}
    (h : admitFreq (lenF b) hz u.fs = .ok inc) : wtInv b { u with freq := hz, inc := inc } := by
  obtain ⟨hfs, -, -, hrest⟩ := hu
  obtain ⟨hhz, hinc⟩ := admitFreq_inHalfOpen (rangeOk_lenF hb) hfs h
  exact ⟨hfs, hhz, hinc, hrest⟩

theorem wtInv_setAmp {u : WtInst} (hu : wtInv b u) {g : F32} (hg : isFinite g = true) :
    wtInv b { u with amp := g } := by
  obtain ⟨hfs, hfreq, hinc, hphase, -⟩ := hu
  exact ⟨hfs, hfreq, hinc, hphase, hg⟩

theorem wtInv_setPhase {u : WtInst} (hu : wtInv b u) {p : F32} (hp : inHalfOpen p (lenF b)) :
    wtInv b { u with phase := p } := by
  obtain ⟨hfs, hfreq, hinc, -, hamp⟩ := hu
  exact ⟨hfs, hfreq, hinc, hp, hamp⟩

theorem wtInv_process (hb : b.legal = true) {u : WtInst} (hu : wtInv b u) :
    wtInv b { u with phase := (phaseStep u.phase u.inc (lenF b)).1 } := by
  obtain ⟨-, -, ⟨-, hinc⟩, hphase, -⟩ := id hu
  exact wtInv_setPhase hu (phaseStep_inHalfOpen (rangeOk_lenF hb) hphase hinc)

end

section
variable {s t : State}

/-- The oscillators' invariants look at the build and the PA and WT instances alone. -/
theorem oscillatorInv_congr (hbuild : t.build = s.build) (hpa : ∀ j, paAt t j = paAt s j)
    (hwt : ∀ j, wtAt t j = wtAt s j) : oscillatorInv t ↔ oscillatorInv s := by
  simp only [oscillatorInv, hbuild, hpa, hwt]

theorem oscillatorInv_accept : oscillatorInv (accept s) ↔ oscillatorInv s :=
  oscillatorInv_congr rfl (fun _ => rfl) fun _ => rfl

theorem oscillatorInv_reject {c : Code} : oscillatorInv (reject c s) ↔ oscillatorInv s :=
  oscillatorInv_congr rfl (fun _ => rfl) fun _ => rfl

theorem oscillatorInv_setRes {n : Fin 4} {w : Word} : oscillatorInv (setRes s n w) ↔ oscillatorInv s :=
  oscillatorInv_congr rfl (fun _ => rfl) fun _ => rfl

theorem oscillatorInv_setPa (hs : oscillatorInv s) {k : Inst} {u : PaInst} (hu : paInv u) :
    oscillatorInv (setPa s k u) := by
  refine ⟨fun j => ?_, hs.2⟩
  rw [paAt_setPa]
  split
  · exact hu
  · exact hs.1 j

theorem oscillatorInv_setWt (hs : oscillatorInv s) {k : Inst} {u : WtInst} (hu : wtInv s.build u) :
    oscillatorInv (setWt s k u) := by
  refine ⟨hs.1, fun j => ?_⟩
  rw [wtAt_setWt]
  split
  · exact hu
  · exact hs.2 j

theorem oscillatorInv_resetBlock (hb : s.build.legal = true) : oscillatorInv (resetBlock s) := by
  have hfs : rateOk fFS_RESET := by unfold rateOk; decide
  refine ⟨fun k => ?_, fun k => ?_⟩
  · rw [paAt_resetBlock]; exact paInv_paReset hfs
  · rw [wtAt_resetBlock]; exact wtInv_wtReset hb hfs

theorem finish_keeps_oscillators {r : Except Code State} (hs : oscillatorInv s) (hr : Ensures oscillatorInv r)
    (h : finish s r = .next t) : oscillatorInv t :=
  finish_keeps (fun _ => oscillatorInv_accept.mpr) (fun _ => oscillatorInv_reject.mpr hs) hr h

/-- No command changes the build. -/
theorem exec_build {i : Instr} (h : exec i s = .next t) : t.build = s.build := by
  by_cases hi : i = .softReset
  · subst hi
    obtain rfl := Host.Outcome.next.inj ((exec_softReset s).symm.trans h)
    rfl
  · rcases exec_answers i hi h with ⟨c, rfl⟩ | ⟨u, hu, rfl⟩
    · rfl
    · exact hu.build

/-- A PA, WT or TT instance is left alone by a command that only observes, and by one that does not address it. -/
theorem exec_untouched {i : Instr} (hi : i ≠ .softReset) (h : exec i s = .next t) (j : Inst) :
    ((observesOnly i = true ∨ i.address ≠ (.pa, some j)) → paAt t j = paAt s j)
      ∧ ((observesOnly i = true ∨ i.address ≠ (.wt, some j)) → wtAt t j = wtAt s j)
      ∧ ((observesOnly i = true ∨ i.address ≠ (.tt, some j)) → ttAt t j = ttAt s j) := by
  by_cases ho : observesOnly i = true
  · rw [observersChangeOnlyResults i s t ho h]
    exact ⟨fun _ => rfl, fun _ => rfl, fun _ => rfl⟩
  · obtain ⟨hpa, hwt, -, -, -, htt, -⟩ := commandsTouchOnlyTheirInstance i s t hi h
    rw [or_iff_right ho, or_iff_right ho, or_iff_right ho]
    exact ⟨not_imp_comm.mp (hpa j), not_imp_comm.mp (hwt j), not_imp_comm.mp (htt j)⟩

/-- Every command keeps the oscillators: PA and WT commands by what they write into their instance, every other
because it leaves the instances alone. -/
theorem exec_keeps_oscillators (i : Instr) (hb : s.build.legal = true) (hs : oscillatorInv s)
    (h : exec i s = .next t) : oscillatorInv t := by
  obtain ⟨hpa, hwt⟩ := id hs
  cases i with
  | paInit k =>
    refine finish_keeps_oscillators hs ?_ h
    simp only [ensures_instanced, ensures_bind, needFs_ok_iff, pure_eq_ok, ensures_ok]
    exact fun _ _ hfs => oscillatorInv_setPa hs (paInv_paReset hfs)
  | paSetRange k =>
    refine finish_keeps_oscillators hs ?_ h
    simp only [ensures_instanced, ensures_bind, needFinite_ok_iff, needOperand_ok_iff, pure_eq_ok, ensures_ok]
    exact fun _ _ hf _ hpos _ hmax _ hinc => oscillatorInv_setPa hs (paInv_setRange (hpa k) ⟨hf, hpos, hmax⟩ hinc)
  | paSetFreq k =>
    refine finish_keeps_oscillators hs ?_ h
    simp only [ensures_instanced, ensures_bind, pure_eq_ok, ensures_ok]
    exact fun _ _ hadmit => oscillatorInv_setPa hs (paInv_setFreq (hpa k) hadmit)
  | paProcess k =>
    refine finish_keeps_oscillators hs ?_ h
    simp only [ensures_instanced, pure_eq_ok, ensures_ok, oscillatorInv_setRes]
    exact fun _ => oscillatorInv_setPa hs (paInv_process (hpa k))
  | wtInit k =>
    refine finish_keeps_oscillators hs ?_ h
    simp only [ensures_instanced, ensures_bind, needFs_ok_iff, pure_eq_ok, ensures_ok]
    exact fun _ _ hfs => oscillatorInv_setWt hs (wtInv_wtReset hb hfs)
  | wtSetFreq k =>
    refine finish_keeps_oscillators hs ?_ h
    simp only [ensures_instanced, ensures_bind, pure_eq_ok, ensures_ok]
    exact fun _ _ hadmit => oscillatorInv_setWt hs (wtInv_setFreq hb (hwt k) hadmit)
  | wtSetAmp k =>
    refine finish_keeps_oscillators hs ?_ h
    simp only [ensures_instanced, ensures_bind, needFinite_ok_iff, pure_eq_ok, ensures_ok]
    exact fun _ _ hg => oscillatorInv_setWt hs (wtInv_setAmp (hwt k) hg)
  | wtSetInterp k =>
    refine finish_keeps_oscillators hs ?_ h
    simp only [ensures_instanced, ensures_bind, pure_eq_ok, ensures_ok]
    exact fun _ _ _ => oscillatorInv_setWt hs (hwt k)
  | wtProcess k =>
    refine finish_keeps_oscillators hs ?_ h
    simp only [ensures_instanced, pure_eq_ok, ensures_ok, oscillatorInv_setRes]
    exact fun _ => oscillatorInv_setWt hs (wtInv_process hb (hwt k))
  | softReset =>
    obtain rfl := Host.Outcome.next.inj ((exec_softReset s).symm.trans h)
    exact oscillatorInv_accept.mpr (oscillatorInv_resetBlock hb)
  | _ =>
    refine (oscillatorInv_congr (exec_build h) (fun j => ?_) fun j => ?_).mpr hs
    · obtain ⟨hkept, -, -⟩ := exec_untouched (by simp) h j
      exact hkept (by simp [observesOnly, Instr.address])
    · obtain ⟨-, hkept, -⟩ := exec_untouched (by simp) h j
      exact hkept (by simp [observesOnly, Instr.address])

end

/-- Settles O22: `step_keeps` for the oscillators' invariants in a legal build; a sample keeps its phase in range by
`phaseStep_inHalfOpen`. -/
theorem stepKeepsPhasesInRange : Obligations.StepKeepsPhasesInRange := by
  intro s t hb hs h
  refine step_keeps (P := fun s => s.build.legal = true ∧ oscillatorInv s) ?_ ?_ ?_ ?_ ?_ ⟨hb, hs⟩ h
  · exact fun _ _ _ hs => hs
  · exact fun _ _ _ hs => hs
  · exact fun _ _ hs => hs
  · exact fun _ ⟨hb, _⟩ => ⟨hb, oscillatorInv_resetBlock hb⟩
  · exact fun i _ _ ⟨hb, hs⟩ h => ⟨(congrArg Build.legal (exec_build h)).trans hb, exec_keeps_oscillators i hb hs h⟩

end Sys2Proof.Machine
end

section
/-! # The timers (10_state.md R45; 46_trigger_timer.md R214 to R217): counter, step and ramp stay in range -/

namespace Sys2Proof.Machine

/-! ## The step: 2 over the duration -/

@[simp] theorem zext_toNat (w : Word) : zext w.toNat = w := by simp [zext]

theorem toNat_zext {n : Nat} (h : n < 2 ^ 32) : (zext n).toNat = n := by
  rw [zext, BitVec.toNat_ofNat, Nat.mod_eq_of_lt h]

/-- A count of samples that is not 0 converts to a finite value of at least 1 (R15). -/
theorem toF_word {d : Word} (hd : d ≠ 0) : isFinite (toF d.toNat) = true ∧ 2 ^ 149 ≤ valueOf (toF d.toNat) := by
  have hmax : isFinite fTWO32 = true ∧ valueOf fTWO32 = 2 ^ 32 * 2 ^ 149 := by decide +kernel
  have hpos : 0 < d.toNat := Nat.pos_of_ne_zero fun h => hd (BitVec.eq_of_toNat_eq h)
  have hlt : d.toNat < 2 ^ 32 := d.isLt
  obtain ⟨hfin, hlo, -⟩ := roundsTo_between (toF_spec d.toNat).1 one_pos isFinite_fONE hmax.1
    (by rw [valueOf_fONE]; omega) (by rw [hmax.2]; omega)
  exact ⟨hfin, valueOf_fONE ▸ hlo⟩

/-- The step that goes with a duration (R45). -/
def stepOf (duration : Word) : F32 := if duration = 0 then fZERO else fdiv fTWO (toF duration.toNat)

/-- A timer's step is finite and not negative. -/
theorem stepOf_bounds (d : Word) :
    isFinite (stepOf d) = true ∧ 0 ≤ valueOf (stepOf d) ∧ valueOf (stepOf d) ≤ 2 * 2 ^ 149 := by
  unfold stepOf
  split
  · rw [valueOf_fZERO]
    exact ⟨isFinite_fZERO, le_rfl, by positivity⟩
  · next hd =>
    obtain ⟨hfin, hone⟩ := toF_word hd
    have hpos : 0 < valueOf (toF d.toNat) := by omega
    obtain ⟨hq, hlo, hhi⟩ := roundsTo_between (divisionIsNearest fTWO _ isFinite_fTWO hfin hpos.ne') hpos
      isFinite_fZERO isFinite_fTWO (by rw [valueOf_fZERO, valueOf_fTWO]; omega) (by rw [valueOf_fTWO]; omega)
    exact ⟨hq, valueOf_fZERO ▸ hlo, valueOf_fTWO ▸ hhi⟩

/-! ## The ramp: in [0, 1] -/

/-- The range of a timer's ramp (R45). -/
def inUnit (x : F32) : Prop := fge x fZERO = true ∧ fle x fONE = true

theorem inUnit_iff {x : F32} : inUnit x ↔ isFinite x = true ∧ 0 ≤ valueOf x ∧ valueOf x ≤ 2 ^ 149 := by
  constructor
  · rintro ⟨h0, h1⟩
    obtain ⟨⟨-, hn⟩, h0⟩ : (isNaN fZERO = false ∧ isNaN x = false) ∧ valueOf fZERO ≤ valueOf x := by
      simpa [fge, fle] using h0
    obtain ⟨-, h1⟩ : (isNaN x = false ∧ isNaN fONE = false) ∧ valueOf x ≤ valueOf fONE := by simpa [fle] using h1
    rw [valueOf_fZERO] at h0
    exact ⟨isFinite_of_le hn h0 isFinite_fONE h1, h0, valueOf_fONE ▸ h1⟩
  · rintro ⟨hx, h0, h1⟩
    exact ⟨(fle_iff isFinite_fZERO hx).mpr (by rwa [valueOf_fZERO]),
      (fle_iff hx isFinite_fONE).mpr (by rwa [valueOf_fONE])⟩

theorem inUnit_fZERO : inUnit fZERO := by unfold inUnit; decide
theorem inUnit_fONE : inUnit fONE := by unfold inUnit; decide +kernel

/-- A value that is not negative, cut off at a value in [0, 1]. -/
theorem inUnit_fmin {a b : F32} (ha : isFinite a = true) (h0 : 0 ≤ valueOf a) (hb : inUnit b) : inUnit (fmin a b) := by
  unfold fmin
  split
  · next hlt =>
    obtain ⟨hbf, -, hb1⟩ := inUnit_iff.mp hb
    exact inUnit_iff.mpr ⟨ha, h0, ((flt_iff ha hbf).mp hlt).le.trans hb1⟩
  · exact hb

/-- A value of at most 1, cut off from below at a value in [0, 1]. -/
theorem inUnit_fmax {a b : F32} (ha : isFinite a = true) (h1 : valueOf a ≤ 2 ^ 149) (hb : inUnit b) :
    inUnit (fmax a b) := by
  unfold fmax
  split
  · next hgt =>
    obtain ⟨hbf, hb0, -⟩ := inUnit_iff.mp hb
    exact inUnit_iff.mpr ⟨ha, hb0.trans ((flt_iff hbf ha).mp hgt).le, h1⟩
  · exact hb

/-- The ramp moves towards its target and stays in [0, 1] (R217). -/
theorem inUnit_track {ramp target : F32} (hramp : inUnit ramp) (htarget : inUnit target) (d : Word) :
    inUnit (track ramp target (stepOf d)) := by
  have hfive : isFinite fFIVE = true ∧ valueOf fFIVE = 5 * 2 ^ 149 := by decide +kernel
  obtain ⟨hf, h0, h1⟩ := inUnit_iff.mp hramp
  obtain ⟨hsf, hs0, hs2⟩ := stepOf_bounds d
  unfold track
  split
  · obtain ⟨hsum, hsum0, -⟩ := roundsTo_between (roundsTo_fadd hf hsf) one_pos isFinite_fZERO hfive.1
      (by rw [valueOf_fZERO]; omega) (by rw [hfive.2]; omega)
    exact inUnit_fmin hsum (valueOf_fZERO ▸ hsum0) htarget
  · split
    · obtain ⟨hdiff, -, hle⟩ := roundsTo_between (roundsTo_fsub hf hsf) one_pos (isFinite_fneg isFinite_fTWO) hf
        (by rw [valueOf_fneg, valueOf_fTWO]; omega) (by omega)
      exact inUnit_fmax hdiff (hle.trans h1) htarget
    · exact hramp

/-! ## The counter: below 2^32 - 1 -/

/-- A counter that does not reach the interval stays below it, and one that does restarts (R216). -/
theorem advance_le (u : TtInst) : (advance u).1 ≤ 2 ^ 32 - 2 := by
  have hinterval : u.interval.toNat < 2 ^ 32 := u.interval.isLt
  simp only [advance]
  split
  · exact Nat.zero_le _
  · next h => omega

/-! ## What each command writes -/

theorem ttInv_iff {u : TtInst} :
    ttInv u ↔ rateOk u.fs ∧ u.step = stepOf u.duration ∧ u.counter.toNat ≤ 2 ^ 32 - 2 ∧ inUnit u.ramp := Iff.rfl

theorem ttInv_ttReset {fs : F32} (hfs : rateOk fs) : ttInv { ttReset with fs := fs } :=
  ttInv_iff.mpr ⟨hfs, rfl, Nat.zero_le _, inUnit_fZERO⟩

section
variable {u : TtInst} (hu : ttInv u)
include hu

theorem ttInv_setInterval {n : Word} : ttInv { u with interval := n } := hu

/-- A duration that R214 admits, with its step. -/
theorem ttInv_setDuration {d : Word} (hd : 1 ≤ d.toNat) :
    ttInv { u with duration := d, step := fdiv fTWO (toF d.toNat) } := by
  obtain ⟨hfs, -, hcounter, hramp⟩ := ttInv_iff.mp hu
  have hne : d ≠ 0 := by rintro rfl; exact absurd hd (by decide)
  exact ttInv_iff.mpr ⟨hfs, (if_neg hne).symm, hcounter, hramp⟩

theorem ttInv_setMode {m : TtMode} {st : TtState} : ttInv { u with mode := m, state := st, ramp := fZERO } := by
  obtain ⟨hfs, hstep, hcounter, -⟩ := ttInv_iff.mp hu
  exact ttInv_iff.mpr ⟨hfs, hstep, hcounter, inUnit_fZERO⟩

/-- A sample: the counter advances, the ramp tracks (R216, R217). -/
theorem ttInv_sample {st : TtState} {ramp : F32} (hramp : inUnit ramp) :
    ttInv { u with counter := zext (advance u).1, state := st, ramp := ramp } := by
  obtain ⟨hfs, hstep, -, -⟩ := ttInv_iff.mp hu
  have hle := advance_le u
  exact ttInv_iff.mpr ⟨hfs, hstep, by rwa [toNat_zext (by omega)], hramp⟩

theorem ttInv_basicSample : ttInv (basicSample u) := ttInv_sample hu (ttInv_iff.mp hu).2.2.2

theorem ttInv_rampedSample : ttInv (rampedSample u) := by
  obtain ⟨-, hstep, -, hramp⟩ := ttInv_iff.mp hu
  refine ttInv_sample hu ?_
  rw [hstep]
  split
  · exact inUnit_track hramp inUnit_fONE _
  · exact inUnit_track hramp inUnit_fZERO _

end

/-! ## Every command -/

section
variable {s t : State}

/-- The timers' invariants look at the TT instances alone. -/
theorem timerInv_congr (htt : ∀ j, ttAt t j = ttAt s j) : timerInv t ↔ timerInv s := by
  simp only [timerInv, htt]

theorem timerInv_setTt (hs : timerInv s) {k : Inst} {u : TtInst} (hu : ttInv u) : timerInv (setTt s k u) := by
  intro j
  rw [ttAt_setTt]
  split
  · exact hu
  · exact hs j

theorem timerInv_resetBlock (s : State) : timerInv (resetBlock s) := by
  intro k
  rw [ttAt_resetBlock]
  exact ttInv_ttReset (fs := fFS_RESET) (by unfold rateOk; decide)

theorem finish_keeps_timers {r : Except Code State} (hs : timerInv s) (hr : Ensures timerInv r)
    (h : finish s r = .next t) : timerInv t :=
  finish_keeps (fun _ hu => hu) (fun _ => hs) hr h

/-- Every command keeps the timers: TT commands by what they write into their instance, every other because it leaves
the instances alone. -/
theorem exec_keeps_timers (i : Instr) (hs : timerInv s) (h : exec i s = .next t) : timerInv t := by
  cases i with
  | ttInit k =>
    refine finish_keeps_timers hs ?_ h
    simp only [ensures_instanced, ensures_bind, needFs_ok_iff, pure_eq_ok, ensures_ok]
    exact fun _ _ hfs => timerInv_setTt hs (ttInv_ttReset hfs)
  | ttSetPeriod k | ttSetBpm k =>
    refine finish_keeps_timers hs ?_ h
    simp only [ensures_instanced, ensures_bind, pure_eq_ok, ensures_ok]
    intros
    exact timerInv_setTt hs (ttInv_setInterval (hs k))
  | ttSetDuration k =>
    refine finish_keeps_timers hs ?_ h
    simp only [ensures_instanced, ensures_bind, needOperand_ok_iff, argU, zext_toNat, pure_eq_ok, ensures_ok]
    exact fun _ _ hd => timerInv_setTt hs (ttInv_setDuration (hs k) (of_decide_eq_true hd))
  | ttSetMode k =>
    refine finish_keeps_timers hs ?_ h
    simp only [ensures_instanced, ensures_bind, pure_eq_ok, ensures_ok]
    exact fun _ _ _ => timerInv_setTt hs (ttInv_setMode (hs k))
  | ttProcess k =>
    refine finish_keeps_timers hs ?_ h
    simp only [ensures_instanced, ensures_bind]
    intro _ _ _ _ _
    split
    · exact ensures_ok.mpr (timerInv_setTt hs (ttInv_basicSample (hs k)))
    · exact ensures_ok.mpr (timerInv_setTt hs (ttInv_rampedSample (hs k)))
  | softReset =>
    obtain rfl := Host.Outcome.next.inj ((exec_softReset s).symm.trans h)
    exact timerInv_resetBlock s
  | _ =>
    refine (timerInv_congr fun j => ?_).mpr hs
    obtain ⟨-, -, hkept⟩ := exec_untouched (by simp) h j
    exact hkept (by simp [observesOnly, Instr.address])

end

/-- Settles O24: `step_keeps` for the timers' invariants. -/
theorem stepKeepsTimersInRange : Obligations.StepKeepsTimersInRange := by
  intro s t hs h
  exact step_keeps (fun _ _ _ hs => hs) (fun _ _ _ hs => hs) (fun _ _ hs => hs) (fun s _ => timerInv_resetBlock s)
    (fun i _ _ hs h => exec_keeps_timers i hs h) hs h

end Sys2Proof.Machine
end

section
/-! # The register window (10_state.md R31 to R36; 20_memory.md R61 to R67), the words that are no command
(30_encoding.md R88), and the state after reset (70_reset_and_hazards.md R250) -/

namespace Sys2Proof.Machine

/-! ## Accesses of a register -/

section
variable {s : State} {rest : List PortEvent} {r : WindowReg}

/-- A read of a register answers its word, and takes the event off the port (R61, R67). -/
theorem step_read_reg (hb : s.build.legal = true) (h : s.pending = .read (regAddress s.build r) 4 :: rest) :
    step s = .next { s with pending := rest, readData := some (readReg s r) } := by
  have hread : readReg (s.takeEvent rest) r = readReg s r := by cases r <;> rfl
  have hadmit : admitAccess (s.takeEvent rest).build (regAddress s.build r) 4 = .ok r :=
    admitAccess_regAddress (base_of_legal hb) r
  rw [step_read h, busRead, hadmit]
  simp only [hread]
  rfl

/-- A write of a register is performed with the event off the port (R61, R65). -/
theorem step_write_reg {w : Word} (hb : s.build.legal = true)
    (h : s.pending = .write (regAddress s.build r) 4 w :: rest) : step s = writeReg (s.takeEvent rest) w r := by
  have hadmit : admitAccess (s.takeEvent rest).build (regAddress s.build r) 4 = .ok r :=
    admitAccess_regAddress (base_of_legal hb) r
  rw [step_write h, busWrite, hadmit]

end

/-- Settles O7: `step_read_reg` at each of R61's registers. -/
theorem readsReturnRegisters : Obligations.ReadsReturnRegisters := by
  intro s rest hb
  have hread (r : WindowReg) : s.pending = .read (regAddress s.build r) 4 :: rest →
      step s = .next { s with pending := rest, readData := some (readReg s r) } := step_read_reg hb
  exact ⟨hread .id, hread .cfg, hread .wtlen, hread .qzmax, hread .status, hread .cmd, hread .reserved18,
    hread .reserved1C, fun n => hread (.arg n), fun n => hread (.res n)⟩

/-- Settles O9: `step_write_reg` at ARGn, and at each register whose write is ignored. -/
theorem registerWrites : Obligations.RegisterWrites := by
  intro s rest w hb
  have hwrite (r : WindowReg) : s.pending = .write (regAddress s.build r) 4 w :: rest →
      step s = writeReg (s.takeEvent rest) w r := step_write_reg hb
  refine ⟨fun n hp => hwrite (.arg n) (by rw [hp, Nat.add_assoc]; rfl), ?_⟩
  simp only [List.forall_mem_cons]
  exact ⟨hwrite .id, hwrite .cfg, hwrite .wtlen, hwrite .qzmax, hwrite .status, hwrite .reserved18, hwrite .reserved1C,
    hwrite (.res 0), hwrite (.res 1), hwrite (.res 2), hwrite (.res 3), by simp⟩

/-! ## Words that are no command (R88) -/

theorem toNat_extractLsb' {n : Nat} (w : BitVec n) (start len : Nat) :
    (w.extractLsb' start len).toNat = w.toNat / 2 ^ start % 2 ^ len := by
  rw [BitVec.extractLsb'_toNat, Nat.shiftRight_eq_div_pow]

/-- The UNITs that are reserved, and for each other UNIT the OPCs it has no row for (R88). -/
def Unlisted (unit opc : Nat) : Prop :=
  (6 ≤ unit ∧ unit ≤ 14) ∨ (unit = 0 ∧ 0x06 ≤ opc) ∨ (unit = 1 ∧ 0x09 ≤ opc) ∨ (unit = 2 ∧ 0x07 ≤ opc)
    ∨ (unit = 3 ∧ 0x06 ≤ opc) ∨ (unit = 4 ∧ 0x09 ≤ opc) ∨ (unit = 5 ∧ 0x08 ≤ opc) ∨ (unit = 15 ∧ 0x04 ≤ opc)

/-- R88's list, in the fields that `decode` reads. -/
theorem illegalWord_iff {w : Word} :
    illegalWord w ↔ reservedField w ≠ 0 ∨ Unlisted (unitField w) (opcField w)
      ∨ (instField w ≠ 0 ∧ ((unitField w = 1 ∧ (opcField w = 0x07 ∨ opcField w = 0x08)) ∨ unitField w = 15)) := by
  have hres : (w.extractLsb' 16 16).toNat = reservedField w := by
    rw [toNat_extractLsb', reservedField]
    omega
  have hunit : (w.extractLsb' 8 4).toNat = unitField w := toNat_extractLsb' w 8 4
  have hopc : (w.extractLsb' 0 8).toNat = opcField w := by
    rw [toNat_extractLsb', opcField]
    omega
  have hinst : (w.extractLsb' 12 4).toNat ≠ 0 ↔ instField w ≠ 0 := by
    rw [← BitVec.toNat_inj.ne, toNat_extractLsb', instField, BitVec.toNat_ofNat]
    rfl
  simp only [illegalWord, hres, hunit, hopc, hinst, Unlisted, or_assoc]

theorem rowOf_of_unlisted {unit opc : Nat} (h : Unlisted unit opc) : rowOf unit opc = none := by
  rcases h with ⟨hlo, hhi⟩ | ⟨rfl, h⟩ | ⟨rfl, h⟩ | ⟨rfl, h⟩ | ⟨rfl, h⟩ | ⟨rfl, h⟩ | ⟨rfl, h⟩ | ⟨rfl, h⟩
  · interval_cases unit <;> rfl
  all_goals
    obtain ⟨n, rfl⟩ := Nat.exists_eq_add_of_le' h
    rfl

theorem decode_of_reserved {w : Word} (h : reservedField w ≠ 0) : decode w = .error .reservedBits := if_pos h

theorem decode_of_unlisted {w : Word} (h0 : reservedField w = 0) (h : Unlisted (unitField w) (opcField w)) :
    decode w = .error .unlisted := by
  rw [decode, if_neg (not_not.mpr h0), rowOf_of_unlisted h]

theorem decode_of_blockWide {w : Word} {i : Instr} (h0 : reservedField w = 0)
    (h : rowOf (unitField w) (opcField w) = some (.blockWide i)) (hinst : instField w ≠ 0) :
    decode w = .error .instNotZero := by
  rw [decode, if_neg (not_not.mpr h0), h]
  exact if_pos hinst

/-- The rows whose INST must be 0: those of CORE, and the two of the wavetable. -/
theorem rowOf_blockWide {unit opc : Nat}
    (h : (unit = 1 ∧ (opc = 0x07 ∨ opc = 0x08)) ∨ (unit = 15 ∧ opc < 0x04)) :
    ∃ i, rowOf unit opc = some (.blockWide i) := by
  rcases h with ⟨rfl, rfl | rfl⟩ | ⟨rfl, h⟩
  · exact ⟨_, rfl⟩
  · exact ⟨_, rfl⟩
  · interval_cases opc <;> exact ⟨_, rfl⟩

/-- An illegal word does not decode. -/
theorem decode_of_illegalWord {w : Word} (h : illegalWord w) : ∃ e, decode w = .error e := by
  by_cases h0 : reservedField w = 0
  · by_cases hu : Unlisted (unitField w) (opcField w)
    · exact ⟨_, decode_of_unlisted h0 hu⟩
    · rcases illegalWord_iff.mp h with hr | hu' | ⟨hinst, hzero⟩
      · exact absurd h0 hr
      · exact absurd hu' hu
      · unfold Unlisted at hu
        obtain ⟨i, hi⟩ := rowOf_blockWide (unit := unitField w) (opc := opcField w) (by omega)
        exact ⟨_, decode_of_blockWide h0 hi hinst⟩
  · exact ⟨_, decode_of_reserved h0⟩

theorem executeWord_of_decode {w : Word} {i : Instr} (h : decode w = .ok i) (s : State) :
    executeWord w s = exec i s := by
  rw [executeWord, h]

theorem executeWord_of_illegalWord {w : Word} (h : illegalWord w) (s : State) :
    executeWord w s = .next (reject .illegal s) := by
  obtain ⟨e, he⟩ := decode_of_illegalWord h
  rw [executeWord, he]

/-! ## A write of CMD -/

theorem tableWord_toNat (w : Word) : tableWord 32 w.toNat = w := by
  rw [tableWord, Nat.mod_eq_of_lt w.isLt, BitVec.ofNat_toNat, BitVec.setWidth_eq]

/-- The step from `withFetchWord` executes the word, with what was pending still pending (log 1). -/
theorem step_withFetchWord {s : State} (hb : s.build.legal = true) (w : Word) :
    step (s.withFetchWord 32 w.toNat) = executeWord w { s with readData := none } := by
  have hp : (s.withFetchWord 32 w.toNat).pending = .write (regAddress s.build .cmd) 4 w :: s.pending := by
    rw [State.withFetchWord, tableWord_toNat, swEvent]
  exact step_write_reg (s := s.withFetchWord 32 w.toNat) hb hp

/-- Settles O6: `step_write_reg` at CMD, then what `decode` says of the word. -/
theorem stepRunsDecodedCommand : Obligations.StepRunsDecodedCommand := by
  intro s rest w hb
  refine ⟨fun hp => ?_, step_withFetchWord hb w,
    fun i hi => (step_withFetchWord hb w).trans (executeWord_of_decode hi _)⟩
  have hstep : step s = executeWord w (s.takeEvent rest) := step_write_reg (r := .cmd) hb hp
  exact ⟨hstep, fun i hi => hstep.trans (executeWord_of_decode hi _),
    fun hw => hstep.trans (executeWord_of_illegalWord hw _)⟩

/-! ## The layouts of the read-only words (R32, R33) -/

theorem toNat_statusWord (st : Status) :
    (statusWord st).toNat = (if st.err then 1 else 0) + (if st.lastRej then 2 else 0) + st.firstCode.toNat * 256
      + st.lastCode.toNat * 65536 := by
  have hfirst : st.firstCode.toNat < 256 := st.firstCode.isLt
  have hlast : st.lastCode.toNat < 256 := st.lastCode.isLt
  rw [statusWord, BitVec.toNat_ofNat]
  split <;> split <;> omega

theorem statusWord_fields (st : Status) :
    (statusWord st).extractLsb' 0 1 = BitVec.ofBool st.err ∧ (statusWord st).extractLsb' 1 1 = BitVec.ofBool st.lastRej
      ∧ (statusWord st).extractLsb' 2 6 = 0 ∧ (statusWord st).extractLsb' 8 8 = st.firstCode
      ∧ (statusWord st).extractLsb' 16 8 = st.lastCode ∧ (statusWord st).extractLsb' 24 8 = 0 := by
  have hfirst : st.firstCode.toNat < 256 := st.firstCode.isLt
  have hlast : st.lastCode.toNat < 256 := st.lastCode.isLt
  have hbit (b : Bool) : (BitVec.ofBool b).toNat = if b then 1 else 0 := by cases b <;> rfl
  simp only [← BitVec.toNat_inj, toNat_extractLsb', toNat_statusWord, hbit]
  cases st.err <;> cases st.lastRej <;> simp <;> omega

/-- A legal number of instances less one fits the four bits of its field. -/
theorem counts_of_legal {b : Build} (h : b.legal = true) :
    b.nPA - 1 < 16 ∧ b.nWT - 1 < 16 ∧ b.nCR - 1 < 16 ∧ b.nBQ - 1 < 16 ∧ b.nQZ - 1 < 16 ∧ b.nTT - 1 < 16 := by
  simp only [Build.legal, legalCount, Bool.and_eq_true, decide_eq_true_eq] at h
  omega

theorem sizes_of_legal {b : Build} (h : b.legal = true) : b.wtLen ≤ 65536 ∧ b.qzMax ≤ 256 := by
  simp only [Build.legal, Bool.and_eq_true, decide_eq_true_eq] at h
  omega

theorem cfgWord_fields {b : Build} (h : b.legal = true) :
    ((cfgWord b).extractLsb' 0 4).toNat = b.nPA - 1 ∧ ((cfgWord b).extractLsb' 4 4).toNat = b.nWT - 1
      ∧ ((cfgWord b).extractLsb' 8 4).toNat = b.nCR - 1 ∧ ((cfgWord b).extractLsb' 12 4).toNat = b.nBQ - 1
      ∧ ((cfgWord b).extractLsb' 16 4).toNat = b.nQZ - 1 ∧ ((cfgWord b).extractLsb' 20 4).toNat = b.nTT - 1
      ∧ (cfgWord b).extractLsb' 24 8 = 0 := by
  obtain ⟨hpa, hwt, hcr, hbq, hqz, htt⟩ := counts_of_legal h
  simp only [← BitVec.toNat_inj, toNat_extractLsb', cfgWord, BitVec.ofNat_eq_ofNat, BitVec.toNat_ofNat]
  omega

/-- Settles O8: each field of a word is a quotient and a remainder of its number. -/
theorem readOnlyWordLayouts : Obligations.ReadOnlyWordLayouts := by
  refine ⟨statusWord_fields, ⟨rfl, rfl, rfl, rfl, rfl, rfl⟩, fun b hb => ?_⟩
  obtain ⟨hpa, hwt, hcr, hbq, hqz, htt, hzero⟩ := cfgWord_fields hb
  obtain ⟨hlen, hmax⟩ := sizes_of_legal hb
  refine ⟨hpa, hwt, hcr, hbq, hqz, htt, hzero, ?_, ?_⟩ <;> rw [BitVec.toNat_ofNat] <;> omega

/-! ## The state after reset -/

theorem tablesInv_resetOf (b : Build) : tablesInv (State.resetOf b) :=
  ⟨⟨rfl, rfl⟩, fun k => by rw [resetOf_qt]; exact ⟨rfl, rfl⟩⟩

/-- Settles O25: the reset state is one that a reset leaves, so it meets each invariant that a step keeps. -/
theorem resetMeetsInvariants : Obligations.ResetMeetsInvariants := by
  intro b hb
  exact ⟨hb, statusInv_reset, tablesInv_resetOf b, oscillatorInv_resetBlock (s := State.resetOf b) hb,
    settingsInv_resetBlock (State.resetOf b), timerInv_resetBlock (State.resetOf b)⟩

end Sys2Proof.Machine
end

section
/-! # The port's faults (20_memory.md R60 to R62; 60_exceptions.md R237) and the tables' canonical form (R68, R69) -/

namespace Sys2Proof.Machine

/-! ## Accesses the block does not admit -/

/-- The block decodes no address outside its window, of whatever width (R60). -/
theorem admitAccess_outside {b : Build} {addr size : Nat} (h : addr < b.base ∨ b.base + 64 ≤ addr) :
    admitAccess b addr size = .error (.outsideWindow addr) := if_pos h

/-- Inside the window the block admits only aligned 4-byte accesses (R62). -/
theorem admitAccess_misfit {b : Build} {addr size : Nat} (hlo : b.base ≤ addr) (hhi : addr < b.base + 64)
    (h : size ≠ 4 ∨ addr % 4 ≠ 0) : admitAccess b addr size = .error (.busError addr size) := by
  rw [admitAccess, if_neg (by omega), if_pos h]

section
variable {s : State} {rest : List PortEvent} {addr size : Nat} {f : Fault}

theorem step_read_of_not_admitted (he : admitAccess s.build addr size = .error f)
    (h : s.pending = .read addr size :: rest) : step s = .fault f := by
  have he' : admitAccess (s.takeEvent rest).build addr size = .error f := he
  rw [step_read h, busRead, he']

theorem step_write_of_not_admitted {w : Word} (he : admitAccess s.build addr size = .error f)
    (h : s.pending = .write addr size w :: rest) : step s = .fault f := by
  have he' : admitAccess (s.takeEvent rest).build addr size = .error f := he
  rw [step_write h, busWrite, he']

end

/-- Each of the 16 aligned offsets of the window has a register (R61). -/
theorem exists_regOffset_eq {offset : Nat} (hlt : offset < 64) (hmod : offset % 4 = 0) :
    ∃ r, regOffset r = offset := by
  obtain hres | harg | hlow : 0x30 ≤ offset ∨ (0x20 ≤ offset ∧ offset < 0x30) ∨ offset < 0x20 := by omega
  · exact ⟨.res ⟨(offset - 0x30) / 4, by omega⟩, by simp only [regOffset]; omega⟩
  · exact ⟨.arg ⟨(offset - 0x20) / 4, by omega⟩, by simp only [regOffset]; omega⟩
  · obtain rfl | rfl | rfl | rfl | rfl | rfl | rfl | rfl :
        offset = 0x00 ∨ offset = 0x04 ∨ offset = 0x08 ∨ offset = 0x0C ∨ offset = 0x10 ∨ offset = 0x14 ∨ offset = 0x18
          ∨ offset = 0x1C := by omega
    exacts [⟨.id, rfl⟩, ⟨.cfg, rfl⟩, ⟨.wtlen, rfl⟩, ⟨.qzmax, rfl⟩, ⟨.status, rfl⟩, ⟨.cmd, rfl⟩, ⟨.reserved18, rfl⟩,
      ⟨.reserved1C, rfl⟩]

/-- Settles O10: `admitAccess` answers a fault, which is the step's; a legal base is aligned, so an aligned address of
the window has an aligned offset. -/
theorem unadmittedAccessesFault : Obligations.UnadmittedAccessesFault := by
  intro s rest addr size
  refine ⟨fun hlo hhi hmisfit => ?_, fun hout => ?_, fun hb hlo hhi hmod => ?_⟩
  · have he := admitAccess_misfit hlo hhi hmisfit
    exact ⟨step_read_of_not_admitted he, fun _ => step_write_of_not_admitted he⟩
  · have he := admitAccess_outside (size := size) hout
    exact ⟨step_read_of_not_admitted he, fun _ => step_write_of_not_admitted he⟩
  · have hbase := base_of_legal hb
    obtain ⟨r, hr⟩ := exists_regOffset_eq (offset := addr - s.build.base) (by omega) (by omega)
    exact ⟨r, by rw [regAddress, hr]; omega⟩

/-! ## The tables -/

section
variable {s t : State}

/-- The tables' invariant looks at the build and the tables alone. -/
theorem tablesInv_congr (hbuild : t.build = s.build) (hwtab : t.wtab = s.wtab)
    (hqt : ∀ k, bankGet t.qt k = bankGet s.qt k) : tablesInv t ↔ tablesInv s := by
  simp only [tablesInv, hbuild, hwtab, hqt]

theorem tablesInv_setWtab (hs : tablesInv s) {n : Nat} (hn : n < s.build.wtLen) {v : F32} :
    tablesInv (setWtab s n v) := by
  obtain ⟨⟨hwf, hbelow⟩, hqt⟩ := hs
  exact ⟨⟨Memory.wf_write hwf, Memory.below_write hn hbelow⟩, hqt⟩

theorem tablesInv_setQt (hs : tablesInv s) {k : Inst} {n : Nat} (hn : n < s.build.qzMax) {e : QtEntry} :
    tablesInv (setQt s k n e) := by
  obtain ⟨hwtab, hqt⟩ := hs
  refine ⟨hwtab, fun j => ?_⟩
  rw [setQt_qt, bankGet_bankSet]
  split
  · obtain ⟨hwf, hbelow⟩ := hqt k
    exact ⟨Memory.wf_write hwf, Memory.below_write hn hbelow⟩
  · exact hqt j

theorem tablesInv_clearQt (hs : tablesInv s) {k : Inst} : tablesInv (clearQt s k) := by
  obtain ⟨hwtab, hqt⟩ := hs
  refine ⟨hwtab, fun j => ?_⟩
  rw [clearQt_qt, bankGet_bankSet]
  split
  · exact ⟨Memory.wf_nil, Memory.below_nil _⟩
  · exact hqt j

theorem tablesInv_resetBlock (s : State) : tablesInv (resetBlock s) := tablesInv_resetOf s.build

theorem finish_keeps_tables {r : Except Code State} (hs : tablesInv s) (hr : Ensures tablesInv r)
    (h : finish s r = .next t) : tablesInv t :=
  finish_keeps (fun _ hu => hu) (fun _ => hs) hr h

/-- Every command keeps the tables canonical: a table write because its index is checked first (R138, R192), QZ_INIT and
SOFT_RESET because they empty what they touch, every other because it leaves the tables alone. -/
theorem exec_keeps_tables (i : Instr) (hs : tablesInv s) (h : exec i s = .next t) : tablesInv t := by
  cases i with
  | wtTableWrite =>
    refine finish_keeps_tables hs ?_ h
    simp only [ensures_bind, needIndex_ok_iff, pure_eq_ok, ensures_ok]
    exact fun _ hn _ _ => tablesInv_setWtab hs hn
  | qzTableWrite k =>
    refine finish_keeps_tables hs ?_ h
    simp only [ensures_instanced, ensures_bind, needIndex_ok_iff, pure_eq_ok, ensures_ok]
    exact fun _ _ hn _ _ _ _ => tablesInv_setQt hs hn
  | qzInit k =>
    refine finish_keeps_tables hs ?_ h
    simp only [ensures_instanced, pure_eq_ok, ensures_ok]
    exact fun _ => tablesInv_clearQt (s := setQz s k qzReset) hs
  | softReset =>
    obtain rfl := Host.Outcome.next.inj ((exec_softReset s).symm.trans h)
    exact tablesInv_resetBlock s
  | _ =>
    obtain ⟨-, -, -, -, -, -, hwtab, hqt, -⟩ := commandsTouchOnlyTheirInstance _ s t (by simp) h
    exact (tablesInv_congr (exec_build h) (not_imp_comm.mp hwtab (by simp))
      fun k => not_imp_comm.mp (hqt k) (by simp)).mpr hs

end

/-- Settles O21: `step_keeps` for the tables' invariant; what is at the port and in the registers is no part of it. -/
theorem stepKeepsTablesCanonical : Obligations.StepKeepsTablesCanonical := by
  intro s t hs h
  exact step_keeps (fun _ _ _ hs => hs) (fun _ _ _ hs => hs) (fun _ _ hs => hs) (fun s _ => tablesInv_resetBlock s)
    (fun i _ _ hs h => exec_keeps_tables i hs h) hs h

end Sys2Proof.Machine
end

section
/-! # Command words (30_encoding.md R80 to R88): decoding and encoding are inverse, the illegal words of R88 are all the
words that are no command, and a command of an instance the build does not have is rejected with INST -/

namespace Sys2Proof.Machine

/-! ## The rows of R87 -/

/-- The command that a row means with `k` in its INST field; a block-wide row means one with INST 0 alone (R82). -/
inductive RowMeans : Row → Inst → Instr → Prop
  | perInstance (command : Inst → Instr) (k : Inst) : RowMeans (.perInstance command) k (command k)
  | blockWide (command : Instr) {k : Inst} (hk : k = 0) : RowMeans (.blockWide command) k command

section
variable {unit opc : Nat} {row : Row}

/-- The UNITs and OPCs that R87 has rows for. -/
def Listed (unit opc : Nat) : Prop :=
  (unit = 0 ∧ opc < 0x06) ∨ (unit = 1 ∧ opc < 0x09) ∨ (unit = 2 ∧ opc < 0x07) ∨ (unit = 3 ∧ opc < 0x06)
    ∨ (unit = 4 ∧ opc < 0x09) ∨ (unit = 5 ∧ opc < 0x08) ∨ (unit = 15 ∧ opc < 0x04)

/-- R88's list leaves out no UNIT and OPC without a row. -/
theorem listed_of_not_unlisted (hu : unit < 16) (h : ¬Unlisted unit opc) : Listed unit opc := by
  interval_cases unit <;> simp_all [Unlisted, Listed]

theorem exists_rowOf_of_listed (h : Listed unit opc) : ∃ row, rowOf unit opc = some row := by
  rcases h with ⟨rfl, h⟩ | ⟨rfl, h⟩ | ⟨rfl, h⟩ | ⟨rfl, h⟩ | ⟨rfl, h⟩ | ⟨rfl, h⟩ | ⟨rfl, h⟩ <;>
    interval_cases opc <;> exact ⟨_, rfl⟩

theorem listed_of_rowOf (hu : unit < 16) (hrow : rowOf unit opc = some row) : Listed unit opc :=
  listed_of_not_unlisted hu fun h => by simp [rowOf_of_unlisted h] at hrow

/-- `encode` spells every command with the UNIT and OPC of its row (R86). -/
theorem encode_of_rowOf {k : Inst} {i : Instr} (hu : unit < 16) (hrow : rowOf unit opc = some row)
    (hi : RowMeans row k i) : encode i = commandWord unit opc k := by
  rcases listed_of_rowOf hu hrow with
      ⟨rfl, h⟩ | ⟨rfl, h⟩ | ⟨rfl, h⟩ | ⟨rfl, h⟩ | ⟨rfl, h⟩ | ⟨rfl, h⟩ | ⟨rfl, h⟩ <;>
    interval_cases opc <;> cases hrow <;> rcases hi with _ | ⟨_, rfl⟩ <;> rfl

/-- Only the rows of CORE and the two of the wavetable are block-wide. -/
theorem blockWide_of_rowOf {i : Instr} (hu : unit < 16) (hrow : rowOf unit opc = some (.blockWide i)) :
    (unit = 1 ∧ (opc = 0x07 ∨ opc = 0x08)) ∨ unit = 15 := by
  rcases listed_of_rowOf hu hrow with
      ⟨rfl, h⟩ | ⟨rfl, h⟩ | ⟨rfl, h⟩ | ⟨rfl, h⟩ | ⟨rfl, h⟩ | ⟨rfl, h⟩ | ⟨rfl, -⟩
  case inr.inr.inr.inr.inr.inr => exact .inr rfl
  all_goals interval_cases opc <;> cases hrow <;> simp

end

/-! ## Decoding and encoding -/

/-- Everything `decode` accepts: the command that the row of the word's UNIT and OPC means with the word's INST (R83). -/
theorem decode_eq_ok_iff {w : Word} {i : Instr} :
    decode w = .ok i ↔
      reservedField w = 0 ∧ ∃ row, rowOf (unitField w) (opcField w) = some row ∧ RowMeans row (instField w) i := by
  constructor
  · intro h
    unfold decode at h
    split at h
    · cases h
    · next hres =>
      refine ⟨not_not.mp hres, ?_⟩
      split at h
      · cases h
      · next command hrow =>
          cases h
          exact ⟨_, hrow, .perInstance _ _⟩
      · next command hrow =>
          split at h
          · cases h
          · next hinst =>
              cases h
              exact ⟨_, hrow, .blockWide _ (not_not.mp hinst)⟩
  · rintro ⟨hres, row, hrow, hi⟩
    rw [decode, if_neg (not_not.mpr hres), hrow]
    cases hi with
    | perInstance => rfl
    | blockWide _ hk => exact if_neg (not_not.mpr hk)

theorem decode_commandWord {unit opc : Nat} {k : Inst} {row : Row} {i : Instr} (hu : unit < 16) (ho : opc < 256)
    (hrow : rowOf unit opc = some row) (hi : RowMeans row k i) : decode (commandWord unit opc k) = .ok i := by
  obtain ⟨hres, hunit, hopc, hinst⟩ := fields_commandWord hu ho k
  rw [decode_eq_ok_iff, hres, hunit, hopc, hinst]
  exact ⟨rfl, row, hrow, hi⟩

theorem decode_encode (i : Instr) : decode (encode i) = .ok i := by
  cases i with
  | wtTableWrite | wtTableRead | nop | clrErr | softReset | dac12 =>
    exact decode_commandWord (by decide) (by decide) rfl (.blockWide _ rfl)
  | _ => exact decode_commandWord (by decide) (by decide) rfl (.perInstance _ _)

/-- A word is its four bytes (20_memory.md R64). -/
theorem wordOfBytes_bytes (w : Word) :
    wordOfBytes (BitVec.ofNat 8 w.toNat) (BitVec.ofNat 8 (w.toNat / 256)) (BitVec.ofNat 8 (w.toNat / 65536))
      (BitVec.ofNat 8 (w.toNat / 16777216)) = w := by
  have hw := w.isLt
  have hn : w.toNat % 2 ^ 8 + w.toNat / 256 % 2 ^ 8 * 256 + w.toNat / 65536 % 2 ^ 8 * 65536
      + w.toNat / 16777216 % 2 ^ 8 * 16777216 = w.toNat := by omega
  simp only [wordOfBytes, BitVec.toNat_ofNat, hn]
  rw [BitVec.ofNat_toNat, BitVec.setWidth_eq]

/-- Four bytes decode as their word does, and what follows them is left over (R81). `decode` and the list are variables
while `decodeBytes` unfolds: else the kernel tries to evaluate `decode` on a word it does not know. -/
theorem decodeBytes_of_decode {b0 b1 b2 b3 : Byte} {rest : List Byte} {i : Instr}
    (h : decode (wordOfBytes b0 b1 b2 b3) = .ok i) : decodeBytes (b0 :: b1 :: b2 :: b3 :: rest) = .ok (i, rest) := by
  obtain ⟨d, hd⟩ : ∃ d, d = decode := ⟨_, rfl⟩
  obtain ⟨l, hl⟩ : ∃ l, l = b0 :: b1 :: b2 :: b3 :: rest := ⟨_, rfl⟩
  rw [← hd] at h
  rw [← hl, decodeBytes.eq_def, ← hd, hl]
  simp only [h]

theorem decodeBytes_bytesOfWord {w : Word} {i : Instr} (h : decode w = .ok i) :
    decodeBytes (bytesOfWord w) = .ok (i, []) :=
  decodeBytes_of_decode ((congrArg decode (wordOfBytes_bytes w)).trans h)

theorem unitField_lt (w : Word) : unitField w < 16 := Nat.mod_lt _ (by decide)

/-- A word without reserved bits is made of its fields (R80, R86). -/
theorem commandWord_fields {w : Word} (h : reservedField w = 0) :
    commandWord (unitField w) (opcField w) (instField w) = w := by
  apply BitVec.eq_of_toNat_eq
  unfold reservedField at h
  simp only [commandWord, unitField, opcField, instField, BitVec.toNat_ofNat]
  omega

/-- Settles O1: `decode` undoes `encode`, and a word's bytes decode as the word does. -/
theorem decodeEncodeAgree : Obligations.DecodeEncodeAgree :=
  fun i => ⟨decode_encode i, decodeBytes_bytesOfWord (decode_encode i)⟩

/-- Settles O4: each word is the one `encode` gives for its command. -/
theorem sampleWordsDecode : Obligations.SampleWordsDecode :=
  ⟨decode_encode (.paSetFreq 3), decode_encode (.wtProcess 15), decode_encode .wtTableWrite,
    decode_encode (.crRenorm 1), decode_encode (.bqCalc 0), decode_encode (.qzQuantize 2),
    decode_encode (.ttProcess 0), decode_encode .dac12⟩

/-- Settles O2: the command is spelled with the UNIT, OPC and INST of the word, and they make up the word. -/
theorem encodeDecodeAgree : Obligations.EncodeDecodeAgree := by
  intro w i h
  obtain ⟨hres, row, hrow, hi⟩ := decode_eq_ok_iff.mp h
  calc
    encode i = commandWord (unitField w) (opcField w) (instField w) := encode_of_rowOf (unitField_lt w) hrow hi
    _ = w := commandWord_fields hres

/-! ## Words that are commands (R88), and instances that are absent (R82, R83) -/

/-- The converse of `decode_of_illegalWord`: R88 lists every word that is no command. -/
theorem exists_decode_of_not_illegalWord {w : Word} (h : ¬illegalWord w) : ∃ i, decode w = .ok i := by
  rw [illegalWord_iff] at h
  push Not at h
  obtain ⟨hres, hlisted, hinst⟩ := h
  have hu := unitField_lt w
  obtain ⟨row, hrow⟩ := exists_rowOf_of_listed (listed_of_not_unlisted hu hlisted)
  cases row with
  | perInstance command => exact ⟨_, decode_eq_ok_iff.mpr ⟨hres, _, hrow, .perInstance _ _⟩⟩
  | blockWide i =>
    have hzero : instField w = 0 := by
      by_contra hne
      obtain ⟨hwt, hcore⟩ := hinst hne
      rcases blockWide_of_rowOf hu hrow with ⟨hunit, hopc⟩ | hunit
      · exact hopc.elim (hwt hunit).1 (hwt hunit).2
      · exact hcore hunit
    exact ⟨i, decode_eq_ok_iff.mpr ⟨hres, _, hrow, .blockWide i hzero⟩⟩

/-- An instanced command makes the last check of R83 before anything else. -/
theorem exec_eq_finish_instanced {i : Instr} {k : Inst} (h : i.address.2 = some k) (s : State) :
    ∃ body, exec i s = finish s (instanced (s.build.count i.address.1) k body) := by
  cases i with
  | wtTableWrite | wtTableRead | nop | clrErr | softReset | dac12 => cases h
  | _ =>
    cases h
    exact ⟨_, rfl⟩

/-- Settles O5: that check fails, whatever the rest of the command is. -/
theorem missingInstanceIsRejected : Obligations.MissingInstanceIsRejected := by
  intro i k s hk hcount
  obtain ⟨body, hexec⟩ := exec_eq_finish_instanced hk s
  rw [hexec, instanced_of_le hcount, finish_error]

/-- Settles O3: R88's words do not decode, every other word does, and what decodes is executed. -/
theorem reservedWordsAreIllegal : Obligations.ReservedWordsAreIllegal :=
  ⟨fun _ s hw => executeWord_of_illegalWord hw s, fun _ => exists_decode_of_not_illegalWord,
    fun _ i k s hi hk hcount => (executeWord_of_decode hi s).trans (missingInstanceIsRejected i k s hk hcount)⟩

end Sys2Proof.Machine
end

section
/-! # How a command is accepted or rejected (40_command_core.md R100, R101), and the commands of CORE (R110 to R113)

Every command ends in `finish` (`exec_eq_finish`): what acceptance and rejection leave follows from what `finish` does.
DAC12's code is at most 4095 because the product it converts lies between 0 and K4095 (`floorI_le_4095`). -/

namespace Sys2Proof.Machine

/-! ## Acceptance and rejection -/

/-- Every command ends with the assignments its checks let it commit, or with a code: none is refused, none faults. -/
theorem exec_eq_finish (i : Instr) (s : State) : ∃ r, exec i s = finish s r := by
  cases i with
  | nop => exact ⟨.ok s, rfl⟩
  | clrErr => exact ⟨.ok { s with status := statusClear s.status }, rfl⟩
  | softReset => exact ⟨.ok (resetBlock s), rfl⟩
  | _ => exact ⟨_, rfl⟩

/-- Settles O15: a word is a command, which ends in `finish`, or is rejected with ILLEGAL. -/
theorem everyWordIsAnswered : Obligations.EveryWordIsAnswered := by
  intro w s
  cases hw : decode w with
  | ok i =>
    obtain ⟨r, hr⟩ := exec_eq_finish i s
    rw [executeWord_of_decode hw, hr]
    exact finish_next s r
  | error e => exact ⟨reject .illegal s, by rw [executeWord, hw]⟩

/-- A rejected word, as a command or as no command, leaves the state that `reject` builds. -/
theorem executeWord_rejected {w : Word} {s t : State} (h : executeWord w s = .next t) (hrej : t.status.lastRej = true) :
    ∃ c, t = reject c s := by
  rcases executeWord_eq_next h with ⟨i, -, hi⟩ | rfl
  · obtain ⟨r, hr⟩ := exec_eq_finish i s
    obtain ⟨c, -, rfl⟩ := finish_rejected (hr.symm.trans hi) hrej
    exact ⟨c, rfl⟩
  · exact ⟨.illegal, rfl⟩

/-- Settles O13: `reject` updates STATUS and nothing else. -/
theorem rejectionIsPrecise : Obligations.RejectionIsPrecise := by
  intro w s t h hrej
  obtain ⟨c, rfl⟩ := executeWord_rejected h hrej
  exact ⟨c, rfl⟩

/-- Settles O14: `accept` clears LAST_CODE, and only CLR_ERR and SOFT_RESET hand it another ERR or FIRST_CODE. -/
theorem acceptedCommandStatus : Obligations.AcceptedCommandStatus := by
  intro i s t h hacc
  constructor
  · obtain ⟨r, hr⟩ := exec_eq_finish i s
    obtain ⟨u, -, rfl⟩ := finish_accepted (hr.symm.trans h) hacc
    exact accept_lastCode u
  · intro hclr hreset
    rcases exec_answers i hreset h with ⟨c, rfl⟩ | ⟨u, hu, rfl⟩
    · simp at hacc
    · have hstatus : u.status = s.status := by rw [hu.status, if_neg hclr]
      simp [accept, hstatus]

/-! ## The commands without a check -/

theorem exec_nop (s : State) : exec .nop s = .next (accept s) := rfl

theorem exec_clrErr (s : State) : exec .clrErr s = .next (accept { s with status := statusClear s.status }) := rfl

/-- STATUS after reset is what an accepted command leaves it as: it has nothing to clear (R33, R250). -/
theorem accept_resetBlock (s : State) : accept (resetBlock s) = resetBlock s := rfl

/-- Settles O32: the three are accepted in every state, NOP with no assignment, CLR_ERR with `statusClear`, SOFT_RESET
with `resetBlock`. -/
theorem housekeepingCommands : Obligations.HousekeepingCommands := by
  intro s
  refine ⟨exec_nop s, exec_clrErr s, ?_⟩
  rw [exec_softReset, accept_resetBlock, resetBlock]

/-! ## DAC12 (R113) -/

/-- DAC12 in mode 0, of a value in [0, 1]. -/
theorem exec_dac12_unit {s : State} (hmode : argU s 1 = 0) (hvalue : inUnit (argF s 0)) :
    exec .dac12 s = .next (accept (setRes s 0 (zext (dacUnit (argF s 0))))) := by
  have hfin : isFinite (argF s 0) = true := (inUnit_iff.mp hvalue).1
  obtain ⟨h0, h1⟩ := hvalue
  simp [exec, execDac12, needOperand, needFinite, hmode, hfin, h0, h1]

/-- DAC12 in mode 1, of a finite value. -/
theorem exec_dac12_volts {s : State} (hmode : argU s 1 = 1) (hfin : isFinite (argF s 0) = true) :
    exec .dac12 s = .next (accept (setRes s 0 (zext (dacVolts (argF s 0))))) := by
  simp [exec, execDac12, needOperand, needFinite, hmode, hfin]

/-- What passes the checks of DAC12: a mode of 0 with a value in [0, 1], or a mode of 1 with a finite value. -/
def dacAdmits (value : F32) (mode : Nat) : Prop := mode = 0 ∧ inUnit value ∨ mode = 1 ∧ isFinite value = true

/-- DAC12 has one code, whatever check fails. -/
theorem exec_dac12_reject {s : State} (h : ¬dacAdmits (argF s 0) (argU s 1)) :
    exec .dac12 s = .next (reject .operand s) := by
  obtain ⟨hunit, hvolts⟩ := not_or.mp h
  by_cases hmode : (argU s 1 == 0 || argU s 1 == 1) = true
  · by_cases hfin : isFinite (argF s 0) = true
    · have h0 : argU s 1 = 0 := by
        have hcases : argU s 1 = 0 ∨ argU s 1 = 1 := by simpa using hmode
        exact hcases.resolve_right fun h1 => hvolts ⟨h1, hfin⟩
      have hrange : (fge (argF s 0) fZERO && fle (argF s 0) fONE) = false :=
        Bool.eq_false_iff.mpr fun hin => hunit ⟨h0, (Bool.and_eq_true _ _).mp hin⟩
      simp [exec, execDac12, needOperand, needFinite, h0, hfin, hrange]
    · simp [exec, execDac12, needOperand, needFinite, hmode, hfin]
  · simp [exec, execDac12, needOperand, hmode]

/-- Settles O33: `dacUnit` and `dacVolts` are R113's two mappings; each ground of the third clause excludes both. -/
theorem dacConvertsBothMappings : Obligations.DacConvertsBothMappings := by
  intro s
  refine ⟨fun hmode _ h0 h1 => exec_dac12_unit hmode ⟨h0, h1⟩, exec_dac12_volts, fun hground => exec_dac12_reject ?_⟩
  rintro (⟨hmode, hu⟩ | ⟨hmode, hfin⟩)
  · rcases hground with hgt | hnotfin | ⟨-, hout⟩
    · omega
    · exact Bool.false_ne_true (hnotfin.symm.trans (inUnit_iff.mp hu).1)
    · exact Bool.false_ne_true (hout.symm.trans ((Bool.and_eq_true _ _).mpr hu))
  · rcases hground with hgt | hnotfin | ⟨h0, -⟩
    · omega
    · exact Bool.false_ne_true (hnotfin.symm.trans hfin)
    · omega

/-! ### The size of the code -/

theorem isFinite_fK4095 : isFinite fK4095 = true := by decide
theorem valueOf_fK4095 : valueOf fK4095 = 4095 * 2 ^ 149 := by decide +kernel

/-- The largest code is the integer part of K4095; no value between 0 and K4095 has a larger one. -/
theorem floorI_le_4095 {x : F32} (h0 : 0 ≤ valueOf x) (h1 : valueOf x ≤ valueOf fK4095) : floorI x ≤ 4095 := by
  have hlo := (floorI_bounds h0).1
  rw [valueOf_fK4095] at h1
  omega

/-- A value between 0 and K4095 is rounded to one of at most K4095, an integer itself. -/
theorem floorI_roundF_le_4095 {x : F32} (hfin : isFinite x = true) (h0 : 0 ≤ valueOf x)
    (h1 : valueOf x ≤ valueOf fK4095) : floorI (roundF x) ≤ 4095 := by
  have hmag := valueOf_eq_magnitude h0
  rw [valueOf_fK4095] at h1
  have hnear := (nearestUp_bounds (magnitude x)).1
  have hr := congrArg Int.natAbs (roundF_spec hfin).2
  rw [valueOf_natAbs] at hr
  have hround : magnitude (roundF x) = nearestUp (magnitude x) * 2 ^ 149 := by
    rw [hr]; split <;> omega
  rw [floorI, hround]
  omega

/-- Mode 0: the product of a value in [0, 1] and K4095 lies between 0 and K4095. -/
theorem dacUnit_le {value : F32} (h : inUnit value) : dacUnit value ≤ 4095 := by
  obtain ⟨hfin, h0, h1⟩ := inUnit_iff.mp h
  obtain ⟨hpfin, hp0, hp1⟩ := roundsTo_between (multiplicationIsNearest value fK4095 hfin isFinite_fK4095)
    (by positivity) isFinite_fZERO isFinite_fK4095 (by rw [valueOf_fZERO, valueOf_fK4095]; omega)
    (by rw [valueOf_fK4095]; omega)
  exact floorI_roundF_le_4095 hpfin (valueOf_fZERO ▸ hp0) hp1

/-- A comparison that is false between values that are no NaN holds the other way around (R14). -/
theorem le_of_not_flt {a b : F32} (ha : isNaN a = false) (hb : isNaN b = false) (h : ¬flt a b = true) :
    valueOf b ≤ valueOf a := by
  simpa [flt, ha, hb] using h

/-- Mode 1: what the clamp lets through lies between 0 and K4095, also if the product is an infinity. -/
theorem dacVolts_le {value : F32} (hfin : isFinite value = true) : dacVolts value ≤ 4095 := by
  have hn : isNaN (fmul value fK819) = false := by
    rw [fmul_of_isFinite hfin (by decide)]
    exact isNaN_roundTo _ _ _
  simp only [dacVolts, truncI]
  split
  · exact floorI_le_4095 valueOf_fZERO.ge (by rw [valueOf_fZERO, valueOf_fK4095]; positivity)
  · next hneg =>
    have h0 := le_of_not_flt hn (isNaN_of_isFinite isFinite_fZERO) hneg
    rw [valueOf_fZERO] at h0
    split
    · exact floorI_le_4095 (by rw [valueOf_fK4095]; positivity) le_rfl
    · next hbig => exact floorI_le_4095 h0 (le_of_not_flt (isNaN_of_isFinite isFinite_fK4095) hn hbig)

/-- RES0 after DAC12 commits a code that fits 12 bits. -/
theorem resWord_dac12_le {s : State} {code : Nat} (h : code ≤ 4095) :
    (resWord (accept (setRes s 0 (zext code))) 0).toNat ≤ 4095 := by
  have hword : resWord (accept (setRes s 0 (zext code))) 0 = zext code := resWord_setRes s 0 0 _
  rw [hword, toNat_zext (by omega)]
  exact h

/-- Settles O34: an accepted DAC12 is one that `dacAdmits`, and both mappings give at most 4095. -/
theorem dacCodeIsTwelveBits : Obligations.DacCodeIsTwelveBits := by
  intro s t h hacc
  by_cases hadmit : dacAdmits (argF s 0) (argU s 1)
  · rcases hadmit with ⟨hmode, hu⟩ | ⟨hmode, hfin⟩
    · obtain rfl := Host.Outcome.next.inj ((exec_dac12_unit hmode hu).symm.trans h)
      exact resWord_dac12_le (dacUnit_le hu)
    · obtain rfl := Host.Outcome.next.inj ((exec_dac12_volts hmode hfin).symm.trans h)
      exact resWord_dac12_le (dacVolts_le hfin)
  · obtain rfl := Host.Outcome.next.inj ((exec_dac12_reject hadmit).symm.trans h)
    simp at hacc

end Sys2Proof.Machine
end

section
/-! # The phase accumulator (41_phase_accumulator.md R120 to R129), and the INIT, SET_FREQ and read-back commands of the
other oscillators that follow the same rules

A wrap subtracts the range exactly: the sum it is subtracted from is at most twice the range (`fadd_le_double`), and the
difference of two binary32 values within a factor of 2 is itself one (`valueOf_fsub_of_le_double`). -/

namespace Sys2Proof.Machine

/-! ## Exact differences -/

/-- A magnitude is a significand of 24 bits times the power of two that its exponent gives. -/
theorem exists_significand (b : Nat) : ∃ m < 2 ^ 24, magBits b = m * 2 ^ (b / 2 ^ 23 - 1) := by
  have hf : b % 2 ^ 23 < 2 ^ 23 := Nat.mod_lt _ (by decide)
  rw [magBits]
  split
  · next he => exact ⟨b % 2 ^ 23, by omega, by rw [he]; simp⟩
  · exact ⟨b % 2 ^ 23 + 2 ^ 23, by omega, rfl⟩

/-- Any significand of 24 bits times any power of two is a magnitude. -/
theorem exists_magBits_scaled {m : Nat} (hm : m < 2 ^ 24) (e : Nat) : ∃ c, magBits c = m * 2 ^ e := by
  induction e with
  | zero => exact ⟨0 * 2 ^ 23 + m, magBits_scaled (.inl ⟨rfl, hm.le⟩)⟩
  | succ e ih =>
    obtain ⟨c, hc⟩ := ih
    obtain ⟨d, hd⟩ := exists_magBits_double c
    exact ⟨d, by rw [hd, hc, pow_succ]; ring⟩

/-- The difference of two magnitudes within a factor of 2 is a magnitude: a multiple of the smaller one's last place,
and no larger than the smaller one. -/
theorem exists_magBits_sub {a b : Nat} (hle : magBits b ≤ magBits a) (hdouble : magBits a ≤ 2 * magBits b) :
    ∃ c, magBits c = magBits a - magBits b := by
  obtain ⟨m, -, hm⟩ := exists_significand a
  obtain ⟨n, hn24, hn⟩ := exists_significand b
  have hexp : b / 2 ^ 23 - 1 ≤ a / 2 ^ 23 - 1 :=
    Nat.sub_le_sub_right (Nat.div_le_div_right (magBits_strictMono.le_iff_le.mp hle)) 1
  obtain ⟨j, hj⟩ := Nat.exists_eq_add_of_le hexp
  generalize b / 2 ^ 23 - 1 = e at hn hj
  have ha : magBits a = m * 2 ^ j * 2 ^ e := by rw [hm, hj, pow_add]; ring
  have hsig : m * 2 ^ j ≤ 2 * n :=
    Nat.le_of_mul_le_mul_right (by rw [← ha, Nat.mul_assoc, ← hn]; exact hdouble) (Nat.two_pow_pos e)
  obtain ⟨c, hc⟩ := exists_magBits_scaled (m := m * 2 ^ j - n) (by omega) e
  exact ⟨c, by rw [hc, Nat.sub_mul, ← ha, ← hn]⟩

/-- Every magnitude that does not exceed a finite value is a finite value. -/
theorem exists_finite_of_magBits {c : Nat} {v : F32} (hv : isFinite v = true) (hle : magBits c ≤ magnitude v) :
    ∃ d, isFinite d = true ∧ valueOf d = magBits c := by
  rw [magnitude_eq_magBits] at hle
  have hlt : c < infinityBits := (magBits_strictMono.le_iff_le.mp hle).trans_lt (bits_lt_of_isFinite hv)
  refine ⟨pack false c, by rw [isFinite_pack hlt.le]; exact decide_eq_true hlt, ?_⟩
  rw [valueOf_pack (hlt.trans infinityBits_lt), if_neg Bool.false_ne_true]

/-- Subtraction is exact between values within a factor of 2. -/
theorem valueOf_fsub_of_le_double {a b : F32} (ha : isFinite a = true) (hb : isFinite b = true)
    (hle : valueOf b ≤ valueOf a) (hdouble : valueOf a ≤ 2 * valueOf b) :
    valueOf (fsub a b) = valueOf a - valueOf b := by
  have hma := valueOf_eq_magnitude (v := a) (by omega)
  have hmb := valueOf_eq_magnitude (v := b) (by omega)
  obtain ⟨c, hc⟩ := exists_magBits_sub (a := a.toNat % 2 ^ 31) (b := b.toNat % 2 ^ 31)
    (by rw [← magnitude_eq_magBits, ← magnitude_eq_magBits]; omega)
    (by rw [← magnitude_eq_magBits, ← magnitude_eq_magBits]; omega)
  rw [← magnitude_eq_magBits, ← magnitude_eq_magBits] at hc
  obtain ⟨d, hdf, hd⟩ := exists_finite_of_magBits (c := c) hb (by omega)
  have hexact : valueOf d = valueOf a - valueOf b := by omega
  obtain ⟨-, hlo, hhi⟩ := roundsTo_between (roundsTo_fsub ha hb) one_pos hdf hdf (by omega) (by omega)
  omega

/-! ## One sample of the accumulator (R122, R123) -/

/-- The rounded sum of a phase and an increment is at most twice the range. -/
theorem fadd_le_double {phase inc r : F32} (hr : rangeOk r) (hphase : inHalfOpen phase r) (hinc : inHalfOpen inc r) :
    isFinite (fadd phase inc) = true ∧ valueOf (fadd phase inc) ≤ 2 * valueOf r := by
  obtain ⟨hrf, hr0, hrmax⟩ := rangeOk_iff.mp hr
  obtain ⟨hpf, hp0, hpr⟩ := (inHalfOpen_iff hrf).mp hphase
  obtain ⟨hif, hi0, hir⟩ := (inHalfOpen_iff hrf).mp hinc
  obtain ⟨d, hdf, hd⟩ := exists_double hr0.le hrmax
  obtain ⟨hsf, -, hsd⟩ := roundsTo_between (roundsTo_fadd hpf hif) one_pos isFinite_fZERO hdf
    (by rw [valueOf_fZERO]; omega) (by omega)
  exact ⟨hsf, hd ▸ hsd⟩

/-- Settles O30: a sum that wraps lies between the range and twice the range, so that taking the range off is exact. -/
theorem wrapKeepsPhaseInRange : Obligations.WrapKeepsPhaseInRange := by
  intro phase inc r hrf hr0 hrmax hphase hinc
  have hr : rangeOk r := ⟨hrf, hr0, hrmax⟩
  refine ⟨phaseStep_inHalfOpen hr hphase hinc, ?_⟩
  by_cases hge : fge (fadd phase inc) r = true
  · rw [phaseStep_of_fge hge]
    obtain ⟨hsf, hsd⟩ := fadd_le_double hr hphase hinc
    exact ⟨fun _ => valueOf_fsub_of_le_double hsf hrf ((fle_iff hrf hsf).mp hge) hsd, nofun⟩
  · rw [phaseStep_of_not_fge hge]
    exact ⟨nofun, fun _ => rfl⟩

/-! ## Commands that make checks of one code, then their assignments (40_command_core.md R103) -/

/-- Two checks in a row that raise the same code are one check of both conditions. -/
theorem need_bind_need {β : Type} (c : Code) (b b' : Bool) (f : Unit → Except Code β) :
    (need c b >>= fun _ => need c b' >>= f) = need c (b && b') >>= f := by
  cases b <;> rfl

section
variable {n : Nat} {k : Inst} {s t : State}

/-- A command without a check, of an instance the build has, is accepted. -/
theorem finish_instanced_ok (hk : k.toNat < n) : finish s (instanced n k (.ok t)) = .next (accept t) := by
  rw [instanced_of_lt hk, finish_ok]

/-- A command with one check, of an instance the build has, is accepted if its condition holds and rejected with the
check's code if not. -/
theorem finish_instanced_need {c : Code} {b : Bool} {P : Prop} (hk : k.toNat < n) (hP : b = true ↔ P) :
    (P → finish s (instanced n k (need c b >>= fun _ => .ok t)) = .next (accept t))
      ∧ (¬P → finish s (instanced n k (need c b >>= fun _ => .ok t)) = .next (reject c s)) := by
  rw [instanced_of_lt hk, need_bind, ← hP]
  exact ⟨fun hb => by rw [if_pos hb, finish_ok], fun hb => by rw [if_neg hb, finish_error]⟩

end

/-! ## INIT commands -/

/-- Settles O35: the four that take a rate make the one check of it, BQ_INIT and QZ_INIT make none. -/
theorem initCommandsResetTheirInstance : Obligations.InitCommandsResetTheirInstance := by
  intro k s fs good
  have hgood : (isFinite fs && fgt fs fZERO) = true ↔ good := Bool.and_eq_true_iff
  have checked {n : Nat} {t : State} (hk : k.toNat < n) :=
    finish_instanced_need (s := s) (t := t) (c := .operand) hk hgood
  exact ⟨fun hk => (checked hk).1, fun hk => (checked hk).1, fun hk => (checked hk).1, fun hk => (checked hk).1,
    fun hk => (checked hk).2, fun hk => (checked hk).2, fun hk => (checked hk).2, fun hk => (checked hk).2,
    finish_instanced_ok, finish_instanced_ok⟩

/-! ## PA_SET_RANGE (R125), PA_SET_FREQ and WT_SET_FREQ (R121, R126, 42_wavetable_oscillator.md R131) -/

/-- PA_SET_RANGE's checks as one. -/
theorem exec_paSetRange (k : Inst) (s : State) :
    exec (.paSetRange k) s
      = finish s (instanced s.build.nPA k
          (need .operand (isFinite (argF s 0) && (fgt (argF s 0) fZERO && (fle (argF s 0) fRANGE_MAX
              && flt (incOf (argF s 0) (paAt s k).freq (paAt s k).fs) (argF s 0))))
            >>= fun _ => .ok (setPa s k { paAt s k with
              range := argF s 0, inc := incOf (argF s 0) (paAt s k).freq (paAt s k).fs, phase := fZERO }))) := by
  simp only [← need_bind_need]
  rfl

/-- Settles O36: `exec_paSetRange` checks what R125 asks for. -/
theorem paSetRangeRescales : Obligations.PaSetRangeRescales := by
  intro k s hk u r inc good
  rw [exec_paSetRange]
  exact finish_instanced_need hk (by simp only [Bool.and_eq_true]; rfl)

/-- The checks of R121 as one. -/
theorem admitFreq_eq (r hz fs : F32) :
    admitFreq r hz fs
      = need .operand (isFinite hz && (fge hz fZERO && (flt hz fs && flt (incOf r hz fs) r)))
          >>= fun _ => .ok (incOf r hz fs) := by
  simp only [← need_bind_need]
  rfl

/-- What the two SET_FREQ commands share: the checks of R121 on an instance that the build has, then assignments that
depend on the increment. -/
theorem finish_instanced_admitFreq {n : Nat} {k : Inst} {s : State} (r hz fs : F32) (assign : F32 → State)
    (hk : k.toNat < n) :
    let good := isFinite hz = true ∧ fge hz fZERO = true ∧ flt hz fs = true ∧ flt (incOf r hz fs) r = true
    let answer := finish s (instanced n k (admitFreq r hz fs >>= fun inc => .ok (assign inc)))
    (good → answer = .next (accept (assign (incOf r hz fs)))) ∧ (¬good → answer = .next (reject .operand s)) := by
  rw [admitFreq_eq, bind_assoc]
  exact finish_instanced_need hk (by simp only [Bool.and_eq_true])

/-- Settles O37: both commands are `finish_instanced_admitFreq`, PA's for the instance's range, WT's for the length of
the table. -/
theorem setFreqAdmitsBelowRate : Obligations.SetFreqAdmitsBelowRate := by
  intro k s hz good
  exact ⟨finish_instanced_admitFreq (paAt s k).range hz (paAt s k).fs
      fun inc => setPa s k { paAt s k with freq := hz, inc := inc },
    finish_instanced_admitFreq (lenF s.build) hz (wtAt s k).fs
      fun inc => setWt s k { wtAt s k with freq := hz, inc := inc }⟩

/-! ## PA_PROCESS (R127) -/

/-- PA_PROCESS in terms of the phase step of R122. -/
theorem exec_paProcess {k : Inst} {s : State} (hk : k.toNat < s.build.nPA) {p : F32} {wraps : Bool}
    (h : phaseStep (paAt s k).phase (paAt s k).inc (paAt s k).range = (p, wraps)) :
    exec (.paProcess k) s
      = .next (accept (setRes (setRes (setPa s k { paAt s k with phase := p }) 0 (canonical p)) 1
          (boolWord wraps))) := by
  obtain ⟨rfl, rfl⟩ := Prod.ext_iff.mp h
  exact finish_instanced_ok hk

/-- Settles O38: the two branches of the phase step. -/
theorem paProcessAdvances : Obligations.PaProcessAdvances := by
  intro k s hk u p
  exact ⟨fun hge => exec_paProcess hk (phaseStep_of_fge hge),
    fun hlt => exec_paProcess hk (phaseStep_of_not_fge (Bool.not_eq_true _ ▸ hlt))⟩

/-! ## Read-back -/

/-- The interpolation mode reads as R141's bit. -/
theorem interpWord_eq (m : Interp) : interpWord m = if m = .linear then 0 else 1 := by
  cases m <;> rfl

/-- Settles O57: the six make no check but the last of R83. -/
theorem oscillatorReadback : Obligations.OscillatorReadback := by
  intro k s
  simp only [← interpWord_eq]
  exact ⟨fun hk => ⟨finish_instanced_ok hk, finish_instanced_ok hk⟩,
    fun hk => ⟨finish_instanced_ok hk, finish_instanced_ok hk⟩,
    fun hk => ⟨finish_instanced_ok hk, finish_instanced_ok hk⟩⟩

end Sys2Proof.Machine
end

section
/-! # The wavetable oscillator (42_wavetable_oscillator.md R130 to R142), and the read-back commands of the filter, the
quantizer and the timer

A zero amplitude silences the oscillator because a product with a zero is a zero for every finite value
(`fmul_of_feq_zero`). The tables' own commands, which address no instance, make their checks by `finish_need`. -/

namespace Sys2Proof.Machine

/-! ## Checks of commands that address no instance -/

/-- A check lets the rest of a command decide if its condition holds and rejects the command with its code if not. -/
theorem finish_need {s : State} {r : Except Code State} {c : Code} {b : Bool} {P : Prop} (hP : b = true ↔ P) :
    (P → finish s (need c b >>= fun _ => r) = finish s r)
      ∧ (¬P → finish s (need c b >>= fun _ => r) = .next (reject c s)) := by
  rw [need_bind, ← hP]
  exact ⟨fun hb => by rw [if_pos hb], fun hb => by rw [if_neg hb, finish_error]⟩

/-! ## WT_PROCESS (R134 to R137, R142) -/

/-- WT_PROCESS in terms of the phase step of R122 and of the value interpolated at the new phase. -/
theorem exec_wtProcess {k : Inst} {s : State} (hk : k.toNat < s.build.nWT) {st : F32 × Bool} {value : F32}
    (hstep : phaseStep (wtAt s k).phase (wtAt s k).inc (lenF s.build) = st)
    (hvalue : interpolate s (wtAt s k).interp st.1 = value) :
    exec (.wtProcess k) s
      = .next (accept (setRes (setRes (setWt s k { wtAt s k with phase := st.1 }) 0
          (canonical (fmul (wtAt s k).amp value))) 1 (boolWord st.2))) := by
  subst hstep hvalue
  exact finish_instanced_ok hk

/-- Interpolation in linear mode (R136). -/
theorem interpolate_linear (s : State) (ph : F32) :
    interpolate s .linear ph = linear s (floorI ph) (fsub ph (toF (floorI ph))) := rfl

/-- Interpolation in cubic mode (R137). -/
theorem interpolate_cubic (s : State) (ph : F32) :
    interpolate s .cubic ph = cubic s (floorI ph) (fsub ph (toF (floorI ph))) := rfl

/-- The phase range of every WT instance (R41). -/
theorem lenF_eq (b : Build) : lenF b = toF b.wtLen := rfl

/-- Settles O40: `exec_wtProcess` in each of the two modes. -/
theorem wtProcessInterpolates : Obligations.WtProcessInterpolates := by
  intro k s hk u len st i t p0 p1 p2 p3 slope0 slope1 v w a lin cub answers
  have hstep : phaseStep u.phase u.inc (lenF s.build) = st := congrArg _ (lenF_eq s.build)
  have process {out : F32} (hout : interpolate s u.interp st.1 = out) : answers out := exec_wtProcess hk hstep hout
  exact ⟨fun hmode => process (hmode ▸ interpolate_linear s st.1),
    fun hmode => process (hmode ▸ interpolate_cubic s st.1)⟩

/-- What compares equal to +0.0 is finite and of magnitude 0. -/
theorem isFinite_and_magnitude_of_feq_zero {a : F32} (h : feq a fZERO = true) :
    isFinite a = true ∧ magnitude a = 0 := by
  simp only [feq, Bool.and_eq_true, Bool.not_eq_true', decide_eq_true_eq, valueOf_fZERO] at h
  obtain ⟨⟨hnan, -⟩, hvalue⟩ := h
  exact ⟨isFinite_of_le hnan hvalue.ge isFinite_fZERO (by rw [hvalue, valueOf_fZERO]),
    magnitude_eq_zero_iff.mpr hvalue⟩

/-- A zero of either sign times a finite value is a zero, its sign the exclusive-or of the two signs (R12, log 11). -/
theorem fmul_of_feq_zero {a v : F32} (ha : feq a fZERO = true) (hv : isFinite v = true) :
    fmul a v = pack (signOf a != signOf v) 0 := by
  obtain ⟨hfin, hmag⟩ := isFinite_and_magnitude_of_feq_zero ha
  rw [fmul_of_isFinite hfin hv, hmag, Nat.zero_mul, roundTo, roundBits_zero]

/-- Both zeros are their own words, each told by its sign. -/
theorem canonical_zero (a b : Bool) :
    canonical (pack (a != b) 0) = if a = b then 0x00000000#32 else 0x80000000#32 := by
  cases a <;> cases b <;> decide

/-- Settles O41: the amplitude's product with the interpolated value is a zero (`fmul_of_feq_zero`). -/
theorem zeroAmplitudeIsSilent : Obligations.ZeroAmplitudeIsSilent := by
  intro k s hk u v hamp hv
  refine ⟨_, exec_wtProcess hk (congrArg _ (lenF_eq s.build)) (value := v) rfl, ?_⟩
  rw [resWord_accept, resWord_setRes, if_neg (by decide), resWord_setRes, if_pos rfl, fmul_of_feq_zero hamp hv,
    canonical_zero]

/-! ## WT_SET_AMP, CR_SET_AMP and WT_SET_INTERP (R132, 43_complex_rotation.md R154, R133) -/

/-- WT_SET_INTERP of a mode that R133 names, and of any other. -/
theorem exec_wtSetInterp {k : Inst} {s : State} (hk : k.toNat < s.build.nWT) :
    (argU s 0 = 0 ∨ argU s 0 = 1 →
      exec (.wtSetInterp k) s
        = .next (accept (setWt s k { wtAt s k with interp := if argU s 0 = 0 then .linear else .cubic })))
      ∧ (¬(argU s 0 = 0 ∨ argU s 0 = 1) → exec (.wtSetInterp k) s = .next (reject .operand s)) :=
  finish_instanced_need hk (by simp)

/-- Settles O39: each of the three makes one check, of its operand. -/
theorem amplitudeAndInterpolationSettings : Obligations.AmplitudeAndInterpolationSettings := by
  intro k s
  have checked {n : Nat} {t : State} (hk : k.toNat < n) :=
    finish_instanced_need (s := s) (t := t) (c := .operand) hk (Iff.refl (isFinite (argF s 0) = true))
  refine ⟨fun hk => (checked hk).1, fun hk hfin => (checked hk).2 (Bool.eq_false_iff.mp hfin),
    fun hk => (checked hk).1, fun hk hfin => (checked hk).2 (Bool.eq_false_iff.mp hfin),
    fun hk hmode => ?linear, fun hk hmode => ?cubic, fun hk hmode => (exec_wtSetInterp hk).2 (by omega)⟩
  case linear => rw [(exec_wtSetInterp hk).1 (.inl hmode), if_pos hmode]
  case cubic => rw [(exec_wtSetInterp hk).1 (.inr hmode), if_neg (by omega)]

/-! ## WT_TABLE_WRITE (R138) -/

/-- WT_TABLE_WRITE: the index is checked before the value. -/
theorem exec_wtTableWrite (s : State) :
    exec .wtTableWrite s
      = finish s (need .index (decide (argU s 0 < s.build.wtLen)) >>= fun _ =>
          need .operand (isFinite (argF s 1)) >>= fun _ => .ok (setWtab s (argU s 0) (argF s 1))) := rfl

/-- Settles O42: what the write does to the table is `Memory.read_write`. -/
theorem wavetableWriteSetsOneEntry : Obligations.WavetableWriteSetsOneEntry := by
  intro s idx val
  rw [exec_wtTableWrite]
  have index := decide_eq_true_iff (p := idx < s.build.wtLen)
  refine ⟨fun hidx hfin => ⟨accept (setWtab s idx val), ?_, rfl, fun hwf => ⟨Memory.wf_write hwf, fun j => ?_⟩⟩,
    fun hidx => (finish_need index).2 hidx.not_gt, fun hidx hfin => ?_⟩
  · rw [(finish_need index).1 hidx, (finish_need Iff.rfl).1 hfin, finish_ok]
  · exact Memory.read_write hwf
  · rw [(finish_need index).1 hidx, (finish_need Iff.rfl).2 (Bool.eq_false_iff.mp hfin)]

/-! ## Read-back -/

/-- The timer's state reads as R218's bit. -/
theorem stateWord_eq (st : TtState) : stateWord st = if st = .triggered then 1 else 0 := by
  cases st <;> rfl

/-- The timer's mode reads as R219's bit. -/
theorem modeWord_eq (m : TtMode) : modeWord m = if m = .ramped then 1 else 0 := by
  cases m <;> rfl

/-- BQ_GET_COEF of a selector that names a coefficient (R174). -/
theorem exec_bqGetCoef {k : Inst} {s : State} {sel : Nat} (hk : k.toNat < s.build.nBQ) (hsel : sel < 5)
    (h : argU s 0 = sel) :
    exec (.bqGetCoef k) s = .next (accept (setRes s 0 (canonical (coefAt (bqAt s k) sel)))) := by
  subst h
  exact (finish_instanced_need hk decide_eq_true_iff).1 hsel

/-- Settles O58: WT_TABLE_READ, BQ_GET_COEF and QZ_TABLE_READ make the one check of their index or selector, the others
make none but the last of R83. -/
theorem tableFilterAndTimerReadback : Obligations.TableFilterAndTimerReadback := by
  intro k s i
  simp only [← stateWord_eq, ← modeWord_eq]
  have index (n : Nat) := decide_eq_true_iff (p := i < n)
  refine ⟨(finish_need (index s.build.wtLen)).1, fun hi => (finish_need (index s.build.wtLen)).2 hi.not_gt,
    fun hk => ⟨?_, ?_, ?_, ?_, ?_, fun hi => (finish_instanced_need hk (index 5)).2 hi.not_gt,
      finish_instanced_ok hk⟩,
    fun hk => ⟨(finish_instanced_need hk (index s.build.qzMax)).1,
      fun hi => (finish_instanced_need hk (index s.build.qzMax)).2 hi.not_gt, finish_instanced_ok hk⟩,
    fun hk => ⟨finish_instanced_ok hk, finish_instanced_ok hk⟩⟩
  all_goals exact exec_bqGetCoef hk (by decide)

end Sys2Proof.Machine
end

section
/-! # The complex rotation oscillator (43_complex_rotation.md R151 to R157)

Each of the three commands makes checks of at most one code, then its assignments (`finish_instanced_need`,
`finish_instanced_ok`). -/

namespace Sys2Proof.Machine

/-! ## CR_SET_FREQ (R152, R153) -/

/-- CR_SET_FREQ's checks as one. -/
theorem crSetFreqWith_eq (m : Trig) (k : Inst) (s : State) :
    let d := phaseDelta (argF s 0) (crAt s k).fs
    crSetFreqWith m k s
      = finish s (instanced s.build.nCR k
          (need .operand (isFinite (argF s 0) && (isFinite d && (isFinite (m.cos d) && isFinite (m.sin d))))
            >>= fun _ => .ok (setCr s k { crAt s k with freq := argF s 0, mre := m.cos d, mim := m.sin d }))) := by
  intro d
  rw [← need_bind_need, ← need_bind_need]
  rfl

/-- Settles O43: `crSetFreqWith_eq` checks what R153 asks for, whatever COS and SIN are; the block's own command
is the one whose COS and SIN are the parameters of R17. -/
theorem crSetFreqSetsMultiplier : Obligations.CrSetFreqSetsMultiplier := by
  unfold Obligations.CrSetFreqSetsMultiplier
  intro claim
  have holds (m : Trig) : claim m (crSetFreqWith m) := by
    intro k s hk u hz d good
    rw [crSetFreqWith_eq]
    exact finish_instanced_need hk (by simp only [Bool.and_eq_true]; rfl)
  exact ⟨holds, holds Config.trig⟩

/-! ## CR_PROCESS (R151, R155) -/

/-- CR_PROCESS in terms of the complex product of R151. -/
theorem exec_crProcess {k : Inst} {s : State} (hk : k.toNat < s.build.nCR) {re im : F32}
    (h : complexMul ((crAt s k).vre, (crAt s k).vim) ((crAt s k).mre, (crAt s k).mim) = (re, im)) :
    exec (.crProcess k) s
      = .next (accept (setRes (setRes (setRes (setCr s k { crAt s k with vre := re, vim := im }) 0
          (canonical (fmul (crAt s k).amp im))) 1 (canonical re)) 2 (canonical im))) := by
  obtain ⟨rfl, rfl⟩ := Prod.ext_iff.mp h
  exact finish_instanced_ok hk

/-- The complex product of R151, each operation rounded. -/
theorem complexMul_mk (ar ai br bi : F32) :
    complexMul (ar, ai) (br, bi) = (fsub (fmul ar br) (fmul ai bi), fadd (fmul ar bi) (fmul ai br)) := rfl

/-- Settles O44: `exec_crProcess` with the product written out. -/
theorem crProcessRotates : Obligations.CrProcessRotates := by
  intro k s hk u nr ni
  exact exec_crProcess hk (complexMul_mk u.vre u.vim u.mre u.mim)

/-! ## CR_RENORM (R157) -/

/-- CR_RENORM in terms of the magnitude it divides by. -/
theorem exec_crRenorm {k : Inst} {s : State} (hk : k.toNat < s.build.nCR) {mag : F32}
    (h : phasorMagnitude (crAt s k) = mag) :
    let good := isFinite mag = true ∧ fgt mag fZERO = true
    (good → exec (.crRenorm k) s
        = .next (accept (setCr s k { crAt s k with
            vre := fdiv (crAt s k).vre mag, vim := fdiv (crAt s k).vim mag })))
      ∧ (¬good → exec (.crRenorm k) s = .next (reject .config s)) := by
  subst h
  exact finish_instanced_need hk Bool.and_eq_true_iff

/-- Settles O45: `exec_crRenorm` with the magnitude written out. -/
theorem crRenormDividesByMagnitude : Obligations.CrRenormDividesByMagnitude := by
  intro k s hk u mag good
  exact exec_crRenorm hk (mag := mag) rfl

end Sys2Proof.Machine
end

section
/-! # The biquad filter (44_biquad.md R171 to R176)

BQ_CALC's checks are all of one code, so they are one check of their conjunction (`bqCalcWith_eq`). BQ_SET_COEF makes
its two checks in R173's order, and BQ_PROCESS only that of its input. -/

namespace Sys2Proof.Machine

/-! ## BQ_CALC (R171, R172) -/

/-- R171's design has `b2 = b0`: four finite coefficients are five. -/
theorem coefsFinite_designWith (tan : F32 → F32) (fs f q : F32) :
    let c := designWith tan fs f q
    coefsFinite c = true
      ↔ isFinite c.b0 = true ∧ isFinite c.b1 = true ∧ isFinite c.a1 = true ∧ isFinite c.a2 = true := by
  intro c
  have hb2 : c.b2 = c.b0 := rfl
  simp only [coefsFinite, hb2, Bool.and_eq_true]
  tauto

/-- BQ_CALC's checks as one. -/
theorem bqCalcWith_eq (m : Trig) (k : Inst) (s : State) :
    let fs := argF s 0
    let f := argF s 1
    let q := argF s 2
    let c := designWith m.tan fs f q
    bqCalcWith m k s
      = finish s (instanced s.build.nBQ k
          (need .operand ((isFinite fs && fgt fs fZERO) && (isFinite f && (fgt f fZERO && (flt f (fmul fs fHALF)
              && (isFinite q && (fgt q fZERO && coefsFinite c))))))
            >>= fun _ => .ok (setBq s k
              { bqAt s k with b0 := c.b0, b1 := c.b1, b2 := c.b2, a1 := c.a1, a2 := c.a2 }))) := by
  intro fs f q c
  simp only [bqCalcWith, needFs, needFinite, needOperand, need_bind_need]
  rfl

/-- Settles O46: `bqCalcWith_eq` checks what R172 asks for, whatever TAN is; the block's own command is the one whose
TAN is the parameter of R17. -/
theorem bqCalcDesignsLowpass : Obligations.BqCalcDesignsLowpass := by
  unfold Obligations.BqCalcDesignsLowpass
  intro claim
  have holds (m : Trig) : claim m (bqCalcWith m) := by
    intro k s hk fs f q t kk kq norm b0 b1 a1 a2 good
    rw [bqCalcWith_eq]
    exact finish_instanced_need hk (by simp only [Bool.and_eq_true, coefsFinite_designWith]; rfl)
  exact ⟨holds, holds Config.trig⟩

/-! ## BQ_SET_COEF (R173) -/

/-- BQ_SET_COEF of an instance the build has: the selector is checked before the value. -/
theorem exec_bqSetCoef {k : Inst} {s : State} (hk : k.toNat < s.build.nBQ) :
    exec (.bqSetCoef k) s
      = finish s (need .index (decide (argU s 0 < 5)) >>= fun _ => need .operand (isFinite (argF s 1)) >>= fun _ =>
          .ok (setBq s k (setCoef (bqAt s k) (argU s 0) (argF s 1)))) :=
  congrArg (finish s) (instanced_of_lt hk)

/-- BQ_SET_COEF of a selector that names a coefficient, with a finite value. -/
theorem exec_bqSetCoef_accepted {k : Inst} {s : State} {sel : Nat} (hk : k.toNat < s.build.nBQ) (hsel : sel < 5)
    (h : argU s 0 = sel) (hfin : isFinite (argF s 1) = true) :
    exec (.bqSetCoef k) s = .next (accept (setBq s k (setCoef (bqAt s k) sel (argF s 1)))) := by
  subst h
  rw [exec_bqSetCoef hk, (finish_need decide_eq_true_iff).1 hsel, (finish_need Iff.rfl).1 hfin, finish_ok]

/-- Settles O47: the five selectors are the cases of `setCoef`. -/
theorem bqSetCoefWritesOne : Obligations.BqSetCoefWritesOne := by
  intro k s hk u val writes
  have writes_setCoef (sel : Fin 5) : writes sel (setCoef u sel val) := exec_bqSetCoef_accepted hk sel.isLt
  refine ⟨writes_setCoef 0, writes_setCoef 1, writes_setCoef 2, writes_setCoef 3, writes_setCoef 4,
    fun hsel => ?index, fun hsel hfin => ?operand⟩
  case index => rw [exec_bqSetCoef hk, (finish_need decide_eq_true_iff).2 hsel.not_gt]
  case operand =>
    rw [exec_bqSetCoef hk, (finish_need decide_eq_true_iff).1 hsel,
      (finish_need Iff.rfl).2 (Bool.eq_false_iff.mp hfin)]

/-! ## BQ_PROCESS (R175, R176) -/

/-- BQ_PROCESS in terms of the output of the difference equation, which is not checked. -/
theorem exec_bqProcess {k : Inst} {s : State} (hk : k.toNat < s.build.nBQ) {x y : F32} (hx : argF s 0 = x)
    (hy : difference (bqAt s k) x = y) :
    (isFinite x = true → exec (.bqProcess k) s
        = .next (accept (setRes (setBq s k { bqAt s k with
            x1 := x, x2 := (bqAt s k).x1, y1 := y, y2 := (bqAt s k).y1 }) 0 (canonical y))))
      ∧ (¬isFinite x = true → exec (.bqProcess k) s = .next (reject .operand s)) := by
  subst hx hy
  exact finish_instanced_need hk Iff.rfl

/-- The difference equation of R175, each operation rounded, left to right. -/
theorem difference_eq (u : BqInst) (x : F32) :
    difference u x
      = fsub (fsub (fadd (fadd (fmul u.b0 x) (fmul u.b1 u.x1)) (fmul u.b2 u.x2)) (fmul u.a1 u.y1))
          (fmul u.a2 u.y2) := rfl

/-- Settles O48: `exec_bqProcess` with the difference equation written out. -/
theorem bqProcessFilters : Obligations.BqProcessFilters := by
  intro k s hk u x y
  obtain ⟨accepted, rejected⟩ := exec_bqProcess hk rfl (difference_eq u x)
  exact ⟨accepted, fun hfin => rejected (Bool.eq_false_iff.mp hfin)⟩

end Sys2Proof.Machine
end

section
/-! # The pitch quantizer (45_quantizer.md R191 to R197)

QZ_QUANTIZE's loop over the entries in use is the library's search of a range (`scan_eq_find?`), which says what the
least matching index is. -/

namespace Sys2Proof.Machine

/-! ## QZ_QUANTIZE (R196) -/

/-- The loop of R196 from index `i` on is a search of the indices it visits. -/
theorem scanFrom_eq_find? (table : Memory QtEntry) (frac : F32) (fuel i : Nat) :
    scanFrom table frac fuel i
      = (List.range' i fuel).find? fun m => fgt (Memory.read qtDefault table m).bound frac := by
  induction fuel generalizing i with
  | zero => rfl
  | succ fuel ih =>
    rw [scanFrom, List.range'_succ, List.find?_cons, ih]
    cases fgt (Memory.read qtDefault table i).bound frac <;> rfl

theorem scan_eq_find? (table : Memory QtEntry) (frac : F32) (n : Nat) :
    scan table frac n = (List.range n).find? fun m => fgt (Memory.read qtDefault table m).bound frac := by
  rw [scan, scanFrom_eq_find?, List.range_eq_range']

/-- The scan finds the least index below `n` whose bound exceeds the fraction. -/
theorem scan_eq_some_iff {table : Memory QtEntry} {frac : F32} {n j : Nat} :
    scan table frac n = some j
      ↔ j < n ∧ fgt (Memory.read qtDefault table j).bound frac = true
        ∧ ∀ i < j, fgt (Memory.read qtDefault table i).bound frac = false := by
  rw [scan_eq_find?, List.find?_range_eq_some, List.mem_range, and_left_comm]
  simp only [Bool.not_eq_true']

/-- The scan finds nothing if no bound below `n` exceeds the fraction. -/
theorem scan_eq_none_iff {table : Memory QtEntry} {frac : F32} {n : Nat} :
    scan table frac n = none ↔ ∀ i < n, fgt (Memory.read qtDefault table i).bound frac = false := by
  rw [scan_eq_find?, List.find?_range_eq_none]
  simp only [Bool.not_eq_true']

/-- A root gate of a table with at least one entry in use. -/
theorem rootGate_eq {i n : Nat} (hn : 0 < n) : rootGate i n = if i = 0 ∨ i = n - 1 then 1 else 0 := by
  have hlast : i + 1 = n ↔ i = n - 1 := by omega
  simp only [rootGate, hlast]

/-- QZ_QUANTIZE of an instance the build has: its checks in R196's order, then the scan, then the four results. -/
theorem exec_qzQuantize {k : Inst} {s : State} (hk : k.toNat < s.build.nQZ) :
    let n := (qzAt s k).n.toNat
    let cv := argF s 0
    let oct := floorI (fmul cv fFIVE)
    let frac := fsub (fmul cv fFIVE) (toF oct)
    exec (.qzQuantize k) s
      = finish s (need .config (decide (2 ≤ n)) >>= fun _ =>
          need .operand (isFinite cv && (fge cv fZERO && fle cv fONE)) >>= fun _ =>
          needMatch (scan (bankGet s.qt k) frac n) >>= fun j =>
          let r := quantizeAt (bankGet s.qt k) n (qzAt s k).transpose.toNat oct j
          .ok (setRes (setRes (setRes (setRes s 0 (canonical r.v)) 1 (zext r.gates)) 2 (zext r.jt)) 3 (zext r.j))) := by
  intro n cv oct frac
  rw [← need_bind_need]
  exact congrArg (finish s) (instanced_of_lt hk)

/-- Settles O51: `exec_qzQuantize`, where the scan finds the entry of the statement (`scan_eq_some_iff`) or none
(`scan_eq_none_iff`). -/
theorem quantizeTakesFirstBound : Obligations.QuantizeTakesFirstBound := by
  intro k s hk n cv vin oct frac inRange above
  have hlen : decide (2 ≤ n) = true ↔ 2 ≤ n := decide_eq_true_iff
  have hrange : (isFinite cv && (fge cv fZERO && fle cv fONE)) = true ↔ inRange := by
    rw [Bool.and_eq_true, Bool.and_eq_true]
  rw [exec_qzQuantize hk]
  refine ⟨fun hn hcv j hj habove hleast => ?found, fun hn => (finish_need hlen).2 hn.not_ge,
    fun hn hcv => ?operand, fun hn hcv hnone => ?noMatch⟩
  case found =>
    intro off jt octq v g0 g1
    have hpos : 0 < n := by omega
    have hg0 : rootGate j n = g0 := rootGate_eq hpos
    have hg1 : rootGate jt n = g1 := rootGate_eq hpos
    rw [(finish_need hlen).1 hn, (finish_need hrange).1 hcv, scan_eq_some_iff.mpr ⟨hj, habove, hleast⟩, ← hg0, ← hg1]
    rfl
  case operand => rw [(finish_need hlen).1 hn, (finish_need hrange).2 hcv]
  case noMatch =>
    rw [(finish_need hlen).1 hn, (finish_need hrange).1 hcv, scan_eq_none_iff.mpr hnone]
    rfl

/-! ## QZ_SET_LEN, QZ_SET_TRANSPOSE and QZ_INC_TRANSPOSE (R191, R194, R195) -/

/-- QZ_SET_LEN's one check; a length that passes it is stored as the word it came in. -/
theorem exec_qzSetLen {k : Inst} {s : State} (hk : k.toNat < s.build.nQZ) :
    let good := 2 ≤ argU s 0 ∧ argU s 0 ≤ s.build.qzMax
    (good → exec (.qzSetLen k) s = .next (accept (setQz s k { qzAt s k with n := argWord s 0 })))
      ∧ (¬good → exec (.qzSetLen k) s = .next (reject .operand s)) := by
  rw [← zext_toNat (argWord s 0)]
  exact finish_instanced_need hk (by rw [Bool.and_eq_true, decide_eq_true_iff, decide_eq_true_iff])

/-- The transpose index wraps (R195). -/
theorem add_one_eq_ofNat (w : Word) : w + 1 = BitVec.ofNat 32 ((w.toNat + 1) % 2 ^ 32) := by
  apply BitVec.eq_of_toNat_eq
  simp [BitVec.toNat_add]

/-- Settles O49: the length is checked (`exec_qzSetLen`), the transpose index is not. -/
theorem qzLengthAndTranspose : Obligations.QzLengthAndTranspose := by
  intro k s hk u
  obtain ⟨accepted, rejected⟩ := exec_qzSetLen hk
  rw [← add_one_eq_ofNat]
  exact ⟨fun hlo hhi => accepted ⟨hlo, hhi⟩, fun hout => rejected (by omega), finish_instanced_ok hk,
    finish_instanced_ok hk⟩

/-! ## QZ_TABLE_WRITE (R192) -/

/-- QZ_TABLE_WRITE of an instance the build has: the index is checked before the two values. -/
theorem exec_qzTableWrite {k : Inst} {s : State} (hk : k.toNat < s.build.nQZ) :
    exec (.qzTableWrite k) s
      = finish s (need .index (decide (argU s 0 < s.build.qzMax)) >>= fun _ =>
          need .operand (isFinite (argF s 1) && isFinite (argF s 2)) >>= fun _ =>
          .ok (setQt s k (argU s 0) { bound := argF s 1, q := argF s 2 })) := by
  rw [← need_bind_need]
  exact congrArg (finish s) (instanced_of_lt hk)

/-- An entry of a scale table after a write: the one written, or as before, in every instance. -/
theorem qtAt_setQt {k : Inst} {s : State} (hwf : Memory.wf qtDefault (bankGet s.qt k) = true) (i : Nat) (e : QtEntry)
    (c : Inst) (j : Nat) : qtAt (setQt s k i e) c j = if c = k ∧ j = i then e else qtAt s c j := by
  rw [qtAt, setQt_qt, bankGet_bankSet]
  by_cases hc : c = k
  · subst hc
    simp only [if_true, true_and]
    exact Memory.read_write hwf
  · simp only [hc, if_false, false_and]
    rfl

/-- Settles O50: what the write does to the tables is `qtAt_setQt`. -/
theorem scaleTableWriteSetsOneEntry : Obligations.ScaleTableWriteSetsOneEntry := by
  intro k s hk i good
  rw [exec_qzTableWrite hk]
  have hindex : decide (i < s.build.qzMax) = true ↔ i < s.build.qzMax := decide_eq_true_iff
  have hgood : (isFinite (argF s 1) && isFinite (argF s 2)) = true ↔ good := Bool.and_eq_true_iff
  refine ⟨fun hi hfin => ⟨accept (setQt s k i { bound := argF s 1, q := argF s 2 }), ?_, rfl,
      fun hwf => ⟨?_, qtAt_setQt hwf i _⟩⟩,
    fun hi => (finish_need hindex).2 hi.not_gt, fun hi hfin => ?_⟩
  · rw [(finish_need hindex).1 hi, (finish_need hgood).1 hfin, finish_ok]
  · rw [accept_qt, setQt_qt, bankGet_bankSet_self]
    exact Memory.wf_write hwf
  · rw [(finish_need hindex).1 hi, (finish_need hgood).2 hfin]

/-! ## QZ_CHROMATIC (R197) -/

/-- QZ_CHROMATIC's checks as one. -/
theorem exec_qzChromatic (k : Inst) (s : State) :
    exec (.qzChromatic k) s
      = finish s (instanced s.build.nQZ k
          (need .operand (isFinite (argF s 0) && (fge (argF s 0) fZERO && fle (argF s 0) fONE))
            >>= fun _ => .ok (setRes s 0 (canonical (fdiv (roundF (fmul (argF s 0) fSIXTY)) fSIXTY))))) := by
  rw [← need_bind_need]
  rfl

/-- Settles O52: `exec_qzChromatic` checks what R197 asks for. -/
theorem chromaticRoundsToSemitone : Obligations.ChromaticRoundsToSemitone := by
  intro k s hk cv inRange
  rw [exec_qzChromatic]
  exact finish_instanced_need hk (by rw [Bool.and_eq_true, Bool.and_eq_true])

end Sys2Proof.Machine
end

section
/-! # The trigger timer (46_trigger_timer.md R211 to R217, R220)

A sample moves an instance that is in mode 0 to `basicSample`, one in mode 1 to `rampedSample`; both advance the count
alike, so that the count after `n` samples from 0 is `n` modulo the interval in either mode (`Counting`). What holds
after `n` samples is carried to any number of them by `repeatCommand_reaches`. -/

namespace Sys2Proof.Machine

/-! ## TT_SET_PERIOD and TT_SET_BPM (R211 to R213) -/

/-- The checks of R211 as one. -/
theorem toInterval_eq (x : F32) :
    toInterval x = need .operand (isFinite x && (fge x fONE && flt x fTWO32)) >>= fun _ => .ok (truncI x) := by
  simp only [← need_bind_need]
  rfl

/-- What the two commands share: the checks of the operand and of the number of samples, on an instance that the build
has, then assignments that depend on the interval. -/
theorem finish_instanced_tempo {n : Nat} {k : Inst} {s : State} (x samples : F32) (assign : Nat → State)
    (hk : k.toNat < n) :
    let good := isFinite x = true ∧ fgt x fZERO = true ∧ isFinite samples = true ∧ fge samples fONE = true
      ∧ flt samples fTWO32 = true
    let answer := finish s (instanced n k (needFinite x >>= fun _ => needOperand (fgt x fZERO) >>= fun _ =>
      toInterval samples >>= fun m => .ok (assign m)))
    (good → answer = .next (accept (assign (truncI samples)))) ∧ (¬good → answer = .next (reject .operand s)) := by
  rw [toInterval_eq, bind_assoc, needOperand, needFinite, need_bind_need, need_bind_need]
  exact finish_instanced_need hk (by simp only [Bool.and_eq_true, and_assoc])

/-- Settles O53: both commands are `finish_instanced_tempo`, each for its own number of samples. -/
theorem tempoSetsInterval : Obligations.TempoSetsInterval := by
  intro k s hk u x good byPeriod byBpm
  have tempo (samples : F32) :=
    finish_instanced_tempo (s := s) x samples (fun m => setTt s k { u with interval := zext m }) hk
  exact ⟨(tempo byPeriod).1, (tempo byPeriod).2, (tempo byBpm).1, (tempo byBpm).2⟩

/-! ## TT_SET_DURATION and TT_SET_MODE (R214, R215) -/

/-- TT_SET_DURATION's one check; a duration that passes it is stored as the word it came in. -/
theorem exec_ttSetDuration {k : Inst} {s : State} (hk : k.toNat < s.build.nTT) :
    (1 ≤ argU s 0 →
      exec (.ttSetDuration k) s
        = .next (accept (setTt s k
            { ttAt s k with duration := argWord s 0, step := fdiv fTWO (toF (argU s 0)) })))
      ∧ (¬1 ≤ argU s 0 → exec (.ttSetDuration k) s = .next (reject .operand s)) := by
  rw [← zext_toNat (argWord s 0)]
  exact finish_instanced_need hk decide_eq_true_iff

/-- TT_SET_MODE's one check. -/
theorem exec_ttSetMode {k : Inst} {s : State} (hk : k.toNat < s.build.nTT) :
    (argU s 0 ≤ 1 →
      exec (.ttSetMode k) s
        = .next (accept (setTt s k
            { ttAt s k with mode := if argU s 0 = 0 then .basic else .ramped, state := .idle, ramp := fZERO })))
      ∧ (¬argU s 0 ≤ 1 → exec (.ttSetMode k) s = .next (reject .operand s)) :=
  finish_instanced_need hk decide_eq_true_iff

/-- Settles O54: each of the two makes one check, of its operand. -/
theorem durationAndModeSettings : Obligations.DurationAndModeSettings := by
  intro k s hk u d
  obtain ⟨setDuration, noDuration⟩ := exec_ttSetDuration hk
  obtain ⟨setMode, noMode⟩ := exec_ttSetMode hk
  refine ⟨setDuration, fun hd => noDuration (by omega), fun hd => ?basic, fun hd => ?ramped,
    fun hd => noMode (by omega)⟩
  case basic =>
    rw [setMode (by omega), if_pos hd]
    rfl
  case ramped =>
    rw [setMode (by omega), if_neg (by omega)]
    rfl

/-! ## One sample of an instance (R216, R217) -/

/-- The count restarts, and the timer fires, when the advanced count reaches the interval. -/
theorem advance_of_reaches {u : TtInst} (h : u.interval.toNat ≤ u.counter.toNat + 1) : advance u = (0, true) :=
  if_pos h

theorem advance_of_below {u : TtInst} (h : u.counter.toNat + 1 < u.interval.toNat) :
    advance u = (u.counter.toNat + 1, false) := if_neg h.not_ge

theorem advance_eq (u : TtInst) :
    advance u = (if u.interval.toNat ≤ u.counter.toNat + 1 then 0 else u.counter.toNat + 1,
      decide (u.interval.toNat ≤ u.counter.toNat + 1)) := by
  by_cases h : u.interval.toNat ≤ u.counter.toNat + 1
  · rw [advance_of_reaches h, if_pos h, decide_eq_true h]
  · rw [advance_of_below (not_le.mp h), if_neg h, decide_eq_false h]

theorem basicSample_eq {u : TtInst} {c : Nat} {fires : Bool} (h : advance u = (c, fires)) :
    basicSample u = { u with counter := zext c, state := if fires then .triggered else .idle } := by
  simp only [basicSample, h]

theorem rampedState_eq {u : TtInst} {c : Nat} {fires : Bool} (h : advance u = (c, fires)) :
    rampedState u
      = if fires then .triggered
        else if u.state = .triggered ∧ u.duration.toNat ≤ c then .idle
        else u.state := by
  simp only [rampedState, h]

/-- The ramp's move, with the clamping at the target written out (R14, R217). -/
theorem track_eq (ramp target step : F32) :
    track ramp target step
      = if flt ramp target then (if flt (fadd ramp step) target then fadd ramp step else target)
        else if flt target ramp then (if flt target (fsub ramp step) then fsub ramp step else target)
        else ramp := rfl

/-! ## TT_PROCESS in each mode (R216) -/

section
variable {k : Inst} {s : State} (hk : k.toNat < s.build.nTT)
include hk

/-- TT_PROCESS in mode 0 checks the interval alone. -/
theorem exec_ttProcess_basic (hmode : (ttAt s k).mode = .basic) {c : Nat} {fires : Bool}
    (h : advance (ttAt s k) = (c, fires)) :
    (1 ≤ (ttAt s k).interval.toNat →
      exec (.ttProcess k) s
        = .next (accept (setRes (setRes (setTt s k (basicSample (ttAt s k))) 0 (if fires then fONE else fZERO)) 1
            (boolWord fires))))
      ∧ (¬1 ≤ (ttAt s k).interval.toNat → exec (.ttProcess k) s = .next (reject .config s)) := by
  have hexec : exec (.ttProcess k) s
      = finish s (instanced s.build.nTT k (need .config (decide (1 ≤ (ttAt s k).interval.toNat)) >>= fun _ =>
          .ok (setRes (setRes (setTt s k (basicSample (ttAt s k))) 0 (if fires then fONE else fZERO)) 1
            (boolWord fires)))) := by
    simp [exec, execTtProcess, needConfig, hmode, h]
  rw [hexec]
  exact finish_instanced_need hk decide_eq_true_iff

/-- TT_PROCESS in mode 1 checks the interval and the duration. -/
theorem exec_ttProcess_ramped (hmode : (ttAt s k).mode = .ramped) :
    let good := 1 ≤ (ttAt s k).interval.toNat ∧ 1 ≤ (ttAt s k).duration.toNat
    (good →
      exec (.ttProcess k) s
        = .next (accept (setRes (setRes (setTt s k (rampedSample (ttAt s k))) 0
            (canonical (rampedSample (ttAt s k)).ramp)) 1 (stateWord (rampedState (ttAt s k))))))
      ∧ (¬good → exec (.ttProcess k) s = .next (reject .config s)) := by
  have hexec : exec (.ttProcess k) s
      = finish s (instanced s.build.nTT k
          (need .config (decide (1 ≤ (ttAt s k).interval.toNat) && decide (1 ≤ (ttAt s k).duration.toNat))
            >>= fun _ => .ok (setRes (setRes (setTt s k (rampedSample (ttAt s k))) 0
              (canonical (rampedSample (ttAt s k)).ramp)) 1 (stateWord (rampedState (ttAt s k)))))) := by
    simp [exec, execTtProcess, needConfig, hmode, ← need_bind_need, rampedSample]
  rw [hexec]
  exact finish_instanced_need hk (by rw [Bool.and_eq_true, decide_eq_true_iff, decide_eq_true_iff])

end

/-- Settles O55: `exec_ttProcess_basic`, where the count reaches the interval and where it does not. -/
theorem ttProcessBasicPulse : Obligations.TtProcessBasicPulse := by
  intro k s hk u hmode
  refine ⟨fun hn hreaches => ?fires, fun hn hbelow => ?counts, fun hn => ?noInterval⟩
  case fires =>
    have hadv := advance_of_reaches hreaches
    rw [(exec_ttProcess_basic hk hmode hadv).1 hn, basicSample_eq hadv]
    rfl
  case counts =>
    have hadv := advance_of_below hbelow
    have hcount : zext (u.counter.toNat + 1) = u.counter + 1 := by simp [zext, BitVec.ofNat_add]
    rw [(exec_ttProcess_basic hk hmode hadv).1 hn, basicSample_eq hadv, hcount]
    rfl
  case noInterval => exact (exec_ttProcess_basic hk hmode rfl).2 hn.not_gt

/-- Settles O56: `exec_ttProcess_ramped` with the count, the state and the ramp written out. -/
theorem ttProcessRampedTrigger : Obligations.TtProcessRampedTrigger := by
  intro k s hk u hmode
  obtain ⟨accepted, rejected⟩ := exec_ttProcess_ramped hk hmode
  refine ⟨fun hn hd => ?_, fun hzero => rejected fun ⟨hn, hd⟩ => hzero.elim (Nat.ne_of_gt hn) (Nat.ne_of_gt hd)⟩
  intro fire c st target up down ramp
  have hadv : advance u = (c, decide fire) := advance_eq u
  have hst : rampedState u = st := by
    rw [rampedState_eq hadv]
    simp only [decide_eq_true_eq]
    rfl
  have hsample : rampedSample u = { u with counter := zext c, state := st, ramp := ramp } := by
    rw [rampedSample, hst, hadv, track_eq]
  rw [accepted ⟨hn, hd⟩, hsample, hst, stateWord_eq]
  rfl

/-! ## Counting samples (R220) -/

/-- `v` is a timer that was `u`, with its count at 0, `n` samples ago: the settings are kept, and the count is `n`
modulo the interval. -/
def Counting (u : TtInst) (n : Nat) (v : TtInst) : Prop :=
  v.interval = u.interval ∧ v.duration = u.duration ∧ v.mode = u.mode ∧ v.counter.toNat = n % u.interval.toNat

/-- The next count, modulo an interval. -/
theorem add_one_mod_eq {N : Nat} (hN : 1 ≤ N) (n : Nat) :
    (n + 1) % N = if N ≤ n % N + 1 then 0 else n % N + 1 := by
  have hlt : n % N < N := Nat.mod_lt _ hN
  rw [← Nat.mod_add_mod]
  split_ifs with hreaches
  · rw [show n % N + 1 = N by omega, Nat.mod_self]
  · exact Nat.mod_eq_of_lt (by omega)

theorem counting_zero {u : TtInst} (h : u.counter = 0) : Counting u 0 u :=
  ⟨rfl, rfl, rfl, by rw [h, Nat.zero_mod]; rfl⟩

section
variable {u v : TtInst} {n : Nat} (hpos : 1 ≤ u.interval.toNat) (h : Counting u n v)
include hpos h

/-- The sample after `n` others fires if it completes an interval. -/
theorem advance_of_counting :
    advance v = ((n + 1) % u.interval.toNat, decide ((n + 1) % u.interval.toNat = 0)) := by
  obtain ⟨hinterval, -, -, hcounter⟩ := h
  rw [advance_eq, hinterval, hcounter, add_one_mod_eq hpos]
  split_ifs with hreaches <;> simp [hreaches]

/-- A sample in either mode keeps the count. -/
theorem counting_succ {st : TtState} {ramp : F32} :
    Counting u (n + 1) { v with counter := zext (advance v).1, state := st, ramp := ramp } := by
  have hle := advance_le v
  have hadv := advance_of_counting hpos h
  obtain ⟨hinterval, hduration, hmode, -⟩ := h
  exact ⟨hinterval, hduration, hmode, by rw [toNat_zext (by omega), hadv]⟩

end

/-! ## Many samples (R220) -/

/-- What each of a row of commands leaves, by induction: `P` is carried from command to command, `Q` is what is asked of
the last. -/
theorem repeatCommand_reaches {i : Instr} {P Q : Nat → State → Prop} {s : State} (hs : P 0 s)
    (hstep : ∀ n s, P n s → ∃ t, exec i s = .next t ∧ P (n + 1) t ∧ Q (n + 1) t) (n : Nat) :
    ∃ t, repeatCommand i (n + 1) s = .next t ∧ P (n + 1) t ∧ Q (n + 1) t := by
  induction n generalizing P Q s with
  | zero =>
    obtain ⟨t, ht, hPQ⟩ := hstep 0 s hs
    exact ⟨t, by rw [repeatCommand, ht]; rfl, hPQ⟩
  | succ n ih =>
    obtain ⟨u, hu, hP, -⟩ := hstep 0 s hs
    obtain ⟨t, ht, hPQ⟩ := ih (P := fun j => P (j + 1)) (Q := fun j => Q (j + 1)) hP fun j => hstep (j + 1)
    exact ⟨t, by rw [repeatCommand, hu]; exact ht, hPQ⟩

/-- The build, the instance and the results after an accepted TT_PROCESS that writes `u`, `r0` and `r1`. -/
theorem ttAt_processed (k : Inst) (s : State) (u : TtInst) (r0 r1 : Word) :
    let t := accept (setRes (setRes (setTt s k u) 0 r0) 1 r1)
    t.build = s.build ∧ ttAt t k = u ∧ resWord t 0 = r0 ∧ resWord t 1 = r1 :=
  ⟨rfl, by simp, by simp, by simp⟩

/-- `t` is a state in which instance `k` is `n` samples past its count of 0 in `s`. -/
def Sampled (k : Inst) (s : State) (n : Nat) (t : State) : Prop :=
  t.build = s.build ∧ Counting (ttAt s k) n (ttAt t k)

theorem sampled_zero {k : Inst} {s : State} (h : (ttAt s k).counter = 0) : Sampled k s 0 s := ⟨rfl, counting_zero h⟩

/-- What a sample in either mode writes into its instance takes it one sample further. -/
theorem sampled_succ {k : Inst} {s t t' : State} {n : Nat} {st : TtState} {ramp : F32}
    (hN : 1 ≤ (ttAt s k).interval.toNat) (h : Sampled k s n t) (hbuild : t'.build = t.build)
    (htt : ttAt t' k = { ttAt t k with counter := zext (advance (ttAt t k)).1, state := st, ramp := ramp }) :
    Sampled k s (n + 1) t' :=
  ⟨hbuild.trans h.1, by rw [htt]; exact counting_succ hN h.2⟩

/-! ### The pulse of mode 0 -/

/-- The results of sample `n` in mode 0 with interval `N`: a pulse if the sample completes an interval. -/
def PulseResults (N n : Nat) (t : State) : Prop :=
  resWord t 0 = (if n % N = 0 then fONE else fZERO) ∧ resWord t 1 = (if n % N = 0 then 1 else 0)

/-- One more sample in mode 0. -/
theorem exec_ttProcess_of_basic_sampled {k : Inst} {s t : State} {n : Nat} (hk : k.toNat < s.build.nTT)
    (hmode : (ttAt s k).mode = .basic) (hN : 1 ≤ (ttAt s k).interval.toNat) (h : Sampled k s n t) :
    ∃ t', exec (.ttProcess k) t = .next t' ∧ Sampled k s (n + 1) t'
      ∧ PulseResults (ttAt s k).interval.toNat (n + 1) t' := by
  have ⟨hbuild, hcount⟩ := h
  have ⟨hinterval, _, hmode', _⟩ := hcount
  have hexec := (exec_ttProcess_basic (hbuild ▸ hk) (hmode'.trans hmode) (advance_of_counting hN hcount)).1
    (hinterval ▸ hN)
  simp only [decide_eq_true_eq, boolWord] at hexec
  obtain ⟨hbuild', htt, hres0, hres1⟩ := ttAt_processed k t (basicSample (ttAt t k)) _ _
  exact ⟨_, hexec, sampled_succ hN h hbuild' htt, hres0, hres1⟩

/-- Settles O59: the count is carried from sample to sample, and each sample's results tell whether it restarts it. -/
theorem pulseEveryIntervalSamples : Obligations.PulseEveryIntervalSamples := by
  intro k s hk N hmode hzero hN n hn
  obtain ⟨n, rfl⟩ := Nat.exists_eq_add_of_le' hn
  obtain ⟨t, ht, ⟨-, -, -, -, hcounter⟩, hres0, hres1⟩ := repeatCommand_reaches (sampled_zero hzero)
    (fun _ _ => exec_ttProcess_of_basic_sampled hk hmode hN) n
  exact ⟨t, ht, hres0, hres1, hcounter⟩

/-! ### The gate of mode 1 -/

/-- The state after `n` samples of a timer with interval `N` and duration `D` that was idle with its count at 0. -/
def gateState (N D n : Nat) : TtState := if N ≤ n ∧ n % N < D then .triggered else .idle

theorem gateState_eq_triggered_iff {N D n : Nat} : gateState N D n = .triggered ↔ N ≤ n ∧ n % N < D := by
  simp [gateState]

theorem gateState_zero {N : Nat} (D : Nat) (hN : 1 ≤ N) : gateState N D 0 = .idle := if_neg (by omega)

/-- A gate opens when an interval is complete. -/
theorem gateState_of_mod_eq_zero {N D n : Nat} (hD : 1 ≤ D) (hn : 1 ≤ n) (h : n % N = 0) :
    gateState N D n = .triggered :=
  if_pos ⟨Nat.le_of_dvd hn (Nat.dvd_of_mod_eq_zero h), by omega⟩

/-- Within an interval, a gate that is open closes when the count reaches the duration, and one that is closed stays
closed. -/
theorem gateState_succ {N D n : Nat} (hN : 1 ≤ N) (h : (n + 1) % N ≠ 0) :
    gateState N D (n + 1)
      = if gateState N D n = .triggered ∧ D ≤ (n + 1) % N then .idle else gateState N D n := by
  have hnext := add_one_mod_eq hN n
  rw [if_neg fun hreaches => h (hnext.trans (if_pos hreaches))] at hnext
  have hne : n + 1 ≠ N := by
    rintro rfl
    exact h (Nat.mod_self _)
  have hopen : (N ≤ n + 1 ∧ (n + 1) % N < D) ↔ (N ≤ n ∧ n % N < D) ∧ ¬D ≤ (n + 1) % N := by omega
  simp only [gateState, hopen]
  by_cases hclose : D ≤ (n + 1) % N <;> simp [hclose]

/-- The state rule of R216 is the gate's. -/
theorem rampedState_of_counting {u v : TtInst} {n : Nat} (hD : 1 ≤ u.duration.toNat) (hN : 1 ≤ u.interval.toNat)
    (h : Counting u n v) (hst : v.state = gateState u.interval.toNat u.duration.toNat n) :
    rampedState v = gateState u.interval.toNat u.duration.toNat (n + 1) := by
  rw [rampedState_eq (advance_of_counting hN h)]
  obtain ⟨-, hduration, -, -⟩ := h
  by_cases hfires : (n + 1) % u.interval.toNat = 0
  · rw [if_pos (decide_eq_true hfires), gateState_of_mod_eq_zero hD (Nat.succ_pos n) hfires]
  · rw [if_neg (by simpa using hfires), gateState_succ hN hfires, hst, hduration]

/-- One more sample in mode 1. -/
theorem exec_ttProcess_of_ramped_sampled {k : Inst} {s t : State} {n : Nat} (hk : k.toNat < s.build.nTT)
    (hmode : (ttAt s k).mode = .ramped) (hN : 1 ≤ (ttAt s k).interval.toNat) (hD : 1 ≤ (ttAt s k).duration.toNat)
    (hs : Sampled k s n t)
    (hst : (ttAt t k).state = gateState (ttAt s k).interval.toNat (ttAt s k).duration.toNat n) :
    ∃ t', exec (.ttProcess k) t = .next t'
      ∧ (Sampled k s (n + 1) t'
        ∧ (ttAt t' k).state = gateState (ttAt s k).interval.toNat (ttAt s k).duration.toNat (n + 1))
      ∧ resWord t' 1
        = stateWord (gateState (ttAt s k).interval.toNat (ttAt s k).duration.toNat (n + 1)) := by
  have ⟨hbuild, hcount⟩ := hs
  have ⟨hinterval, hduration, hmode', _⟩ := hcount
  have hexec := (exec_ttProcess_ramped (hbuild ▸ hk) (hmode'.trans hmode)).1 ⟨hinterval ▸ hN, hduration ▸ hD⟩
  have hgate := rampedState_of_counting hD hN hcount hst
  obtain ⟨hbuild', htt, -, hres1⟩ := ttAt_processed k t (rampedSample (ttAt t k)) _ _
  exact ⟨_, hexec, ⟨sampled_succ hN hs hbuild' htt, (congrArg TtInst.state htt).trans hgate⟩,
    hres1.trans (congrArg stateWord hgate)⟩

/-- Settles O60: the count and the gate's state are carried from sample to sample. -/
theorem gateOpenForDuration : Obligations.GateOpenForDuration := by
  intro k s hk N D hmode hidle hzero hD hDN n hn
  have hN : 1 ≤ N := by omega
  obtain ⟨n, rfl⟩ := Nat.exists_eq_add_of_le' hn
  obtain ⟨t, ht, ⟨⟨-, -, -, -, hcounter⟩, -⟩, hres1⟩ := repeatCommand_reaches
    (P := fun j t => Sampled k s j t ∧ (ttAt t k).state = gateState N D j)
    (Q := fun j t => resWord t 1 = stateWord (gateState N D j))
    ⟨sampled_zero hzero, hidle.trans (gateState_zero D hN).symm⟩
    (fun _ _ ⟨hs, hst⟩ => exec_ttProcess_of_ramped_sampled hk hmode hN hD hs hst) n
  refine ⟨t, ht, ?_, hcounter⟩
  rw [hres1, stateWord_eq]
  simp only [gateState_eq_triggered_iff]

end Sys2Proof.Machine
end

section
/-! # The codes a command can raise (60_exceptions.md R232), and what a reset leaves (70_reset_and_hazards.md R250)

`Raises cs r` says that a computation fails with codes of `cs` only. There is one rule per way a command's body is
built, so that a command raises the code of each check it makes and no other. -/

namespace Sys2Proof.Machine

/-! ## What a rejected computation raises -/

/-- Every code that `r` is rejected with is one of `cs`. -/
def Raises {α : Type} (cs : List Code) (r : Except Code α) : Prop := ∀ c, r = .error c → c ∈ cs

section
variable {α β : Type} {cs : List Code}

@[simp] theorem raises_ok {a : α} : Raises cs (.ok a) := nofun

/-- A computation in two parts raises what its parts raise; the second runs only on a result of the first. -/
@[simp] theorem raises_bind {x : Except Code α} {f : α → Except Code β} :
    Raises cs (x >>= f) ↔ Raises cs x ∧ ∀ a, x = .ok a → Raises cs (f a) := by
  simp only [Raises, bind_error_iff]
  exact ⟨fun h => ⟨fun c hx => h c (.inl hx), fun a ha c hf => h c (.inr ⟨a, ha, hf⟩)⟩,
    fun ⟨hx, hf⟩ c hc => hc.elim (hx c) fun ⟨a, ha, hfa⟩ => hf a ha c hfa⟩

@[simp] theorem raises_need {c : Code} {b : Bool} : Raises cs (need c b) ↔ (b = false → c ∈ cs) := by
  simp only [Raises, need_error_iff]
  exact ⟨fun h hb => h c ⟨hb, rfl⟩, fun h _ ⟨hb, hc⟩ => hc ▸ h hb⟩

@[simp] theorem raises_needOperand {b : Bool} : Raises cs (needOperand b) ↔ (b = false → .operand ∈ cs) := raises_need

@[simp] theorem raises_needFinite {v : F32} : Raises cs (needFinite v) ↔ (isFinite v = false → .operand ∈ cs) :=
  raises_need

@[simp] theorem raises_needFs {v : F32} :
    Raises cs (needFs v) ↔ ((isFinite v && fgt v fZERO) = false → .operand ∈ cs) := raises_need

@[simp] theorem raises_needConfig {b : Bool} : Raises cs (needConfig b) ↔ (b = false → .config ∈ cs) := raises_need

@[simp] theorem raises_needIndex {i n : Nat} : Raises cs (needIndex i n) ↔ (n ≤ i → .index ∈ cs) := by
  rw [needIndex, raises_need, decide_eq_false_iff_not, Nat.not_lt]

@[simp] theorem raises_needMatch {o : Option Nat} : Raises cs (needMatch o) ↔ (o = none → .noMatch ∈ cs) := by
  cases o <;> simp [Raises, needMatch]

@[simp] theorem raises_instanced {n : Nat} {k : Inst} {body : Except Code State} :
    Raises cs (instanced n k body) ↔ (n ≤ k.toNat → .inst ∈ cs) ∧ (k.toNat < n → Raises cs body) := by
  simp only [Raises, instanced_error_iff]
  exact ⟨fun h => ⟨fun hk => h .inst (.inl ⟨hk, rfl⟩), fun hk c hc => h c (.inr ⟨hk, hc⟩)⟩,
    fun ⟨hinst, hbody⟩ c hc => hc.elim (fun ⟨hk, hc⟩ => hc ▸ hinst hk) fun ⟨hk, hc⟩ => hbody hk c hc⟩

/-- The checks of a frequency (R121) are all of its operands. -/
theorem raises_admitFreq (h : .operand ∈ cs) (r hz fs : F32) : Raises cs (admitFreq r hz fs) := by
  simp [admitFreq, h]

/-- The checks of a number of samples (R211) are all of its operand. -/
theorem raises_toInterval (h : .operand ∈ cs) (x : F32) : Raises cs (toInterval x) := by
  simp [toInterval, h]

end

/-- A rejected command leaves the rejection with a code that its checks raise. -/
theorem finish_rejected_of_raises {cs : List Code} {s t : State} {r : Except Code State} (hr : Raises cs r)
    (h : finish s r = .next t) (hrej : t.status.lastRej = true) : ∃ c ∈ cs, t = reject c s := by
  obtain ⟨c, hc, rfl⟩ := finish_rejected h hrej
  exact ⟨c, hr c hc, rfl⟩

/-- Settles O16: `finish_rejected_of_raises` for the checks each command makes, the commands grouped by how they
make them. -/
theorem commandsRaiseOnlyTheirCodes : Obligations.CommandsRaiseOnlyTheirCodes := by
  intro i s t h hrej
  cases i with
  -- no check
  | nop | clrErr | softReset => exact finish_rejected_of_raises raises_ok h hrej
  -- an instance and a frequency
  | paSetFreq | wtSetFreq =>
    refine finish_rejected_of_raises ?_ h hrej
    simp [raisable, raises_admitFreq]
  -- an instance and a number of samples
  | ttSetPeriod | ttSetBpm =>
    refine finish_rejected_of_raises ?_ h hrej
    simp [raisable, raises_toInterval]
  -- the configuration, before the sample of either mode
  | ttProcess k =>
    refine finish_rejected_of_raises ?_ h hrej
    cases hmode : (ttAt s k).mode <;> simp [raisable, hmode]
  -- every other command makes its checks itself: of the instance, and of an index, a configuration, operands or a match
  | _ =>
    refine finish_rejected_of_raises ?_ h hrej
    simp [raisable]

/-! ## Reset -/

theorem statusWord_reset : statusWord Status.reset = 0 := by decide

/-- The reset input and SOFT_RESET both leave a reset block of the same build (R112, R251). -/
theorem eq_resetBlock_of_reset {s t : State}
    (h : ((∃ rest, s.pending = .reset :: rest) ∧ step s = .next t) ∨ exec .softReset s = .next t) :
    ∃ u : State, u.build = s.build ∧ t = resetBlock u := by
  rcases h with ⟨⟨rest, hp⟩, hstep⟩ | hexec
  · exact ⟨s.takeEvent rest, rfl, Host.Outcome.next.inj (hstep.symm.trans (step_reset hp))⟩
  · exact ⟨s, rfl, (Host.Outcome.next.inj (hexec.symm.trans (exec_softReset s))).trans (accept_resetBlock s)⟩

/-- Settles O12: `eq_resetBlock_of_reset`, then what each piece of a reset block's state reads as; the reset values of
R40 to R45 are the literal ones of R250. -/
theorem resetSetsEveryField : Obligations.ResetSetsEveryField := by
  intro s t h
  obtain ⟨u, hbuild, rfl⟩ := eq_resetBlock_of_reset h
  have hcfg : readReg (resetBlock u) .cfg = readReg s .cfg := congrArg cfgWord hbuild
  have hwtlen : readReg (resetBlock u) .wtlen = readReg s .wtlen :=
    congrArg (fun b : Build => BitVec.ofNat 32 b.wtLen) hbuild
  have hqzmax : readReg (resetBlock u) .qzmax = readReg s .qzmax :=
    congrArg (fun b : Build => BitVec.ofNat 32 b.qzMax) hbuild
  exact ⟨hbuild, rfl, hcfg, hwtlen, hqzmax, statusWord_reset, argWord_resetBlock u, resWord_resetBlock u,
    paAt_resetBlock u, wtAt_resetBlock u, crAt_resetBlock u, bqAt_resetBlock u, qzAt_resetBlock u, ttAt_resetBlock u,
    wtabAt_resetOf u.build, qtAt_resetOf u.build⟩

end Sys2Proof.Machine
end
